-- ==== Sys2Proof/Word.lean ====
section
/-! DEFINITION. The bit vectors of the spec's notation (00_scope.md R12): a bit, `u8`, `u16`, `u32`
and the 128-bit operation word. All quantities of the block are unsigned. -/

namespace Sys2Proof

/-- `Bit`: `0` or `1` (R12). -/
abbrev Bit := BitVec 1

/-- `u8`: one link unit, one byte of buffer space (R10, R11). -/
abbrev Byte := BitVec 8

/-- `u16`: a data word, a colour, a coordinate, a repeat count. -/
abbrev Half := BitVec 16

/-- `u32`: an address or a count (R9, `ADDR_W` = 32). -/
abbrev Word := BitVec 32

/-- The 128-bit operation word of format `OP128` (30_encoding.md R65). -/
abbrev OpWord := BitVec 128

end Sys2Proof
end

