-- ==== Sys2Proof/Config.lean ====
section
/-! DEFINITION. What the spec fixes for the block as numbers (00_scope.md R9), and the free values:
constants without a body, of which no proof can learn the value. The rows of R9 marked OPEN are
arguments of the model and stand in `Machine.State.params` and `Machine.State.linkPlan`. -/

namespace Sys2Proof.Config

/-- `LINK_WIDTH`: bits in a link unit; fixed, no width control (R9, R10, R91). -/
def linkWidth : Nat := 8

/-- `MAX_WIDTH`: pixels in the widest scanline (R9, D12). -/
def maxWidth : Nat := 320

/-- `MAX_HEIGHT` (R9). -/
def maxHeight : Nat := 240

/-- `SCRATCH_CAP`: bytes in the scratch buffer, `2 * MAX_WIDTH` = 640 (R9, 20_memory.md R47). -/
def scratchCap : Nat := 2 * maxWidth

/-- The size of buffer space, `2^ADDR_W` bytes (R9, 20_memory.md R45). -/
def spaceSize : Nat := 2 ^ 32

/-- `RX_WIDTH`: columns of the receiver's frame (R9, D35). -/
def rxWidth : Nat := 320

/-- `RX_HEIGHT`: rows of the receiver's frame (R9, D35). -/
def rxHeight : Nat := 240

/-- `TIMEOUT_EN`: the optional `BusTimeout` extension is not implemented (R9, 60_exceptions.md R168). -/
def timeoutEn : Bool := false

/-- FREE VALUE (log 13). The receiver's addressing window and pointer at receiver reset, which
10_state.md R34 calls unspecified: indexes 0 to 5 are `x0`, `x1`, `y0`, `y1`, `col`, `row`. -/
opaque rxRegAtReset : Nat → Half

/-- FREE VALUE (logs 13, 14, 15). `rxPixel gen col row`: a pixel of the receiver's frame memory that
nothing the model answers for has written: at reset (generation 0, R34) and after each pixel that
arrived under a malformed window (44_receiver_protocol.md R157) or past a window's end (R156), each
of which begins the next generation. -/
opaque rxPixel : Nat → Nat → Nat → Half

end Sys2Proof.Config
end

