-- ==== Sys2Proof/Syntax.lean ====
section
/-! DEFINITION. The seven operations of the block (30_encoding.md R63, R66), one constructor per row
of spec/opcode_table.json, and their assembler form (R73). There are no others. -/

namespace Sys2Proof

/-- An operation with its operands as R68 assembles them: unsigned, not extended, not scaled. -/
inductive Instr where
  /-- `select`: pull chip-select active (40_framing_ops.md R86). -/
  | select
  /-- `deselect`: release chip-select (R87). -/
  | deselect
  /-- `send_command b`: one unit with the selector line low (R88). -/
  | sendCommand (b : Byte)
  /-- `send_data8 b`: one unit with the selector line high (R89). -/
  | sendData8 (b : Byte)
  /-- `send_data16 w`: two units, high byte first (R90). -/
  | sendData16 (w : Half)
  /-- `send_block A, N, R`: stream `n` bytes from `a`, `r` times (41_block_transfer.md R98). -/
  | sendBlock (a n : Word) (r : Half)
  /-- `fill_span c, n`: `n` colour pairs into the scratch buffer (42_fill_engine.md R117). -/
  | fillSpan (c : Half) (n : Word)
  deriving DecidableEq, Repr

namespace Instr

/-- The mnemonic as spec/opcode_table.json and R66 spell it. -/
def mnemonic : Instr → String
  | .select => "select"
  | .deselect => "deselect"
  | .sendCommand _ => "send_command"
  | .sendData8 _ => "send_data8"
  | .sendData16 _ => "send_data16"
  | .sendBlock _ _ _ => "send_block"
  | .fillSpan _ _ => "fill_span"

/-- The operands in the order of R73. -/
def operands : Instr → List Nat
  | .select => []
  | .deselect => []
  | .sendCommand b => [b.toNat]
  | .sendData8 b => [b.toNat]
  | .sendData16 w => [w.toNat]
  | .sendBlock a n r => [a.toNat, n.toNat, r.toNat]
  | .fillSpan c n => [c.toNat, n.toNat]

/-- The assembler line of R73: the mnemonic, then the operands in decimal. -/
def asm (i : Instr) : String :=
  match i.operands.map toString with
  | [] => i.mnemonic
  | x :: xs => i.mnemonic ++ " " ++ ", ".intercalate (x :: xs)

end Instr

end Sys2Proof
end

