-- ==== Sys2Proof/Decode.lean ====
section
/-! DEFINITION. The operation word (30_encoding.md R65 to R72): its fields, its decoder, total on all
2^128 words, the match and mask of each row (R67), and the encoder. -/

namespace Sys2Proof

/-! ### The fields of format `OP128` (R65) -/

/-- `OPC`, bits 127:124. -/
def fieldOpc (w : OpWord) : BitVec 4 := w.extractLsb' 124 4
/-- `Z0`, bits 123:112, must be zero. -/
def fieldZ0 (w : OpWord) : BitVec 12 := w.extractLsb' 112 12
/-- `V`, bits 111:96, the value. -/
def fieldV (w : OpWord) : Half := w.extractLsb' 96 16
/-- `N`, bits 95:64, the count. -/
def fieldN (w : OpWord) : Word := w.extractLsb' 64 32
/-- `Z1`, bits 63:48, must be zero. -/
def fieldZ1 (w : OpWord) : BitVec 16 := w.extractLsb' 48 16
/-- `R`, bits 47:32, the repeat count. -/
def fieldR (w : OpWord) : Half := w.extractLsb' 32 16
/-- `A`, bits 31:0, the address. -/
def fieldA (w : OpWord) : Word := w.extractLsb' 0 32

/-- `hi(w) = w[15:8]` (00_scope.md R12). -/
def hi (w : Half) : Byte := w.extractLsb' 8 8
/-- `lo(w) = w[7:0]` (R12). -/
def lo (w : Half) : Byte := w.extractLsb' 0 8

/-- The seven operation codes of R66; `0x0` and `0x8` to `0xF` name no operation. Any code given a
field that must be zero and is not yields a reserved word (R69), here `none`. -/
def decode (w : OpWord) : Option Instr :=
  let v := fieldV w
  let n := fieldN w
  let r := fieldR w
  let a := fieldA w
  if fieldZ0 w ≠ 0 ∨ fieldZ1 w ≠ 0 then none
  else if fieldOpc w = 0x1 then
    if v = 0 ∧ n = 0 ∧ r = 0 ∧ a = 0 then some .select else none
  else if fieldOpc w = 0x2 then
    if v = 0 ∧ n = 0 ∧ r = 0 ∧ a = 0 then some .deselect else none
  else if fieldOpc w = 0x3 then
    if hi v = 0 ∧ n = 0 ∧ r = 0 ∧ a = 0 then some (.sendCommand (lo v)) else none
  else if fieldOpc w = 0x4 then
    if hi v = 0 ∧ n = 0 ∧ r = 0 ∧ a = 0 then some (.sendData8 (lo v)) else none
  else if fieldOpc w = 0x5 then
    if n = 0 ∧ r = 0 ∧ a = 0 then some (.sendData16 v) else none
  else if fieldOpc w = 0x6 then
    if v = 0 then some (.sendBlock a n r) else none
  else if fieldOpc w = 0x7 then
    if r = 0 ∧ a = 0 then some (.fillSpan v n) else none
  else none

/-- A word from its fields, `Z0` and `Z1` zero (R65). -/
def packWord (opc : BitVec 4) (v : Half) (n : Word) (r : Half) (a : Word) : OpWord :=
  opc ++ (0 : BitVec 12) ++ v ++ n ++ (0 : BitVec 16) ++ r ++ a

/-- A byte operand in `V[7:0]`, `V[15:8]` zero (R67, R68). -/
def byteInV (b : Byte) : Half := (0 : Byte) ++ b

/-- The operation code of R66. -/
def Instr.opc : Instr → BitVec 4
  | .select => 0x1
  | .deselect => 0x2
  | .sendCommand _ => 0x3
  | .sendData8 _ => 0x4
  | .sendData16 _ => 0x5
  | .sendBlock _ _ _ => 0x6
  | .fillSpan _ _ => 0x7

/-- The operation word of an instruction: its operands in the fields R67 gives them, every other
field zero. -/
def encode (i : Instr) : OpWord :=
  match i with
  | .select => packWord i.opc 0 0 0 0
  | .deselect => packWord i.opc 0 0 0 0
  | .sendCommand b => packWord i.opc (byteInV b) 0 0 0
  | .sendData8 b => packWord i.opc (byteInV b) 0 0 0
  | .sendData16 w => packWord i.opc w 0 0 0
  | .sendBlock a n r => packWord i.opc 0 n r a
  | .fillSpan c n => packWord i.opc c n 0 0

/-- One row of R67: a word `w` is the operation iff `w & mask = pattern`. -/
structure Row where
  mnemonic : String
  pattern : OpWord
  mask : OpWord
  deriving DecidableEq, Repr

/-- The table of R67, `match` and `mask` as printed there. -/
def opcodeTable : List Row :=
  [ ⟨"select", 0x10000000000000000000000000000000, 0xFFFFFFFFFFFFFFFFFFFFFFFFFFFFFFFF⟩,
    ⟨"deselect", 0x20000000000000000000000000000000, 0xFFFFFFFFFFFFFFFFFFFFFFFFFFFFFFFF⟩,
    ⟨"send_command", 0x30000000000000000000000000000000, 0xFFFFFF00FFFFFFFFFFFFFFFFFFFFFFFF⟩,
    ⟨"send_data8", 0x40000000000000000000000000000000, 0xFFFFFF00FFFFFFFFFFFFFFFFFFFFFFFF⟩,
    ⟨"send_data16", 0x50000000000000000000000000000000, 0xFFFF0000FFFFFFFFFFFFFFFFFFFFFFFF⟩,
    ⟨"send_block", 0x60000000000000000000000000000000, 0xFFFFFFFF00000000FFFF000000000000⟩,
    ⟨"fill_span", 0x70000000000000000000000000000000, 0xFFFF000000000000FFFFFFFFFFFFFFFF⟩ ]

/-- `w` is the operation of the row (R67). -/
def Row.accepts (row : Row) (w : OpWord) : Bool := (w &&& row.mask) == row.pattern

/-- The first row that accepts `w`: a second reading of the encoding, by mask and pattern alone. -/
def rowOf (w : OpWord) : Option String :=
  (opcodeTable.find? (fun row => row.accepts w)).map Row.mnemonic

/-- Four 32-bit lanes `W3 W2 W1 W0` as the spec prints a word (R65). -/
def ofLanes (w3 w2 w1 w0 : Word) : OpWord := w3 ++ w2 ++ w1 ++ w0

/-- The word with its `N` field replaced by `n` (the host writes the value there, R73). -/
def withN (w : OpWord) (n : Word) : OpWord :=
  (w.extractLsb' 96 32) ++ n ++ (w.extractLsb' 0 64)

/-- The instruction the decoder reads from the bits `w` of a row of `nbits` bits, numbered as
spec/opcode_table.json numbers them (one 128-bit word; the bits from `nbits` on are zero). -/
def decodeTableWord (nbits w : Nat) : Option Instr :=
  decode (BitVec.ofNat 128 (w % 2 ^ nbits))

end Sys2Proof
end

