-- ==== Sys2Proof/Machine/State.lean ====
section
/-! DEFINITION. The state of the machine as plain data: the block (10_state.md R17 to R31), the
parameters the spec leaves OPEN (00_scope.md R9, 10_state.md R38), the host's actions still to come
(R38), and `State.reset` (R36). The receiver's state (R34) is no field: it is a function of the wire
trace (44_receiver_protocol.md R147), see `Machine/Receiver.lean`. -/

namespace Sys2Proof.Machine

/-- What the block has put on its serial-side pins (10_state.md R31). -/
inductive WireEvent where
  /-- `cs` went false to true. -/
  | select
  /-- `cs` went true to false. -/
  | deselect
  /-- The link finished shifting `val` with the selector line at `dc`. -/
  | unit (dc : Bit) (val : Byte)
  deriving DecidableEq, Repr

/-- The link (10_state.md R22, R23): a one-unit shifter. -/
structure Link where
  /-- The link busy flag. -/
  busy : Bool
  /-- The unit in the shifter, meaningful only while `busy`. -/
  shift : Byte
  deriving DecidableEq, Repr

/-- The channel (10_state.md R24 to R27). -/
structure Channel where
  /-- The transfer-enable. -/
  en : Bool
  /-- The completion flag. -/
  tc : Bool
  /-- The configured source address. -/
  src : Word
  /-- The configured unit count. -/
  cnt : Word
  /-- The buffer-space address of the next unit. -/
  ptr : Word
  /-- The units of the current repeat not yet handed to the link. -/
  rem : Word
  deriving DecidableEq, Repr

/-- The position reached in an operation's pseudocode (10_state.md R28): the waits of
60_exceptions.md R167 and the start. The names are the model's (log 29). -/
inductive Pos where
  /-- Accepted, no statement taken yet. -/
  | start
  /-- `send_data16`: the high byte is with the link; waits for the link. -/
  | highSent
  /-- The last unit of a single-value send is with the link; waits for the link. -/
  | unitSent
  /-- `send_block`: a repeat is running; waits for `ch.tc`. -/
  | waitTc
  /-- `send_block`: every repeat is done; waits for the link. -/
  | drain
  deriving DecidableEq, Repr

/-- The operation in progress and its position (10_state.md R28). -/
structure OpState where
  instr : Instr
  pos : Pos
  deriving DecidableEq, Repr

/-- The three settle delays of 70_reset_and_hazards.md R203: `T_SLEEP_OUT`, `T_GAMMA`, `T_ON`. -/
inductive Settle where
  | sleepOut
  | gamma
  | on
  deriving DecidableEq, Repr

/-- What the host does next (00_scope.md R14, 70_reset_and_hazards.md R207). -/
inductive HostAct where
  /-- Present an operation word on the port (30_encoding.md R64). -/
  | present (w : OpWord)
  /-- Keep the value of `result` (30_encoding.md R73: "the host carries the value"; log 8). -/
  | keepResult
  /-- Present a word whose `N` is the kept value (R73; log 8). -/
  | presentKept (w : OpWord)
  /-- Write one byte of buffer space, anywhere (20_memory.md R46, R53). -/
  | store (a : Word) (b : Byte)
  /-- Read one byte of buffer space, anywhere (R46, R53; log 30). -/
  | load (a : Word)
  /-- Wait at least the settle delay (70_reset_and_hazards.md R203; log 9). -/
  | settle (k : Settle)
  deriving DecidableEq, Repr

/-- `LINK_LIVE` as data (00_scope.md R9, 40_framing_ops.md R83; log 2): the link finishes every unit
it is given, or it finishes `n` more units and then stays busy for ever. -/
inductive LinkPlan where
  | live
  | stopAfter (n : Nat)
  deriving DecidableEq, Repr

/-- The grain of a machine step (log 1). `agent` is the spec's: a step of exactly one agent
(00_scope.md R14, D32). `operation` is the model's composite: the step that presents an operation takes
all its agents' steps too, until it completes or no agent can step. -/
inductive Pace where
  | agent
  | operation
  deriving DecidableEq, Repr

/-- The parameters the spec leaves OPEN and says a model takes as arguments (00_scope.md R9;
logs 6, 10, 11, 15). No step changes them. -/
structure Params where
  /-- `SCRATCH_BASE` (20_memory.md R47). -/
  scratchBase : Word
  /-- `CMD_COLUMN_RANGE` (43_frame_sequences.md R126). -/
  cmdColumnRange : Byte
  /-- `CMD_ROW_RANGE` (R126). -/
  cmdRowRange : Byte
  /-- `CMD_MEMORY_WRITE` (R127). -/
  cmdMemoryWrite : Byte
  /-- `CMD_SLEEP_OUT` (70_reset_and_hazards.md R190). -/
  cmdSleepOut : Byte
  /-- `CMD_POWER_CTRL_k`, an unstated number of them (R190). -/
  cmdPowerCtrl : List Byte
  /-- `CMD_VCOM_CTRL_k`, an unstated number of them (R190). -/
  cmdVcomCtrl : List Byte
  /-- `CMD_MEM_ACCESS_CTRL` (R190). -/
  cmdMemAccessCtrl : Byte
  /-- `CMD_PIXEL_FORMAT` (R190). -/
  cmdPixelFormat : Byte
  /-- `CMD_FRAME_RATE` (R190). -/
  cmdFrameRate : Byte
  /-- `CMD_GAMMA_POS` (R190). -/
  cmdGammaPos : Byte
  /-- `CMD_GAMMA_NEG` (R190). -/
  cmdGammaNeg : Byte
  /-- `CMD_INVERSION_OFF` (R190). -/
  cmdInversionOff : Byte
  /-- `CMD_NORMAL_ON` (R190). -/
  cmdNormalOn : Byte
  /-- `CMD_DISPLAY_ON` (R190). -/
  cmdDisplayOn : Byte
  /-- `RX_WRAP_AT_END` (44_receiver_protocol.md R156). -/
  rxWrapAtEnd : Bool
  /-- The ranges (base, size) of buffer space that are not plain memory (20_memory.md R55, U7). -/
  devices : List (Nat × Nat)
  /-- When the Link takes its step (10_state.md R38): the lengths of the wire trace at which it leaves
  the first step to the Engine (60_exceptions.md R171; log 11). -/
  engineFirst : List Nat
  deriving DecidableEq, Repr

/-- Buffer space (20_memory.md R45): addresses strictly rising, no entry equal to what an unlisted
address reads as (`Memory.wf`). -/
abbrev Memory := List Host.Cell

/-- The reasons a step can fault: NONE. The hardware has no trap and the spec no fault outcome
(60_exceptions.md R163, R166, D28; log 23). No step raises one; safe. -/
inductive Fault where
  deriving DecidableEq, Repr

/-- The reasons a step defines no next state (60_exceptions.md R166). Each is safe: nothing can be
proved about a run past it. -/
inductive Refusal where
  /-- Raised by an arm of `exec` for an operation without a meaning in this model. Safe. -/
  | notModelled (mnemonic : String)
  /-- Raised by the operation port for a word that matches no row (30_encoding.md R69, U1). Safe. -/
  | reservedWord (w : OpWord)
  /-- Raised by `send_block` with `N = 0` and `R >= 1` (41_block_transfer.md R104, U3). Safe. -/
  | zeroCount
  /-- Raised by `send_block` with `R >= 1` and `A + N > 2^32` (20_memory.md R57, U4). Safe. -/
  | pastTop
  /-- Raised by `send_block` with `R >= 1` whose buffer is not plain memory (20_memory.md R55, U7).
  Safe. -/
  | notPlainMemory
  deriving DecidableEq, Repr

/-- The machine. -/
structure State where
  /-- Chip-select: `true` is selected (10_state.md R20). -/
  cs : Bool
  /-- The command/data selector line (R21). -/
  dc : Bit
  /-- The link (R22, R23). -/
  link : Link
  /-- The channel (R24 to R27). -/
  ch : Channel
  /-- `seq.rep`, the repeats not yet finished (R27). -/
  rep : Half
  /-- The operation in progress (R28); none when the operation port is ready. -/
  op : Option OpState
  /-- The `done` pulse: set by the step in which an operation completes (R37; log 5). -/
  done : Bool
  /-- The `result` of the last completed operation (R37; log 5). -/
  result : Word
  /-- Buffer space (R30). -/
  mem : Memory
  /-- The wire trace (R31). -/
  wire : List WireEvent
  /-- The host's actions still to come, the program (R38; log 7). -/
  host : List HostAct
  /-- The result the host keeps (30_encoding.md R73; log 8). -/
  kept : Word
  /-- The byte of buffer space the host last read (20_memory.md R46, R53; log 30). -/
  seen : Byte
  /-- Where the host's program held a settle marker: the length of the trace then, and which delay
  (70_reset_and_hazards.md R203; log 9). -/
  settles : List (Nat × Settle)
  /-- The OPEN parameters (00_scope.md R9; log 6). -/
  params : Params
  /-- Whether the link goes on finishing units (00_scope.md R9; log 2). -/
  linkPlan : LinkPlan
  /-- The grain of a machine step (log 1). -/
  pace : Pace
  deriving DecidableEq, Repr

/-- One instantiation of the OPEN parameters (log 6): SCRATCH_BASE as in 95_test_vectors.md, command
bytes as in 93_implementation_defined.md G3. PRESUMED, and no statement rests on it. -/
def Params.reset : Params where
  scratchBase := 0x20000000
  cmdColumnRange := 0x2A
  cmdRowRange := 0x2B
  cmdMemoryWrite := 0x2C
  cmdSleepOut := 0x11
  cmdPowerCtrl := [0xC0, 0xC1]
  cmdVcomCtrl := [0xC5, 0xC7]
  cmdMemAccessCtrl := 0x36
  cmdPixelFormat := 0x3A
  cmdFrameRate := 0xB1
  cmdGammaPos := 0xE0
  cmdGammaNeg := 0xE1
  cmdInversionOff := 0x20
  cmdNormalOn := 0x13
  cmdDisplayOn := 0x29
  rxWrapAtEnd := false
  devices := []
  engineFirst := []

/-- The machine right after reset (10_state.md R36, 70_reset_and_hazards.md R185). The fields R36
does not fix hold the values of logs 1 to 10 and 30 (DESIGN CHOICE). -/
def State.reset : State where
  cs := false
  dc := 1
  link := { busy := false, shift := 0 }
  ch := { en := false, tc := false, src := 0, cnt := 0, ptr := 0, rem := 0 }
  rep := 0
  op := none
  done := false
  result := 0
  mem := []
  wire := []
  host := []
  kept := 0
  seen := 0
  settles := []
  params := Params.reset
  linkPlan := .live
  pace := .agent

end Sys2Proof.Machine
end

