-- ==== Sys2Proof/Machine/Ops.lean ====
section
/-! DEFINITION. The named operations over memory, lines, link, channel and operation port: the
primitives of 00_scope.md R13, the Link step (40_framing_ops.md R83), the Channel step
(41_block_transfer.md R100), and a presented operation's accept and complete (30_encoding.md R64).
There is no trap entry or return to write: the block has none (60_exceptions.md R172, R173). -/

namespace Sys2Proof.Machine

/-! ### Buffer space (20_memory.md R45) -/

/-- What a byte that nothing has written reads as (10_state.md R36 leaves it unspecified; log 3,
DESIGN CHOICE). -/
def Memory.unlisted : Byte := 0

/-- The canonical form from a lower bound on: addresses strictly rising and inside the space, no
entry equal to what an unlisted address reads as. -/
def Memory.wfFrom : Nat → Memory → Bool
  | _, [] => true
  | low, (a, b) :: rest =>
    decide (low ≤ a) && decide (a < Config.spaceSize) && b != Memory.unlisted
      && Memory.wfFrom (a + 1) rest

/-- The canonical form of buffer space, so that equal memories are equal data. -/
def Memory.wf (m : Memory) : Bool := Memory.wfFrom 0 m

/-- `MemRead(a, 1)` (R13, R45): one byte; no side effect (R55). -/
def Memory.read : Memory → Nat → Byte
  | [], _ => Memory.unlisted
  | (c, d) :: rest, a => if a = c then d else Memory.read rest a

/-- The list with the entry for `a` set to `b`, in address order. -/
def Memory.insert : Memory → Nat → Byte → Memory
  | [], a, b => [(a, b)]
  | (c, d) :: rest, a, b =>
    if a < c then (a, b) :: (c, d) :: rest
    else if a = c then (a, b) :: rest
    else (c, d) :: Memory.insert rest a b

/-- The list without any entry for `a`. -/
def Memory.erase : Memory → Nat → Memory
  | [], _ => []
  | (c, d) :: rest, a => if a = c then Memory.erase rest a else (c, d) :: Memory.erase rest a

/-- `MemWrite(a, 1, v)` (R13, R45): one byte, keeping the canonical form. -/
def Memory.write (m : Memory) (a : Nat) (b : Byte) : Memory :=
  if b = Memory.unlisted then Memory.erase m a else Memory.insert m a b

namespace State

/-! ### Lines and the wire trace -/

/-- `emit(e)`: `wire <- wire ++ [e]` (R13). -/
def emit (e : WireEvent) (s : State) : State := { s with wire := s.wire ++ [e] }

/-- `assert_cs()` (R13): chip-select active, an event only on the change. -/
def assertCs (s : State) : State :=
  if s.cs then s else emit .select { s with cs := true }

/-- `release_cs()` (R13): chip-select released, an event only on the change. -/
def releaseCs (s : State) : State :=
  if s.cs then emit .deselect { s with cs := false } else s

/-- `dc <- d`; a change of `dc` alone is no event (10_state.md R31). -/
def setDc (d : Bit) (s : State) : State := { s with dc := d }

/-! ### Link -/

/-- `link_tx(u)` (R13, 40_framing_ops.md R82): hand a unit to the link. It requires an idle link, which
every call of a run finds (R82). On a busy link, which no run reaches, the spec gives it no meaning, and
that the new unit replaces the one in the shifter is a DESIGN CHOICE (log 31). -/
def linkTx (u : Byte) (s : State) : State := { s with link := { busy := true, shift := u } }

/-- The unit in the shifter has gone out: it is on the wire as the selector line frames it, and the
link is idle (R83). `plan` is what is left of the link's liveness. -/
def linkFinish (plan : LinkPlan) (s : State) : State :=
  emit (.unit s.dc s.link.shift)
    { s with link := { busy := false, shift := s.link.shift }, linkPlan := plan }

/-- The liveness left after one more Link step, none when the link is stuck (log 2). -/
def nextPlan : LinkPlan → Option LinkPlan
  | .live => some .live
  | .stopAfter 0 => none
  | .stopAfter (n + 1) => some (.stopAfter n)

/-- The Link step (R83): enabled iff the link is busy, and taken iff the link is not stuck. -/
def linkStep (s : State) : Option State :=
  if s.link.busy then (nextPlan s.linkPlan).map (fun plan => linkFinish plan s) else none

/-! ### Channel -/

/-- What the Channel step does (41_block_transfer.md R100): read one byte of buffer space, hand it
to the link, advance, and raise the completion flag with the last unit of the repeat. -/
def channelMove (s : State) : State :=
  let u := Memory.read s.mem s.ch.ptr.toNat
  let left := s.ch.rem - 1
  let t := linkTx u s
  { t with ch := { s.ch with ptr := s.ch.ptr + 1, rem := left,
                             tc := if left = 0 then true else s.ch.tc } }

/-- The Channel step (R100): enabled iff transfer is enabled, units are left and the link is idle. -/
def channelStep (s : State) : Option State :=
  if s.ch.en = true ∧ s.ch.rem ≠ 0 ∧ s.link.busy = false then some (channelMove s) else none

/-! ### Operation port and positions -/

/-- The Engine has reached position `p` of operation `i` (10_state.md R28). -/
def setOp (i : Instr) (p : Pos) (s : State) : State := { s with op := some { instr := i, pos := p } }

/-- A word is accepted: `op <- (d, start)` (30_encoding.md R64). The `done` pulse is over. -/
def accept (i : Instr) (s : State) : State :=
  { s with op := some { instr := i, pos := .start }, done := false }

/-- `complete(v)`: `op <- none`, `done` pulses with `result = v` (R13, R64). -/
def complete (v : Word) (s : State) : State := { s with op := none, done := true, result := v }

/-- The `done` pulse lasts until the next machine step (10_state.md R37; log 5). -/
def endPulse (s : State) : State := { s with done := false }

/-- `wait_until(not link.busy)` and what follows it (R13): on an idle link the Engine goes on at
once; on a busy one the Link step lifts the wait, and where the link is stuck the operation stays
here for ever (60_exceptions.md R167). -/
def awaitLink (k : State → State) (s : State) : State :=
  if s.link.busy then
    match linkStep s with
    | some t => k t
    | none => s
  else k s

/-- A presented operation: while another is in progress the port is not ready and the host waits
(R64; log 22); else the operation is accepted and runs until it completes or hangs. -/
def perform (i : Instr) (body : State → State) (s : State) :
    Host.Outcome State Fault Refusal :=
  match s.op with
  | some _ => .next s
  | none => .next (body (accept i s))

end State

end Sys2Proof.Machine
end

