-- ==== Sys2Proof/WellFormed.lean ====
section
/-! DEFINITION. The operand values the spec defines (30_encoding.md R70, 41_block_transfer.md R98).
Every operand of every other operation is defined at every value of its field. -/

namespace Sys2Proof

/-- The operands of a `send_block` that R98 defines: any `a` and `n` when `r = 0` (R103); else at
least one unit (R104) and no run past the top of buffer space (20_memory.md R57). -/
def blockDefined (a n : Word) (r : Half) : Bool :=
  r == 0 || (n != 0 && decide (a.toNat + n.toNat ≤ Config.spaceSize))

/-- An instruction whose operand values the spec defines (R70). -/
def Instr.wf : Instr → Bool
  | .select => true
  | .deselect => true
  | .sendCommand _ => true
  | .sendData8 _ => true
  | .sendData16 _ => true
  | .sendBlock a n r => blockDefined a n r
  | .fillSpan _ _ => true

end Sys2Proof
end

