-- ==== Sys2Proof/Machine/Operands.lean ====
section
/-! DEFINITION. Operand values and effective addresses: the two addressing modes of the block
(41_block_transfer.md R108, 42_fill_engine.md R117), the clamp (R118), the reserved operand values
(30_encoding.md R70), and the colour arithmetic the spec fixes (R115, R116). -/

namespace Sys2Proof.Machine

/-- The effective address of unit `i` of a block, base plus index (R108). -/
def blockAddr (a : Word) (i : Nat) : Nat := (a + BitVec.ofNat 32 i).toNat

/-- The address of scratch byte `off` (20_memory.md R47). -/
def scratchAddr (p : Params) (off : Nat) : Nat := (p.scratchBase + BitVec.ofNat 32 off).toNat

/-- `m = min(n, SCRATCH_CAP / 2)`: the colour pairs `fill_span` writes (R117, R118). -/
def fillCount (n : Word) : Nat := min n.toNat (Config.scratchCap / 2)

/-- `filled_bytes = 2 * m` (R117). -/
def filledBytes (n : Word) : Word := BitVec.ofNat 32 (2 * fillCount n)

/-- The ranges `[a, a + n)` and `[base, base + size)` share an address. -/
def overlaps (a n base size : Nat) : Bool :=
  decide (a < base + size) && decide (base < a + n) && decide (0 < n) && decide (0 < size)

/-- Some address of `[a, a + n)` is not plain memory (20_memory.md R55; log 10). -/
def Params.touchesDevice (p : Params) (a n : Nat) : Bool :=
  p.devices.any (fun d => overlaps a n d.1 d.2)

/-- Why a model refuses a `send_block` (R70): none for `r = 0` (R103); a zero count (R104); a range
past the top (20_memory.md R57); a range that is not plain memory (20_memory.md R55). -/
def blockRefusal (p : Params) (a n : Word) (r : Half) : Option Refusal :=
  if r = 0 then none
  else if n = 0 then some .zeroCount
  else if Config.spaceSize < a.toNat + n.toNat then some .pastTop
  else if p.touchesDevice a.toNat n.toNat then some .notPlainMemory
  else none

/-- Why a model refuses an operation for its operand values: only `send_block` has reserved ones
(R70: "Every other combination of operand values is defined"). -/
def operandRefusal (p : Params) : Instr → Option Refusal
  | .select => none
  | .deselect => none
  | .sendCommand _ => none
  | .sendData8 _ => none
  | .sendData16 _ => none
  | .sendBlock a n r => blockRefusal p a n r
  | .fillSpan _ _ => none

/-! ### Colours (host arithmetic the spec fixes) -/

/-- `pack(r, g, b)` (R116): `((r & 0xF8) << 8) | ((g & 0xFC) << 3) | (b >> 3)`. -/
def pack (r g b : Byte) : Half :=
  ((r &&& 0xF8).setWidth 16 <<< 8) ||| ((g &&& 0xFC).setWidth 16 <<< 3) ||| (b >>> 3).setWidth 16

/-- Red of a colour, bits 15:11 (R115). -/
def red (c : Half) : BitVec 5 := c.extractLsb' 11 5
/-- Green of a colour, bits 10:5 (R115). -/
def green (c : Half) : BitVec 6 := c.extractLsb' 5 6
/-- Blue of a colour, bits 4:0 (R115). -/
def blue (c : Half) : BitVec 5 := c.extractLsb' 0 5

/-- The truncating unpack of 95_test_vectors.md S1. -/
def unpack (c : Half) : Byte × Byte × Byte :=
  ((c >>> 8).setWidth 8 &&& 0xF8, (c >>> 3).setWidth 8 &&& 0xFC, (c <<< 3).setWidth 8 &&& 0xF8)

/-- The named colours of R123: the arithmetic is the document's, the names are PRESUMED (log 27). -/
def colourRed : Half := pack 255 0 0
def colourGreen : Half := pack 0 255 0
def colourBlue : Half := pack 0 0 255
def colourBlack : Half := pack 0 0 0
def colourWhite : Half := pack 255 255 255

end Sys2Proof.Machine
end

