-- ==== Sys2Proof/Machine/Block.lean ====
section
/-! DEFINITION. The block transfer `send_block` and its repeat sequencer (41_block_transfer.md R98 to
R108). -/

namespace Sys2Proof.Machine

/-- The statements of R99 before its loop: lines driven (R106), channel configured, repeats loaded. -/
def blockSetup (a n : Word) (r : Half) (s : State) : State :=
  let t := State.assertCs (State.setDc 1 s)
  { t with ch := { t.ch with src := a, cnt := n }, rep := r }

/-- The start of a repeat (R99): reload `ch.ptr` and `ch.rem`, transfer-enable on; then the Engine
waits for `ch.tc`. -/
def startRepeat (i : Instr) (s : State) : State :=
  State.setOp i .waitTc
    { s with ch := { s.ch with ptr := s.ch.src, rem := s.ch.cnt, en := true } }

/-- The end of a repeat (R99): transfer-enable off, completion flag clear, one repeat fewer. -/
def endRepeat (s : State) : State :=
  { s with ch := { s.ch with en := false, tc := false }, rep := s.rep - 1 }

/-- After the loop (R99): the channel is disabled; the Engine waits for the link. -/
def leaveLoop (i : Instr) (s : State) : State :=
  State.setOp i .drain { s with ch := { s.ch with en := false } }

/-- `n` Channel steps (R100), each when the link is idle, then `k`. -/
def streamUnits : Nat → (State → State) → State → State
  | 0, k, s => k s
  | n + 1, k, s => State.awaitLink (fun t => streamUnits n k (State.channelMove t)) s

/-- The loop of R99: `r` repeats of `n` units, then the final wait on the link and completion. -/
def runRepeats (i : Instr) (n : Nat) : Nat → State → State
  | 0, s => State.awaitLink (State.complete 0) (leaveLoop i s)
  | r + 1, s => streamUnits n (fun t => runRepeats i n r (endRepeat t)) (startRepeat i s)

/-- `send_block A, N, R` (R99), for the operands R98 defines; a model refuses the others (R104,
20_memory.md R55, R57) once the port would take the word. -/
def execSendBlock (a n : Word) (r : Half) (s : State) : Host.Outcome State Fault Refusal :=
  match s.op, blockRefusal s.params a n r with
  | none, some why => .refused why
  | _, _ =>
    State.perform (.sendBlock a n r)
      (fun t => runRepeats (.sendBlock a n r) n.toNat r.toNat (blockSetup a n r t)) s

end Sys2Proof.Machine
end

