-- ==== Sys2Proof/Machine/Fill.lean ====
section
/-! DEFINITION. The fill engine (42_fill_engine.md R117 to R121). -/

namespace Sys2Proof.Machine

/-- Colour pair `i` of the scratch buffer (R117): the high byte at the even offset, then the low. -/
def writePair (p : Params) (c : Half) (i : Nat) (m : Memory) : Memory :=
  Memory.write (Memory.write m (scratchAddr p (2 * i)) (hi c)) (scratchAddr p (2 * i + 1)) (lo c)

/-- The first `m` pairs, in ascending order (R117, D16). -/
def fillPairs (p : Params) (c : Half) : Nat → Memory → Memory
  | 0, m => m
  | i + 1, m => writePair p c i (fillPairs p c i m)

/-- `fill_span c, n` (R117): the clamped number of pairs, then `complete(2 * m)`. -/
def fillBody (c : Half) (n : Word) (s : State) : State :=
  State.complete (filledBytes n) { s with mem := fillPairs s.params c (fillCount n) s.mem }

/-- `fill_span c, n` (R117). -/
def execFillSpan (c : Half) (n : Word) (s : State) : Host.Outcome State Fault Refusal :=
  State.perform (.fillSpan c n) (fillBody c n) s

end Sys2Proof.Machine
end

