-- ==== Sys2Proof/Machine/Framing.lean ====
section
/-! DEFINITION. The chip-select operations and the single-unit sends (40_framing_ops.md R86 to R90). -/

namespace Sys2Proof.Machine

/-- `select` (R86): `assert_cs(); complete(0)`. -/
def selectBody (s : State) : State := State.complete 0 (State.assertCs s)

/-- `deselect` (R87): `release_cs(); complete(0)`. -/
def deselectBody (s : State) : State := State.complete 0 (State.releaseCs s)

/-- The statements of a send up to its first wait (R88, R89, R90): drive the selector line, assert
chip-select, hand the unit over, and stand at position `p`. -/
def sendUnit (i : Instr) (p : Pos) (d : Bit) (u : Byte) (s : State) : State :=
  State.setOp i p (State.linkTx u (State.assertCs (State.setDc d s)))

/-- `send_data16` after its first wait (R90): the low byte. -/
def sendLow (w : Half) (s : State) : State :=
  State.setOp (.sendData16 w) .unitSent (State.linkTx (lo w) s)

/-- `select` (R86). -/
def execSelect (s : State) : Host.Outcome State Fault Refusal :=
  State.perform .select selectBody s

/-- `deselect` (R87). -/
def execDeselect (s : State) : Host.Outcome State Fault Refusal :=
  State.perform .deselect deselectBody s

/-- `send_command b` (R88). -/
def execSendCommand (b : Byte) (s : State) : Host.Outcome State Fault Refusal :=
  State.perform (.sendCommand b)
    (fun t => State.awaitLink (State.complete 0) (sendUnit (.sendCommand b) .unitSent 0 b t)) s

/-- `send_data8 b` (R89). -/
def execSendData8 (b : Byte) (s : State) : Host.Outcome State Fault Refusal :=
  State.perform (.sendData8 b)
    (fun t => State.awaitLink (State.complete 0) (sendUnit (.sendData8 b) .unitSent 1 b t)) s

/-- `send_data16 w` (R90): two units, high byte first; no native 16-bit transfer (R91). -/
def execSendData16 (w : Half) (s : State) : Host.Outcome State Fault Refusal :=
  State.perform (.sendData16 w)
    (fun t =>
      State.awaitLink (fun u => State.awaitLink (State.complete 0) (sendLow w u))
        (sendUnit (.sendData16 w) .highSent 1 (hi w) t)) s

end Sys2Proof.Machine
end

