-- ==== Sys2Proof/Machine/Agents.lean ====
section
/-! DEFINITION. The Engine step, and one step of one agent while an operation is in progress
(00_scope.md R14, D32): the statements between two waits are one Engine step (D32). The Link and Channel
steps are in `Machine/Ops.lean`. -/

namespace Sys2Proof.Machine

/-- The head of the loop of 41_block_transfer.md R99: another repeat, or out of the loop and, on an
idle link, complete. -/
def blockNext (i : Instr) (s : State) : State :=
  if s.rep = 0 then
    let t := leaveLoop i s
    if t.link.busy then t else State.complete 0 t
  else startRepeat i s

/-- The Engine's statements from the start of an operation to its first wait, or to its end. -/
def engineStart (i : Instr) (s : State) : State :=
  match i with
  | .select => selectBody s
  | .deselect => deselectBody s
  | .sendCommand b => sendUnit i .unitSent 0 b s
  | .sendData8 b => sendUnit i .unitSent 1 b s
  | .sendData16 w => sendUnit i .highSent 1 (hi w) s
  | .sendBlock a n r => blockNext i (blockSetup a n r s)
  | .fillSpan c n => fillBody c n s

/-- The Engine's next step from the position it stands at, none while its `wait_until` is not
satisfied (60_exceptions.md R166). At a position that is not the operation's own, which no run reaches and
the spec does not define, the step is a DESIGN CHOICE (log 29): none at `highSent`, else what the position
does in the operation that has it. -/
def engineFrom (i : Instr) (p : Pos) (s : State) : Option State :=
  match p with
  | .start => some (engineStart i s)
  | .highSent =>
    match i with
    | .sendData16 w => if s.link.busy then none else some (sendLow w s)
    | _ => none
  | .unitSent => if s.link.busy then none else some (State.complete 0 s)
  | .waitTc => if s.ch.tc then some (blockNext i (endRepeat s)) else none
  | .drain => if s.link.busy then none else some (State.complete 0 s)

namespace State

/-- The Engine step (R14): none when no operation is in progress or its wait holds. -/
def engineStep (s : State) : Option State :=
  match s.op with
  | none => none
  | some o => engineFrom o.instr o.pos s

/-- The parameters have the Engine go before the Link at this length of the wire trace (log 11). -/
def engineGoesFirst (s : State) : Bool := s.params.engineFirst.contains s.wire.length

/-- One step of one agent of the block, none when no agent can step. Where the Link and the Engine
are both enabled the parameters say which goes first (10_state.md R38; log 11); they commute
(60_exceptions.md R171). -/
def agentStep (s : State) : Option State :=
  if engineGoesFirst s then (engineStep s).orElse fun _ => (linkStep s).orElse fun _ => channelStep s
  else (linkStep s).orElse fun _ => (engineStep s).orElse fun _ => channelStep s

end State

end Sys2Proof.Machine
end

