-- ==== Sys2Proof/Machine/Dispatch.lean ====
section
/-! DEFINITION. One arm per constructor of `Instr`: the host's presenting that operation to the port,
and the block's running it (30_encoding.md R64, R66). -/

namespace Sys2Proof.Machine

def exec (i : Instr) (s : State) : Host.Outcome State Fault Refusal :=
  match i with
  | .select => Sys2Proof.Machine.execSelect s
  | .deselect => Sys2Proof.Machine.execDeselect s
  | .sendCommand b => Sys2Proof.Machine.execSendCommand b s
  | .sendData8 b => Sys2Proof.Machine.execSendData8 b s
  | .sendData16 w => Sys2Proof.Machine.execSendData16 w s
  | .sendBlock a n r => Sys2Proof.Machine.execSendBlock a n r s
  | .fillSpan c n => Sys2Proof.Machine.execFillSpan c n s

end Sys2Proof.Machine
end

