-- ==== Sys2Proof/Machine/HostPort.lean ====
section
/-! DEFINITION. The Host's steps (00_scope.md R14): presenting an operation word to the port
(30_encoding.md R64), writing and reading buffer space (20_memory.md R53), carrying a result (R73), and waiting a
settle delay (70_reset_and_hazards.md R203). Each is taken only while `op = none`. -/

namespace Sys2Proof.Machine

/-- An accepted instruction at the machine's pace (log 1): the acceptance alone, after which the agents
step one at a time (00_scope.md R14), or its whole operation in this step. A reserved operand is
refused at both paces (30_encoding.md R70). -/
def runInstr (i : Instr) (s : State) : Host.Outcome State Fault Refusal :=
  match s.pace with
  | .operation => exec i s
  | .agent =>
    match operandRefusal s.params i with
    | some why => .refused why
    | none => .next (State.accept i s)

/-- `accept(word)` (R64): a reserved word is refused (R69). -/
def presentWord (w : OpWord) (s : State) : Host.Outcome State Fault Refusal :=
  match decode w with
  | none => .refused (.reservedWord w)
  | some i => runInstr i s

/-- A host store, anywhere in buffer space (20_memory.md R46, R53). -/
def hostStore (a : Word) (b : Byte) (s : State) : State :=
  { s with mem := Memory.write s.mem a.toNat b }

/-- A host read, anywhere in buffer space (20_memory.md R46, R53); it changes no memory (R55). -/
def hostLoad (a : Word) (s : State) : State := { s with seen := Memory.read s.mem a.toNat }

/-- One host action (R14, R207). -/
def hostStep (act : HostAct) (s : State) : Host.Outcome State Fault Refusal :=
  match act with
  | .present w => presentWord w s
  | .keepResult => .next { s with kept := s.result }
  | .presentKept w => presentWord (withN w s.kept) s
  | .store a b => .next (hostStore a b s)
  | .load a => .next (hostLoad a s)
  | .settle k => .next { s with settles := s.settles ++ [(s.wire.length, k)] }

/-- The machine while no operation is in progress: the host's next action, or nothing (R207: any gap
between operations may be arbitrarily long). -/
def idleStep (s : State) : Host.Outcome State Fault Refusal :=
  match s.host with
  | [] => .next (State.endPulse s)
  | act :: rest => hostStep act (State.endPulse { s with host := rest })

/-- The machine while an operation is in progress: the host waits; one agent of the block steps, or,
where none can, the operation hangs (60_exceptions.md R167). -/
def busyStep (s : State) : State :=
  match State.agentStep (State.endPulse s) with
  | some t => t
  | none => State.endPulse s

/-- The host's next action becomes presenting `w`. -/
def State.presentNext (w : OpWord) (s : State) : State := { s with host := .present w :: s.host }

end Sys2Proof.Machine
end

