-- ==== Sys2Proof/Machine/Step.lean ====
section
/-! DEFINITION. One step of the machine (00_scope.md R14; log 1): the host while the operation port is ready,
the block's agents while an operation is in progress (30_encoding.md R64). -/

namespace Sys2Proof.Machine

/-- One machine step. It never faults (60_exceptions.md R166). -/
def step (s : State) : Host.Outcome State Fault Refusal :=
  match s.op with
  | none => idleStep s
  | some _ => .next (busyStep s)

/-- `s` with the host about to present the word whose bits are `w` (`nbits` of them, the rest zero), at
the pace at which an idle machine's next step takes exactly that operation, whole (logs 1, 7). -/
def State.withFetchWord (s : State) (nbits w : Nat) : State :=
  { s.presentNext (BitVec.ofNat 128 (w % 2 ^ nbits)) with pace := .operation }

end Sys2Proof.Machine
end

