-- ==== Sys2Proof/Machine/Flags.lean ====
section
/-! DEFINITION. The flags as the ports show them: `STATUS` (10_state.md R29) and the outputs of R37
that are functions of the state. The block has no condition codes (R32). -/

namespace Sys2Proof.Machine

/-- A flag as a bit. -/
def flagBit (b : Bool) : Bit := if b then 1 else 0

namespace State

/-- `STATUS` (R29): bits 0 to 5 are `OP_ACTIVE`, `LINK_BUSY`, `CH_EN`, `TC`, `CS`, `DC`; bits 7:6
read as 0. Read-only, no side effect. -/
def status (s : State) : Byte :=
  (0 : BitVec 2) ++ s.dc ++ flagBit s.cs ++ flagBit s.ch.tc ++ flagBit s.ch.en
    ++ flagBit s.link.busy ++ flagBit s.op.isSome

/-- The `op_ready` port: 1 iff `op = none` (R37). -/
def opReady (s : State) : Bit := flagBit s.op.isNone

/-- The `cs_n` pin: low iff `cs` (R37; the polarity is PRESUMED, log 20). -/
def csN (s : State) : Bit := flagBit (!s.cs)

/-- The word the host presents on the operation port (30_encoding.md R64), none where it presents
none. While `op` is not none the host cannot present; it waits. -/
def presented (s : State) : Option OpWord :=
  match s.op, s.host with
  | none, .present w :: _ => some w
  | none, .presentKept w :: _ => some (withN w s.kept)
  | _, _ => none

/-- The `op_valid` port: the host presents a word (R37). -/
def opValid (s : State) : Bit := flagBit s.presented.isSome

/-- The `op_word` port: the word the host presents (R37). What it holds while `op_valid` is 0 is open;
0 is a DESIGN CHOICE (log 22). -/
def opWord (s : State) : OpWord := s.presented.getD 0

end State

end Sys2Proof.Machine
end

