-- ==== Sys2Proof/Machine/Frames.lean ====
section
/-! DEFINITION. What the documented callers put on the operation port: the pseudo operations and the
frames (43_frame_sequences.md R125 to R137) and the initialisation sequence
(70_reset_and_hazards.md R190), as lists of host actions. Coordinates are `u16` and wrap (R129);
nothing is range-checked (R126, R200). -/

namespace Sys2Proof.Machine

/-- Presenting an operation (30_encoding.md R64). -/
def present (i : Instr) : HostAct := .present (encode i)

/-- `set_window x0, y0, x1, y1` (30_encoding.md R74, R126): the words go out as x0, x1, y0, y1. -/
def setWindow (p : Params) (x0 y0 x1 y1 : Half) : List Instr :=
  [ .sendCommand p.cmdColumnRange, .sendData16 x0, .sendData16 x1,
    .sendCommand p.cmdRowRange, .sendData16 y0, .sendData16 y1 ]

/-- `begin_memory_write` (R127). -/
def beginMemoryWrite (p : Params) : List Instr := [ .sendCommand p.cmdMemoryWrite ]

/-- The far corner of a span that starts at `x` and is `w` long: `x + w - 1`, in `u16` (R129). -/
def farCorner (x w : Half) : Half := x + w - 1

/-- The head of every pixel-producing frame: select, the window, begin memory write (R125, R128). -/
def openFrame (p : Params) (x0 y0 x1 y1 : Half) : List HostAct :=
  ([Instr.select] ++ setWindow p x0 y0 x1 y1 ++ beginMemoryWrite p).map present

/-- `draw_pixel(x, y, color)` (R130). -/
def drawPixel (p : Params) (x y c : Half) : List HostAct :=
  openFrame p x y x y ++ [present (.sendData16 c), present .deselect]

/-- `fill_rect(x, y, w, h, color)` (R131); the host carries `result` to the block's `N` (R73). -/
def fillRect (p : Params) (x y w h c : Half) : List HostAct :=
  [present (.fillSpan c (w.setWidth 32)), .keepResult]
    ++ openFrame p x y (farCorner x w) (farCorner y h)
    ++ [.presentKept (encode (.sendBlock p.scratchBase 0 h)), present .deselect]

/-- `draw_fast_h_line(x, y, length, color)` (R132). -/
def drawFastHLine (p : Params) (x y len c : Half) : List HostAct :=
  [present (.fillSpan c (len.setWidth 32)), .keepResult]
    ++ openFrame p x y (farCorner x len) y
    ++ [.presentKept (encode (.sendBlock p.scratchBase 0 1)), present .deselect]

/-- `draw_fast_v_line(x, y, length, color)` (R133). -/
def drawFastVLine (p : Params) (x y len c : Half) : List HostAct :=
  [present (.fillSpan c 1), .keepResult]
    ++ openFrame p x y x (farCorner y len)
    ++ [.presentKept (encode (.sendBlock p.scratchBase 0 len)), present .deselect]

/-- `draw_rect` (R134): two fast h-lines (top, bottom) and two fast v-lines (left, right). How the
corner overlap is removed is not in the source (N16), so the first row and the length of the left and
of the right line are arguments, each line's its own (log 26). The order of the four frames is R134's
order of naming them (log 26). -/
def drawRect (p : Params) (x y w h c leftY leftLen rightY rightLen : Half) : List HostAct :=
  drawFastHLine p x y w c ++ drawFastHLine p x (farCorner y h) w c
    ++ drawFastVLine p x leftY leftLen c ++ drawFastVLine p (farCorner x w) rightY rightLen c

/-- `2*w*h` in 32 bits (R135; 41_block_transfer.md R113). -/
def bitmapBytes (w h : Half) : Word := 2 * w.setWidth 32 * h.setWidth 32

/-- `draw_bitmap(x, y, w, h, pixels)` (R135): one block of the caller's buffer. -/
def drawBitmap (p : Params) (x y w h : Half) (pixels : Word) : List HostAct :=
  openFrame p x y (farCorner x w) (farCorner y h)
    ++ [present (.sendBlock pixels (bitmapBytes w h) 1), present .deselect]

/-- The host's own stores of colour pairs from scratch pair `i` on, row-major (R136, 20_memory.md
R48, R50). -/
def storePairs (p : Params) : Nat → List Half → List HostAct
  | _, [] => []
  | i, c :: cs =>
    [ HostAct.store (p.scratchBase + BitVec.ofNat 32 (2 * i)) (hi c),
      HostAct.store (p.scratchBase + BitVec.ofNat 32 (2 * i + 1)) (lo c) ] ++ storePairs p (i + 1) cs

/-- `print_char` (R136): the unpacked glyph `glyph`, `gw * gh` pairs row-major, whose bits are not in
the source (N17; log 26), is stored, and `2 * gw * gh` bytes are sent as one block
(41_block_transfer.md R113): no more than it stored (70_reset_and_hazards.md R196). -/
def printChar (p : Params) (cx cy gw gh : Half) (glyph : Vector Half (gw.toNat * gh.toNat)) :
    List HostAct :=
  storePairs p 0 glyph.toList
    ++ openFrame p cx cy (farCorner cx gw) (farCorner cy gh)
    ++ [ present (.sendBlock p.scratchBase (bitmapBytes gw gh) 1),
         present .deselect ]

/-- A per-pixel caller (R137): one `draw_pixel` frame per pixel, in the rasteriser's order. -/
def drawPixels (p : Params) (c : Half) (pixels : List (Half × Half)) : List HostAct :=
  pixels.flatMap (fun q => drawPixel p q.1 q.2 c)

/-! ### Initialisation (70_reset_and_hazards.md R188 to R190) -/

/-- "P" of R190: one or more parameter bytes. -/
structure ParamBytes where
  first : Byte
  more : List Byte
  deriving DecidableEq, Repr

/-- The bytes of "P" in order. -/
def ParamBytes.bytes (b : ParamBytes) : List Byte := b.first :: b.more

/-- Whether the host puts `select` before a step and `deselect` after it. R190 does not describe the
bracket, and R191 leaves it to the host (log 26). -/
structure Bracket where
  opens : Bool
  closes : Bool
  deriving DecidableEq, Repr

/-- The actions of a step inside its bracket. -/
def Bracket.around (b : Bracket) (acts : List HostAct) : List HostAct :=
  (if b.opens then [present .select] else []) ++ acts ++ (if b.closes then [present .deselect] else [])

/-- What R190 leaves open: the parameter bytes "P", the addresses of the two gamma tables (N5, N6), and
how the host brackets each of the eleven steps (log 26). -/
structure InitData (p : Params) where
  brackets : Vector Bracket 11
  /-- The parameter bytes of each power-control command. -/
  power : Vector ParamBytes p.cmdPowerCtrl.length
  /-- The parameter bytes of each VCOM-control command. -/
  vcom : Vector ParamBytes p.cmdVcomCtrl.length
  /-- `MADCTL_VALUE`. -/
  madctl : Byte
  /-- `PIXFMT_16BPP`. -/
  pixelFormat : Byte
  frameRate : ParamBytes
  /-- `gamma_pos`, `gamma_neg`: addresses of two 16-byte tables. -/
  gammaPos : Word
  gammaNeg : Word
  deriving DecidableEq, Repr

/-- A command and its parameter bytes, each by `send_data8` (R190). -/
def commandWith (c : Byte) (ps : List Byte) : List HostAct :=
  present (.sendCommand c) :: ps.map (fun b => present (.sendData8 b))

/-- A gamma step (R190 steps 7 and 8): the command, the 16-byte table as one block, the delay. -/
def gammaStep (c : Byte) (table : Word) : List HostAct :=
  [present (.sendCommand c), present (.sendBlock table 16 1), .settle .gamma]

/-- Each command with its own parameter bytes (R190 steps 2 and 3). -/
def commandsWith (cs : List Byte) (ps : Vector ParamBytes cs.length) : List HostAct :=
  (cs.zip ps.toList).flatMap (fun q => commandWith q.1 q.2.bytes)

/-- The steps of the initialisation sequence (R190), 1 to 11 in the document's order. -/
def initSteps (p : Params) (d : InitData p) : List (List HostAct) :=
  [ [present (.sendCommand p.cmdSleepOut), .settle .sleepOut],
    commandsWith p.cmdPowerCtrl d.power,
    commandsWith p.cmdVcomCtrl d.vcom,
    commandWith p.cmdMemAccessCtrl [d.madctl],
    commandWith p.cmdPixelFormat [d.pixelFormat],
    commandWith p.cmdFrameRate d.frameRate.bytes,
    gammaStep p.cmdGammaPos d.gammaPos,
    gammaStep p.cmdGammaNeg d.gammaNeg,
    [present (.sendCommand p.cmdInversionOff)],
    [present (.sendCommand p.cmdNormalOn), .settle .on],
    [present (.sendCommand p.cmdDisplayOn), .settle .on] ]

/-- The initialisation sequence (R190), each step inside the bracket the host gives it (log 26). -/
def initialisation (p : Params) (d : InitData p) : List HostAct :=
  (List.zipWith Bracket.around d.brackets.toList (initSteps p d)).flatten

end Sys2Proof.Machine
end

