-- ==== Sys2Proof/Machine/Receiver.lean ====
section
/-! DEFINITION. The receiver (44_receiver_protocol.md): environment, a fold over the wire trace (R147)
from `Rx.reset` (R162), with the host's settle markers at their places in the trace (R159, log 9).
A trace the spec's receiver model does not answer ends the fold with the reason; the wire trace
itself stays fully defined (R166, U10). -/

namespace Sys2Proof.Machine

/-- The receiver's two states (R148). -/
inductive RxMode where
  | idle
  | streaming
  deriving DecidableEq, Repr

/-- Why the receiver model says nothing further about `rx` (R166; safe: nothing can be proved of it). -/
inductive RxStop where
  /-- A command unit arrived with half a pixel received (R158, U10). -/
  | halfPixel
  /-- A data unit in `Idle` with no command pending (R153, U10). -/
  | noCommand
  /-- A fifth or later parameter of a range command (R153, U10). -/
  | extraParameter
  /-- A parameter of a command the model does not carry (R153, U10). -/
  | unknownParameter
  /-- Chip-select released mid-pixel or in the middle of a command's parameters (R160, U13; log 16). -/
  | releasedMidItem
  /-- An event before the settle delay it had to wait for (R159, U12; log 17). -/
  | tooSoon
  deriving DecidableEq, Repr

/-- The receiver's state (10_state.md R34); the last four fields are the model's own. -/
structure Rx where
  mode : RxMode
  /-- The last command unit. -/
  cmd : Option Byte
  /-- The data units since `cmd` while not streaming. -/
  params : List Byte
  /-- The high byte of a pixel whose low byte has not arrived. -/
  half : Option Byte
  x0 : Half
  x1 : Half
  y0 : Half
  y1 : Half
  /-- Where the next streamed pixel lands. -/
  col : Half
  row : Half
  /-- The pixels written since generation `gen` began, by `row * RX_WIDTH + col`, rising. -/
  gram : List (Nat × Half)
  /-- How often the frame memory has become unspecified (R156, R157; logs 14, 15). -/
  gen : Nat
  /-- The window's last pixel has been written (R156; log 15). -/
  past : Bool
  /-- A settle delay that the host has not observed yet (R159; log 17). -/
  owed : Option Settle
  /-- Chip-select has been released since the last command unit (R160; log 16). -/
  released : Bool
  deriving DecidableEq, Repr

/-- `rx_reset` (R162): what R34 calls unspecified is a free value of Config (log 13). -/
def Rx.reset : Rx where
  mode := .idle
  cmd := none
  params := []
  half := none
  x0 := Config.rxRegAtReset 0
  x1 := Config.rxRegAtReset 1
  y0 := Config.rxRegAtReset 2
  y1 := Config.rxRegAtReset 3
  col := Config.rxRegAtReset 4
  row := Config.rxRegAtReset 5
  gram := []
  gen := 0
  past := false
  owed := none
  released := false

/-- The initialisation commands (70_reset_and_hazards.md R190), whose parameters the model accepts
and ignores (R153, R154). -/
def Params.initCommands (p : Params) : List Byte :=
  [p.cmdSleepOut] ++ p.cmdPowerCtrl ++ p.cmdVcomCtrl
    ++ [p.cmdMemAccessCtrl, p.cmdPixelFormat, p.cmdFrameRate, p.cmdGammaPos, p.cmdGammaNeg,
        p.cmdInversionOff, p.cmdNormalOn, p.cmdDisplayOn]

/-- Every command code, required pairwise distinct (R149, D25). -/
def Params.allCommands (p : Params) : List Byte :=
  [p.cmdColumnRange, p.cmdRowRange, p.cmdMemoryWrite] ++ p.initCommands

/-- A gamma command (70_reset_and_hazards.md R190 steps 7 and 8). -/
def Params.isGamma (p : Params) (c : Byte) : Bool := c == p.cmdGammaPos || c == p.cmdGammaNeg

/-- The bytes of a gamma table (R190). -/
def gammaLength : Nat := 16

/-- The settle delay that command `c` asks for once its `n`-th parameter has arrived
(70_reset_and_hazards.md R203; log 17): after the command itself, or after a gamma table. -/
def Params.settleAfter (p : Params) (c : Byte) (n : Nat) : Option Settle :=
  if p.isGamma c then if n = gammaLength then some .gamma else none
  else if n ≠ 0 then none
  else if c = p.cmdSleepOut then some .sleepOut
  else if c = p.cmdNormalOn ∨ c = p.cmdDisplayOn then some .on
  else none

/-- `c` is one of the two range commands (R150, R151). -/
def Params.isRange (p : Params) (c : Byte) : Bool := c == p.cmdColumnRange || c == p.cmdRowRange

/-- The parameters command `c` has at least: four for a range command (R150, R151), 16 for a gamma
command, one for each command that 70_reset_and_hazards.md R190 gives a byte or "P" (log 16). -/
def Params.leastParams (p : Params) (c : Byte) : Nat :=
  if p.isRange c then 4
  else if p.isGamma c then gammaLength
  else if (p.cmdPowerCtrl ++ p.cmdVcomCtrl ++ [p.cmdMemAccessCtrl, p.cmdPixelFormat, p.cmdFrameRate]).contains c
  then 1
  else 0

/-- The window lies inside the frame (R157). -/
def Rx.windowOk (rx : Rx) : Bool :=
  decide (rx.x0 ≤ rx.x1) && decide (rx.x1.toNat < Config.rxWidth)
    && decide (rx.y0 ≤ rx.y1) && decide (rx.y1.toNat < Config.rxHeight)

/-- The frame-memory key of a position. -/
def pixelKey (col row : Nat) : Nat := row * Config.rxWidth + col

/-- The list with the entry for `k` set to `v`, keys rising. -/
def gramInsert : List (Nat × Half) → Nat → Half → List (Nat × Half)
  | [], k, v => [(k, v)]
  | (c, d) :: rest, k, v =>
    if k < c then (k, v) :: (c, d) :: rest
    else if k = c then (k, v) :: rest
    else (c, d) :: gramInsert rest k v

/-- The entry for `k`, if there is one. -/
def gramFind : List (Nat × Half) → Nat → Option Half
  | [], _ => none
  | (c, d) :: rest, k => if k = c then some d else gramFind rest k

/-- `rx.gram[col, row]` (R34), for `col < RX_WIDTH`, `row < RX_HEIGHT`: the pixel written there, or
the free value of log 13 and log 14. -/
def Rx.pixel (rx : Rx) (col row : Nat) : Half :=
  (gramFind rx.gram (pixelKey col row)).getD (Config.rxPixel rx.gen col row)

/-- The whole frame memory is unspecified from now on (R156, R157, U9, U11; logs 14, 15). -/
def Rx.freeGram (rx : Rx) : Rx := { rx with gram := [], gen := rx.gen + 1 }

/-- `rx.gram[rx.col, rx.row] <- v` (R155), under a window and at a position inside the frame (R157). -/
def Rx.putPixel (v : Half) (rx : Rx) : Rx :=
  if rx.windowOk && decide (rx.col.toNat < Config.rxWidth) && decide (rx.row.toNat < Config.rxHeight)
  then { rx with gram := gramInsert rx.gram (pixelKey rx.col.toNat rx.row.toNat) v }
  else rx.freeGram

/-- The pointer after a pixel (R155): at the last column back to the first, one row down; after the
window's last pixel `RX_WRAP_AT_END` decides (R156, U11; log 15): back to the window's first position,
or past its end. -/
def Rx.advance (p : Params) (rx : Rx) : Rx :=
  if rx.col = rx.x1 then
    if rx.row = rx.y1 then
      if p.rxWrapAtEnd then { rx with col := rx.x0, row := rx.y0 }
      else { rx with col := rx.x0, row := rx.row + 1, past := true }
    else { rx with col := rx.x0, row := rx.row + 1 }
  else { rx with col := rx.col + 1 }

/-- One whole pixel (R155); past the end of the window the frame memory is unspecified from now on
(R156, U11; log 15). -/
def rxPixelIn (p : Params) (v : Half) (rx : Rx) : Rx :=
  if rx.past then rx.freeGram else Rx.advance p (Rx.putPixel v rx)

/-- `Unit(1, b)` while streaming (R155): two data units make one pixel, high byte first. -/
def rxStream (p : Params) (b : Byte) (rx : Rx) : Except RxStop Rx :=
  match rx.half with
  | none => .ok { rx with half := some b }
  | some h => .ok (rxPixelIn p (h ++ b) { rx with half := none })

/-- The window after a range command's parameters (R150, R151): set when the fourth arrives. -/
def rxRange (p : Params) (c : Byte) (rx : Rx) : Rx :=
  match rx.params with
  | [p0, p1, p2, p3] =>
    if c = p.cmdColumnRange then { rx with x0 := p0 ++ p1, x1 := p2 ++ p3 }
    else { rx with y0 := p0 ++ p1, y1 := p2 ++ p3 }
  | _ => rx

/-- `Unit(1, b)` in `Idle` (R153): a parameter of `rx.cmd`. If chip-select was released after the command,
this parameter shows that the release stood in the middle of the command's parameters (R160, U13; log 16). -/
def rxParam (p : Params) (b : Byte) (rx : Rx) : Except RxStop Rx :=
  match rx.cmd with
  | none => .error .noCommand
  | some c =>
    if p.isRange c then
      if 4 ≤ rx.params.length then .error .extraParameter
      else .ok (rxRange p c { rx with params := rx.params ++ [b] })
    else if p.initCommands.contains c then
      if rx.released then .error .releasedMidItem else
      let ps := rx.params ++ [b]
      .ok { rx with params := ps, owed := p.settleAfter c ps.length }
    else .error .unknownParameter

/-- Streaming begins at the window's first position (R152). Under a window that is not inside the frame
the frame memory is unspecified from here on, whether or not a pixel follows (R157, U9; log 14). -/
def Rx.beginStream (rx : Rx) : Rx :=
  let t : Rx := { rx with mode := .streaming, col := rx.x0, row := rx.y0, past := false }
  if rx.windowOk then t else t.freeGram

/-- `Unit(0, c)` (R149, R152). -/
def rxCommand (p : Params) (c : Byte) (rx : Rx) : Except RxStop Rx :=
  if rx.half.isSome then .error .halfPixel
  else
    let t : Rx := { rx with mode := .idle, cmd := some c, params := [], half := none,
                            owed := p.settleAfter c 0, released := false }
    .ok (if c = p.cmdMemoryWrite then t.beginStream else t)

/-- In the middle of a pixel, or of a command's parameters as far as the trace shows yet (R160, U13;
log 16). -/
def Rx.midItem (p : Params) (rx : Rx) : Bool :=
  rx.half.isSome ||
    match rx.mode, rx.cmd with
    | .idle, some c => decide (rx.params.length < p.leastParams c)
    | _, _ => false

/-- Chip-select released (R160): no effect on the state of 10_state.md R34, but not in the middle of an item;
the model remembers it (log 16). -/
def rxRelease (p : Params) (rx : Rx) : Except RxStop Rx :=
  if rx.midItem p then .error .releasedMidItem else .ok { rx with released := true }

/-- `rx_step` (R147): one event of the wire trace. While a settle delay is owed every event comes too
soon (R159; 70_reset_and_hazards.md R203: the host waits "before it presents the next operation"). -/
def rxStep (p : Params) (rx : Rx) (e : WireEvent) : Except RxStop Rx :=
  if rx.owed.isSome then .error .tooSoon
  else
    match e with
    | .select => .ok rx
    | .deselect => rxRelease p rx
    | .unit d b =>
      if d = 0 then rxCommand p b rx
      else
        match rx.mode with
        | .idle => rxParam p b rx
        | .streaming => rxStream p b rx

/-- The host waited the settle delay `k` (70_reset_and_hazards.md R203): it is no longer owed. -/
def rxSettle (k : Settle) (rx : Rx) : Rx := if rx.owed = some k then { rx with owed := none } else rx

/-- The settle markers that stand before event number `i`. -/
def rxSettles (ds : List (Nat × Settle)) (i : Nat) (rx : Rx) : Rx :=
  ds.foldl (fun t d => if d.1 = i then rxSettle d.2 t else t) rx

/-- `fold(rx_step, rx, wire)` (R147) from event number `i` on, with the settle markers `ds`. -/
def rxFold (p : Params) (ds : List (Nat × Settle)) : Nat → Rx → List WireEvent → Except RxStop Rx
  | i, rx, [] => .ok (rxSettles ds i rx)
  | i, rx, e :: es =>
    match rxStep p (rxSettles ds i rx) e with
    | .ok t => rxFold p ds (i + 1) t es
    | .error why => .error why

/-- The receiver's state (R147): a function of the wire trace, from `rx_reset`. -/
def State.rx (s : State) : Except RxStop Rx := rxFold s.params s.settles 0 Rx.reset s.wire

end Sys2Proof.Machine
end

