-- ==== Sys2Proof/Safety.lean ====
section
/-! DEFINITION. What counts as a good state, and the premises a claim takes: the resting invariant
(10_state.md R35), the framing of the wire trace (40_framing_ops.md R93), the position invariant of an
operation in progress, and the constraints on the OPEN parameters (00_scope.md R9, D25). -/

namespace Sys2Proof.Machine

/-- The link finishes every unit it is given, `LINK_LIVE` (00_scope.md R9). -/
abbrev State.Live (s : State) : Prop := s.linkPlan = .live

/-- What 10_state.md R35 says of the link, the channel and the sequencer whenever `op = none`. -/
abbrev State.Resting (s : State) : Prop :=
  s.link.busy = false ∧ s.ch.en = false ∧ s.ch.tc = false ∧ s.ch.rem = 0 ∧ s.rep = 0

/-- The operation port is ready and the block rests (R35, R37). -/
abbrev State.Ready (s : State) : Prop := s.op = none ∧ s.Resting

/-- The channel and the sequencer rest; the link may be busy. -/
abbrev State.Quiet (s : State) : Prop :=
  s.ch.en = false ∧ s.ch.tc = false ∧ s.ch.rem = 0 ∧ s.rep = 0

/-- Chip-select after a trace that starts at `cs`, none where an event does not fit: `Select` only
from released, `Deselect` only from selected, a unit only while selected (40_framing_ops.md R93). -/
def selectedAfter : Bool → List WireEvent → Option Bool
  | cs, [] => some cs
  | cs, .select :: es => if cs then none else selectedAfter true es
  | cs, .deselect :: es => if cs then selectedAfter false es else none
  | cs, .unit _ _ :: es => if cs then selectedAfter true es else none

/-- The wire trace frames every unit, and `cs` is the level it ends at (R31, R93). -/
def State.Framed (s : State) : Prop := selectedAfter false s.wire = some s.cs

/-- What holds while `send_block a, n, r` runs a repeat (41_block_transfer.md R99, R100). -/
abbrev State.Streaming (a n : Word) (r : Half) (s : State) : Prop :=
  blockRefusal s.params a n r = none ∧ s.ch.en = true ∧ s.ch.src = a ∧ s.ch.cnt = n
    ∧ s.rep ≠ 0 ∧ s.rep ≤ r ∧ s.ch.rem ≤ n ∧ s.ch.ptr = a + (n - s.ch.rem)
    ∧ (s.ch.tc = true ↔ s.ch.rem = 0)

/-- What holds at position `p` of operation `i` (10_state.md R28): no other position occurs. -/
def State.AtPosition (i : Instr) (p : Pos) (s : State) : Prop :=
  match p with
  | .start => s.Resting ∧ operandRefusal s.params i = none
  | .highSent =>
    match i with
    | .sendData16 _ => s.Quiet ∧ s.cs = true ∧ s.dc = 1
    | _ => False
  | .unitSent =>
    match i with
    | .sendCommand _ => s.Quiet ∧ s.cs = true ∧ s.dc = 0
    | .sendData8 _ => s.Quiet ∧ s.cs = true ∧ s.dc = 1
    | .sendData16 _ => s.Quiet ∧ s.cs = true ∧ s.dc = 1
    | _ => False
  | .waitTc =>
    match i with
    | .sendBlock a n r => s.Streaming a n r ∧ s.cs = true ∧ s.dc = 1
    | _ => False
  | .drain =>
    match i with
    | .sendBlock _ _ _ => s.Quiet ∧ s.cs = true ∧ s.dc = 1
    | _ => False

/-- The block rests when the port is ready (R35), and stands where its operation's pseudocode puts it
otherwise. -/
def State.OpInv (s : State) : Prop :=
  match s.op with
  | none => s.Resting
  | some o => s.AtPosition o.instr o.pos

/-- Every settle marker stands at a place of the wire trace (70_reset_and_hazards.md R203). -/
abbrev State.MarkersPlaced (s : State) : Prop := ∀ d ∈ s.settles, d.1 ≤ s.wire.length

/-- The invariant of the machine: canonical memory, a framed trace, a placed operation, placed
settle markers. -/
structure State.Inv (s : State) : Prop where
  memory : Memory.wf s.mem = true
  framed : s.Framed
  placed : s.OpInv
  markers : s.MarkersPlaced

/-- The constraints on the OPEN parameters: the scratch region does not wrap (20_memory.md R47) and
is plain memory, and the command codes are pairwise distinct (44_receiver_protocol.md R149, D25). -/
structure Params.Ok (p : Params) : Prop where
  scratchFits : p.scratchBase.toNat + Config.scratchCap ≤ Config.spaceSize
  scratchPlain : p.touchesDevice p.scratchBase.toNat Config.scratchCap = false
  distinct : p.allCommands.Nodup

/-- Address `x` lies in the scratch region (20_memory.md R47). -/
abbrev Params.inScratch (p : Params) (x : Nat) : Prop :=
  p.scratchBase.toNat ≤ x ∧ x < p.scratchBase.toNat + Config.scratchCap

/-- `Select` if chip-select was released, nothing otherwise: `S?` of 40_framing_ops.md R92. -/
def selectMark (cs : Bool) : List WireEvent := if cs then [] else [.select]

/-- The data units of the bytes of `[a, a + n)` in ascending order (41_block_transfer.md R101). -/
def blockUnits (m : Memory) (a : Word) (n : Nat) : List WireEvent :=
  (List.range n).map (fun i => WireEvent.unit 1 (Memory.read m (blockAddr a i)))

/-- `r` copies of a sequence (R101). -/
def copies (r : Nat) (es : List WireEvent) : List WireEvent := (List.replicate r es).flatten

/-- `k` machine steps of the machine from `s`. -/
abbrev run (k : Nat) (s : State) : Host.Outcome State Fault Refusal := Host.Core.run core k s

/-- The host about to take the actions `acts`, whatever it held to come (10_state.md R38). -/
def State.program (acts : List HostAct) (s : State) : State := { s with host := acts }

/-- A run is over: the host has nothing more to present and the last operation has completed
(70_reset_and_hazards.md R206). -/
abbrev State.Over (s : State) : Prop := s.host = [] ∧ s.op = none

/-- No agent of the block can step although an operation is in progress: a hang
(60_exceptions.md R166, R167). -/
abbrev State.Hung (s : State) : Prop := s.op.isSome = true ∧ State.agentStep s = none

/-- The units of `set_window` (43_frame_sequences.md R126). -/
def windowUnits (p : Params) (x0 y0 x1 y1 : Half) : List WireEvent :=
  [ .unit 0 p.cmdColumnRange, .unit 1 (hi x0), .unit 1 (lo x0), .unit 1 (hi x1), .unit 1 (lo x1),
    .unit 0 p.cmdRowRange, .unit 1 (hi y0), .unit 1 (lo y0), .unit 1 (hi y1), .unit 1 (lo y1) ]

/-- `k` colour pairs as data units, high byte first (20_memory.md R50). -/
def pairUnits (c : Half) (k : Nat) : List WireEvent := copies k [.unit 1 (hi c), .unit 1 (lo c)]

/-- The launch premises of a claim about a frame (70_reset_and_hazards.md R208): the block rests with
its port ready, the link is live, and the machine is at the pace of whole operations, which reaches what
the pace of single agents reaches (`Obligations.AgentStepsReachExec`; log 1). -/
abbrev State.CanRun (s : State) : Prop := s.Ready ∧ s.Live ∧ s.pace = .operation

/-- The receiver stands between two items: no half pixel, no settle delay owed (44_receiver_protocol.md
R158, R159). -/
abbrev Rx.Clear (rx : Rx) : Prop := rx.half = none ∧ rx.owed = none

end Sys2Proof.Machine
end

