-- ==== Sys2Proof/Certificates/Slice0/Obligations.lean ====
section
/-! DEFINITION. The statements for the provers: what the rules of spec/ say the operations, the agents,
the operation port, the documented frames and the receiver do. Each docstring names its rules. -/

open Sys2Proof Sys2Proof.Machine

/-! ### Encoding (30_encoding.md) -/

/-- R65 to R68, R72: the decoder reads back every instruction, every operand at every value. -/
def Obligations.DecodeInvertsEncode : Prop :=
  ∀ i : Instr, decode (encode i) = some i

/-- R67, R69: no word has two readings; what decodes is the encoding of what it decodes to. -/
def Obligations.EncodeInvertsDecode : Prop :=
  ∀ (w : OpWord) (i : Instr), decode w = some i → encode i = w

/-- R67: a word is the operation of a row iff `w & mask = match`, and each operation's operands are
the fields R67 says it uses. -/
def Obligations.DecodeFollowsMatchAndMask : Prop :=
  (∀ row ∈ opcodeTable, ∀ w : OpWord,
      row.accepts w = true ↔ (decode w).map Instr.mnemonic = some row.mnemonic)
    ∧ ∀ (w : OpWord) (i : Instr), decode w = some i →
      match i with
      | .select => True
      | .deselect => True
      | .sendCommand b => b = lo (fieldV w)
      | .sendData8 b => b = lo (fieldV w)
      | .sendData16 v => v = fieldV w
      | .sendBlock a n r => a = fieldA w ∧ n = fieldN w ∧ r = fieldR w
      | .fillSpan c n => c = fieldV w ∧ n = fieldN w

/-- R69: a word that matches no row of R67 is reserved and the machine refuses it, whether the host holds
the word or carries a result into its `N` (the carrying is the model's form of R73, log 8); every word
whose `OPC` is `0x0` or `0x8` to `0xF`, or whose `Z0` or `Z1` is not zero, is one. -/
def Obligations.ReservedWordsAreRefused : Prop :=
  (∀ (w : OpWord), (fieldOpc w = 0 ∨ 8 ≤ fieldOpc w ∨ fieldZ0 w ≠ 0 ∨ fieldZ1 w ≠ 0) →
      ∀ row ∈ opcodeTable, row.accepts w = false)
    ∧ ∀ (s : State) (w : OpWord) (rest : List HostAct),
      s.op = none →
      (s.host = .present w :: rest ∨ ∃ v, s.host = .presentKept v :: rest ∧ withN v s.kept = w) →
      (∀ row ∈ opcodeTable, row.accepts w = false) →
      step s = .refused (.reservedWord w)

/-- 95_test_vectors.md V2: words written out from the encoding of each operation. -/
def Obligations.SpecWordsDecode : Prop :=
  decode (ofLanes 0x10000000 0 0 0) = some .select
    ∧ decode (ofLanes 0x20000000 0 0 0) = some .deselect
    ∧ decode (ofLanes 0x3000002C 0 0 0) = some (.sendCommand 0x2C)
    ∧ decode (ofLanes 0x40000055 0 0 0) = some (.sendData8 0x55)
    ∧ decode (ofLanes 0x5000013F 0 0 0) = some (.sendData16 0x013F)
    ∧ decode (ofLanes 0x60000000 0x00025800 0x00000001 0x20010000)
        = some (.sendBlock 0x20010000 153600 1)
    ∧ decode (ofLanes 0x7000F800 0x00000003 0 0) = some (.fillSpan 0xF800 3)
    ∧ decode (ofLanes 0x10010000 0 0 0) = none
    ∧ decode (ofLanes 0x60000000 0x00000004 0x00010001 0x20000000) = none

/-! ### The operation port and the step (30_encoding.md R64) -/

/-- The machine's step runs the decoded operation: with the port ready and a word presented that
decodes to `i`, held by the host or made by carrying a result into its `N`, the step at pace
`operation` is `exec i` on the state whose host has moved on and whose `done` pulse is over; so is, at
either pace, the step after `withFetchWord`. That a machine step takes a whole operation, when the pulse
ends, and how a result is carried, is the model's choice (logs 1, 5, 7, 8). -/
def Obligations.StepRunsTheDecodedOperation : Prop :=
  ∀ (s : State) (w : OpWord) (i : Instr), s.op = none → decode w = some i →
    (s.pace = .operation → ∀ rest,
        (s.host = .present w :: rest ∨ ∃ v, s.host = .presentKept v :: rest ∧ withN v s.kept = w) →
        step s = exec i { s with host := rest, done := false })
      ∧ step (s.withFetchWord 128 w.toNat) = exec i { s with done := false, pace := .operation }

/-- At pace `agent` the same step is the acceptance alone, `op <- (d, start)` (R64), and a reserved
operand is refused just as `exec` refuses it (R70); the word may be one that a carried result completes
(log 8). That there is a second pace, when the `done` pulse ends and that the host's list moves on is the
model's choice (logs 1, 5, 7). -/
def Obligations.StepAcceptsAtAgentPace : Prop :=
  ∀ (s : State) (w : OpWord) (rest : List HostAct) (i : Instr),
    s.op = none → s.pace = .agent →
    (s.host = .present w :: rest ∨ ∃ v, s.host = .presentKept v :: rest ∧ withN v s.kept = w) →
    decode w = some i →
    (operandRefusal s.params i = none →
        step s = .next { s with host := rest, done := false,
                                op := some { instr := i, pos := .start } })
      ∧ ∀ why, operandRefusal s.params i = some why →
          step s = .refused why ∧ exec i { s with host := rest, done := false } = .refused why

/-- R64, R37: while an operation is in progress the port is not ready and the host presents no word; it
waits: no step takes a host action, and no operation is taken. That a presented operation waits, as a next state of `exec`, is
the model's choice (log 22). -/
def Obligations.HostWaitsWhileBusy : Prop :=
  ∀ (s : State), s.op.isSome = true →
    s.opReady = 0 ∧ s.opValid = 0 ∧ (∀ i, exec i s = .next s)
      ∧ ∃ t, step s = .next t ∧ t.host = s.host ∧ t.kept = s.kept ∧ t.seen = s.seen
        ∧ t.settles = s.settles

/-! ### The framing operations (40_framing_ops.md) -/

/-- R86: the word of `select`, and its effect: it completes with result 0, chip-select active, an event
only on the change; the selector line, the link and the channel are untouched. -/
def Obligations.SelectCompletes : Prop :=
  encode .select = ofLanes 0x10000000 0 0 0
    ∧ ∀ (s : State), s.op = none →
      exec .select s = .next { s with
        cs := true, wire := s.wire ++ selectMark s.cs, done := true, result := 0 }

/-- R87: the word of `deselect`, and its effect: it completes with result 0, chip-select released, an
event only on the change; the selector line keeps its level. -/
def Obligations.DeselectCompletes : Prop :=
  encode .deselect = ofLanes 0x20000000 0 0 0
    ∧ ∀ (s : State), s.op = none →
      exec .deselect s = .next { s with
        cs := false, wire := s.wire ++ (if s.cs then [.deselect] else []),
        done := true, result := 0 }

/-- R88: the word of `send_command b`; its effect under `LINK_LIVE`; and where the Link step never
comes, the operation stays at its wait with the unit in the shifter (a stuck link as data and a hang as
a next state at a named position are the model's, logs 2, 29; so is what a send does on a link already
busy, where no run presents one, log 31). -/
def Obligations.SendCommandCompletes : Prop :=
  ∀ (s : State) (b : Byte), s.op = none →
    encode (.sendCommand b) = ofLanes (0x30000000 ||| b.setWidth 32) 0 0 0
      ∧ (s.Live → exec (.sendCommand b) s = .next { s with
          dc := 0, cs := true, link := { busy := false, shift := b },
          wire := s.wire ++ selectMark s.cs ++ [.unit 0 b], done := true, result := 0 })
      ∧ ∀ u : State, u = { s with
          dc := 0, cs := true, link := { busy := true, shift := b },
          wire := s.wire ++ selectMark s.cs, done := false,
          op := some { instr := .sendCommand b, pos := .unitSent } } →
        State.linkStep u = none → exec (.sendCommand b) s = .next u

/-- R89: the word of `send_data8 b`; its effect under `LINK_LIVE`; and the hang where the Link step
never comes (a stuck link as data and a hang as a next state are the model's, logs 2, 29; so is what a
send does on a link already busy, log 31). -/
def Obligations.SendDataByteCompletes : Prop :=
  ∀ (s : State) (b : Byte), s.op = none →
    encode (.sendData8 b) = ofLanes (0x40000000 ||| b.setWidth 32) 0 0 0
      ∧ (s.Live → exec (.sendData8 b) s = .next { s with
          dc := 1, cs := true, link := { busy := false, shift := b },
          wire := s.wire ++ selectMark s.cs ++ [.unit 1 b], done := true, result := 0 })
      ∧ ∀ u : State, u = { s with
          dc := 1, cs := true, link := { busy := true, shift := b },
          wire := s.wire ++ selectMark s.cs, done := false,
          op := some { instr := .sendData8 b, pos := .unitSent } } →
        State.linkStep u = none → exec (.sendData8 b) s = .next u

/-- R90: the word of `send_data16 w`; its effect under `LINK_LIVE`, two units, high byte first; and the
hang where the Link step of the first or of the second unit never comes (a stuck link as data and a
hang as a next state are the model's, logs 2, 29; so is what a send does on a link already busy,
log 31). -/
def Obligations.SendDataWordCompletes : Prop :=
  ∀ (s : State) (w : Half), s.op = none →
    encode (.sendData16 w) = ofLanes (0x50000000 ||| w.setWidth 32) 0 0 0
      ∧ (s.Live → exec (.sendData16 w) s = .next { s with
          dc := 1, cs := true, link := { busy := false, shift := lo w },
          wire := s.wire ++ selectMark s.cs ++ [.unit 1 (hi w), .unit 1 (lo w)],
          done := true, result := 0 })
      ∧ ∀ u : State, u = { s with
          dc := 1, cs := true, link := { busy := true, shift := hi w },
          wire := s.wire ++ selectMark s.cs, done := false,
          op := some { instr := .sendData16 w, pos := .highSent } } →
        (State.linkStep u = none → exec (.sendData16 w) s = .next u)
          ∧ ∀ v z : State, State.linkStep u = some v →
            z = { v with link := { busy := true, shift := lo w },
                         op := some { instr := .sendData16 w, pos := .unitSent } } →
            State.linkStep z = none → exec (.sendData16 w) s = .next z

/-- V4: `send_data16 w` leaves the machine as `send_data8 hi(w)` followed by `send_data8 lo(w)`;
also on a link already busy, where no run presents a send and both are the model's choice (log 31). -/
def Obligations.SendDataWordIsTwoBytes : Prop :=
  ∀ (s : State) (w : Half), s.op = none → s.Live →
    ∃ u t, exec (.sendData8 (hi w)) s = .next u ∧ exec (.sendData8 (lo w)) u = .next t
      ∧ exec (.sendData16 w) s = .next t

/-- The frame of the five framing operations, whether they complete, hang or wait (R92): memory, the
channel, the repeat counter, the host and the parameters are unchanged; `select` and `deselect`
change neither the selector line nor the link. Hang and wait as states are logs 2 and 22. -/
def Obligations.FramingOperationsFrame : Prop :=
  ∀ (i : Instr) (s t : State),
    (i = .select ∨ i = .deselect ∨ (∃ b, i = .sendCommand b) ∨ (∃ b, i = .sendData8 b)
      ∨ ∃ w, i = .sendData16 w) →
    exec i s = .next t →
    (∀ x, Memory.read t.mem x = Memory.read s.mem x) ∧ t.mem = s.mem ∧ t.ch = s.ch ∧ t.rep = s.rep
      ∧ t.host = s.host ∧ t.kept = s.kept ∧ t.seen = s.seen ∧ t.settles = s.settles
      ∧ t.params = s.params ∧ t.pace = s.pace
      ∧ (i = .select ∨ i = .deselect →
          t.dc = s.dc ∧ t.link = s.link ∧ t.linkPlan = s.linkPlan)

/-! ### The block transfer (41_block_transfer.md) -/

/-- R101, R102: `send_block A, N, R` with defined operands, from a resting block, under `LINK_LIVE`:
the exact trace and end state. -/
def Obligations.SendBlockCompletes : Prop :=
  ∀ (s : State) (a n : Word) (r : Half), s.Ready → s.Live →
    blockRefusal s.params a n r = none →
    exec (.sendBlock a n r) s = .next { s with
      dc := 1, cs := true,
      wire := s.wire ++ selectMark s.cs ++ copies r.toNat (blockUnits s.mem a n.toNat),
      link := { busy := false,
                shift := if r = 0 then s.link.shift else Memory.read s.mem (a + n - 1).toNat },
      ch := { en := false, tc := false, src := a, cnt := n,
              ptr := if r = 0 then s.ch.ptr else a + n, rem := 0 },
      rep := 0, done := true, result := 0 }

/-- R103: `R = 0` sends nothing whatever `A` and `N` are, on a live or a stuck link: lines driven,
`ch.src` and `ch.cnt` written, `ch.ptr` and `ch.rem` as they were. -/
def Obligations.SendBlockZeroRepeats : Prop :=
  ∀ (s : State) (a n : Word), s.Ready →
    exec (.sendBlock a n 0) s = .next { s with
      dc := 1, cs := true, wire := s.wire ++ selectMark s.cs,
      ch := { s.ch with src := a, cnt := n }, rep := 0, done := true, result := 0 }

/-- R98, R104, and 20_memory.md R55 and R57: with `R >= 1`, `N = 0` and a range past the top of
buffer space are refused, and a range that is not plain memory; every other `send_block` is taken.
Which addresses are not plain memory is the model's parameter (log 10). -/
def Obligations.SendBlockReservedOperands : Prop :=
  ∀ (s : State) (a n : Word) (r : Half), s.op = none →
    (r ≠ 0 → n = 0 → exec (.sendBlock a n r) s = .refused .zeroCount)
      ∧ (r ≠ 0 → n ≠ 0 → 2 ^ 32 < a.toNat + n.toNat →
          exec (.sendBlock a n r) s = .refused .pastTop)
      ∧ (r ≠ 0 → n ≠ 0 → a.toNat + n.toNat ≤ 2 ^ 32 →
          s.params.touchesDevice a.toNat n.toNat = true →
          exec (.sendBlock a n r) s = .refused .notPlainMemory)
      ∧ ((r = 0 ∨ n ≠ 0 ∧ a.toNat + n.toNat ≤ 2 ^ 32
            ∧ s.params.touchesDevice a.toNat n.toNat = false) →
          ∃ t, exec (.sendBlock a n r) s = .next t)

/-- The frame of `send_block`, whether it completes, hangs or waits (R101: "It writes no memory"):
memory, the host and the parameters are unchanged; an operation that has not completed has left
`result` alone (log 5) and does not pulse `done` (60_exceptions.md R167). Hang and wait as states are the
model's (logs 2, 22). -/
def Obligations.SendBlockFrame : Prop :=
  ∀ (s t : State) (a n : Word) (r : Half), exec (.sendBlock a n r) s = .next t →
    (∀ x, Memory.read t.mem x = Memory.read s.mem x) ∧ t.mem = s.mem ∧ t.host = s.host
      ∧ t.kept = s.kept ∧ t.seen = s.seen ∧ t.settles = s.settles ∧ t.params = s.params
      ∧ t.pace = s.pace
      ∧ (s.op = none → t.op.isSome = true → t.result = s.result ∧ t.done = false)

/-- R101: sending a buffer `r1` times and then `r2` times leaves the machine as sending it `r1 + r2`
times does. -/
def Obligations.SendBlockRepeatsAdd : Prop :=
  ∀ (s : State) (a n : Word) (r1 r2 : Half), s.Ready → s.Live →
    r1.toNat + r2.toNat < 2 ^ 16 → blockRefusal s.params a n (r1 + r2) = none →
    ∃ u t, exec (.sendBlock a n r1) s = .next u ∧ exec (.sendBlock a n r2) u = .next t
      ∧ exec (.sendBlock a n (r1 + r2)) s = .next t

/-! ### The fill engine (42_fill_engine.md) -/

/-- R117, R119: the word of `fill_span c, n`, and its effect: it completes with
`filled_bytes = 2 * min(n, 320)`; every colour pair up to there holds the high byte, then the low;
every other byte reads as before. It waits on nothing. -/
def Obligations.FillSpanCompletes : Prop :=
  ∀ (s : State) (c : Half) (n : Word), s.op = none →
    encode (.fillSpan c n) = ofLanes (0x70000000 ||| c.setWidth 32) n 0 0
      ∧ ∃ t, exec (.fillSpan c n) s = .next t ∧ t.op = none ∧ t.done = true
        ∧ t.result.toNat = 2 * min n.toNat 320
        ∧ (∀ i, i < min n.toNat 320 →
            Memory.read t.mem (scratchAddr s.params (2 * i)) = hi c
              ∧ Memory.read t.mem (scratchAddr s.params (2 * i + 1)) = lo c)
        ∧ ∀ x, (∀ off, off < 2 * min n.toNat 320 → x ≠ scratchAddr s.params off) →
            Memory.read t.mem x = Memory.read s.mem x

/-- R118: any count above 320, however large, clamps: the operation is `fill_span c, 320`, which
writes 320 pairs and returns 640; no byte outside the scratch region is written. -/
def Obligations.FillSpanClamps : Prop :=
  ∀ (s : State) (c : Half) (n : Word), s.op = none → 320 < n.toNat →
    exec (.fillSpan c n) s = exec (.fillSpan c 320) s
      ∧ ∃ t, exec (.fillSpan c n) s = .next t ∧ t.result = 640
        ∧ (∀ i, i < 320 → Memory.read t.mem (scratchAddr s.params (2 * i)) = hi c
            ∧ Memory.read t.mem (scratchAddr s.params (2 * i + 1)) = lo c)
        ∧ (s.params.scratchBase.toNat + 640 ≤ 2 ^ 32 → ∀ x, ¬ s.params.inScratch x →
            Memory.read t.mem x = Memory.read s.mem x)

/-- R120, R121: `fill_span` changes nothing but the first `2 * min(n, 320)` scratch bytes and
the completion; where the scratch region does not wrap it writes only inside it. -/
def Obligations.FillSpanFrame : Prop :=
  ∀ (s t : State) (c : Half) (n : Word), exec (.fillSpan c n) s = .next t →
    (∀ x, (∀ off, off < 2 * min n.toNat 320 → x ≠ scratchAddr s.params off) →
        Memory.read t.mem x = Memory.read s.mem x)
      ∧ (s.params.scratchBase.toNat + 640 ≤ 2 ^ 32 → ∀ x, ¬ s.params.inScratch x →
          Memory.read t.mem x = Memory.read s.mem x)
      ∧ { t with mem := s.mem, done := s.done, result := s.result } = s

/-- R122 and 20_memory.md R47: no address of the fill wraps, and no two scratch bytes share one. -/
def Obligations.ScratchAddressesDoNotWrap : Prop :=
  ∀ (p : Params), p.scratchBase.toNat + 640 ≤ 2 ^ 32 →
    (∀ off, off < 640 → scratchAddr p off = p.scratchBase.toNat + off ∧ p.inScratch (scratchAddr p off))
      ∧ ∀ off1 off2, off1 < 640 → off2 < 640 → scratchAddr p off1 = scratchAddr p off2 → off1 = off2

/-- R115, R116 and S1: `pack` masks and shifts exactly as the formula, and the truncating unpack
loses at most 7, 3 and 7. -/
def Obligations.PackKeepsTheHighBits : Prop :=
  ∀ (r g b : Byte),
    red (pack r g b) = r.extractLsb' 3 5 ∧ green (pack r g b) = g.extractLsb' 2 6
      ∧ blue (pack r g b) = b.extractLsb' 3 5
      ∧ r.toNat - (unpack (pack r g b)).1.toNat = r.toNat % 8
      ∧ g.toNat - (unpack (pack r g b)).2.1.toNat = g.toNat % 4
      ∧ b.toNat - (unpack (pack r g b)).2.2.toNat = b.toNat % 8

/-! ### Memory (20_memory.md) -/

/-- R46, R48: the block writes buffer space only in `fill_span`, and there only the scratch region,
whether an operation is run whole (log 1) or one agent steps; nothing but `fill_span` and a host store
writes memory at all. -/
def Obligations.BlockWritesOnlyScratch : Prop :=
  (∀ (i : Instr) (s t : State), exec i s = .next t →
    ((∀ c n, i ≠ .fillSpan c n) → t.mem = s.mem)
      ∧ (s.params.scratchBase.toNat + 640 ≤ 2 ^ 32 →
          ∀ x, ¬ s.params.inScratch x → Memory.read t.mem x = Memory.read s.mem x))
    ∧ ∀ (s t : State), step s = .next t →
      (s.op = none → ∀ a b rest, s.host ≠ .store a b :: rest) →
      (s.params.scratchBase.toNat + 640 ≤ 2 ^ 32 →
          ∀ x, ¬ s.params.inScratch x → Memory.read t.mem x = Memory.read s.mem x)
        ∧ ((∀ o, s.op = some o → ∀ c n, o.instr ≠ .fillSpan c n) →
            (∀ w, s.presented = some w → ∀ c n, decode w ≠ some (.fillSpan c n)) →
            t.mem = s.mem)

/-- R46, R53, R59, R73, R203: what each of the host's own actions does while the port is ready. A store
is seen at its address and nowhere else; a read shows the byte and changes no memory; `keepResult` keeps
the result; a settle marker records its place; with nothing left to do only the `done` pulse ends. The
host's actions as data and the places they leave their values are the model's (logs 5, 7, 8, 9, 30). -/
def Obligations.HostActionsTakeEffect : Prop :=
  ∀ (s : State) (rest : List HostAct), s.op = none →
    (∀ a b, s.host = .store a b :: rest →
        ∃ t, step s = .next t ∧ t.host = rest ∧ t.done = false ∧ Memory.read t.mem a.toNat = b
          ∧ (∀ x, x ≠ a.toNat → Memory.read t.mem x = Memory.read s.mem x)
          ∧ { t with mem := s.mem, host := s.host, done := s.done } = s)
      ∧ (∀ a, s.host = .load a :: rest →
          step s = .next { s with host := rest, done := false, seen := Memory.read s.mem a.toNat })
      ∧ (s.host = .keepResult :: rest →
          step s = .next { s with host := rest, done := false, kept := s.result })
      ∧ (∀ k, s.host = .settle k :: rest →
          step s = .next { s with host := rest, done := false,
                                  settles := s.settles ++ [(s.wire.length, k)] })
      ∧ (s.host = [] → step s = .next { s with done := false })

/-! ### Hang and liveness (60_exceptions.md) -/

/-- R167, R102: under `LINK_LIVE` no operation hangs: from a resting block every operation with
defined operands completes, with the result R64 gives it, and leaves the block resting. -/
def Obligations.LiveOperationsComplete : Prop :=
  ∀ (i : Instr) (s : State), s.Ready → s.Live → operandRefusal s.params i = none →
    ∃ t, exec i s = .next t ∧ t.Ready ∧ t.Live ∧ t.done = true
      ∧ t.result = (match i with
          | .fillSpan _ n => filledBytes n
          | _ => 0)

/-- R167: an operation that has not completed waits on the link and on nothing else, and no agent
can step: it hangs. A stuck link as data is the model's choice (log 2). -/
def Obligations.HangsOnlyOnAStuckLink : Prop :=
  ∀ (i : Instr) (s t : State), s.Ready → exec i s = .next t → t.op ≠ none →
    t.link.busy = true ∧ t.linkPlan = .stopAfter 0 ∧ t.Hung ∧ t.done = false

/-- R167: a hung operation never pulses `done`, `op_ready` stays 0, `STATUS.OP_ACTIVE` stays 1, and
nothing in the block ends the hang. When the pulse of an earlier completion ends is the model's
choice (log 5). -/
def Obligations.HungForEver : Prop :=
  ∀ (k : Nat) (s : State), s.Hung →
    ∃ t, run (k + 1) s = .next t ∧ t = { s with done := false } ∧ t.Hung
      ∧ t.opReady = 0 ∧ t.status.getLsbD 0 = true

/-- R163, R166: a step ends in a next state or a refusal, and it refuses exactly when, with the port
ready, the host presents (a word it holds, or one a carried result completes, log 8) a word that decodes
to nothing, or a `send_block` with `R >= 1` and a zero count (R104), a range past the top (R57) or a
range that is not plain memory (R55; log 10), each under its own name. The empty type of faults is the
model's (log 23). -/
def Obligations.NoFaultAndOnlyListedRefusals : Prop :=
  ∀ (s : State),
    (∀ f, step s ≠ .fault f)
      ∧ ∀ why, step s = .refused why ↔
        s.op = none ∧ ∃ w rest,
          (s.host = .present w :: rest ∨ ∃ v, s.host = .presentKept v :: rest ∧ withN v s.kept = w)
            ∧ (decode w = none ∧ why = .reservedWord w
                ∨ ∃ a n r, decode w = some (.sendBlock a n r) ∧ r ≠ 0
                  ∧ (n = 0 ∧ why = .zeroCount
                      ∨ n ≠ 0 ∧ 2 ^ 32 < a.toNat + n.toNat ∧ why = .pastTop
                      ∨ n ≠ 0 ∧ a.toNat + n.toNat ≤ 2 ^ 32
                        ∧ s.params.touchesDevice a.toNat n.toNat = true ∧ why = .notPlainMemory))

/-! ### The agents (00_scope.md R14) -/

/-- R83: the Link step is enabled only while the link is busy, and whenever it is taken puts the unit on
the wire as the selector line frames it and leaves the link idle; under `LINK_LIVE` it is enabled
whenever the link is busy. `LINK_LIVE` as data is the model's (log 2), and so is that the Link step is then
the block's next step unless the parameters put the Engine first (log 11; R171 fixes no order). -/
def Obligations.LinkStepRule : Prop :=
  ∀ (s : State),
    (s.link.busy = false → State.linkStep s = none)
      ∧ (∀ t, State.linkStep s = some t → t = { s with
          wire := s.wire ++ [.unit s.dc s.link.shift],
          link := { s.link with busy := false }, linkPlan := t.linkPlan })
      ∧ (s.link.busy = true → s.Live →
          ∃ t, State.linkStep s = some t ∧ t.Live
            ∧ (State.engineGoesFirst s = false → State.agentStep s = some t))

/-- R100: the Channel step. -/
def Obligations.ChannelStepRule : Prop :=
  ∀ (s : State),
    ((State.channelStep s).isSome = true ↔
        s.ch.en = true ∧ 0 < s.ch.rem.toNat ∧ s.link.busy = false)
      ∧ ∀ t, State.channelStep s = some t →
        t = { s with
          link := { busy := true, shift := Memory.read s.mem s.ch.ptr.toNat },
          ch := { s.ch with ptr := s.ch.ptr + 1, rem := s.ch.rem - 1,
                            tc := s.ch.tc || s.ch.rem == 1 } }

/-- R171: the Channel and the Link are never both enabled; where the Engine and the Link are, either
order reaches the same state (the Engine's last statements, once the link is idle, included). What is
one Engine step is the model's choice (log 11). -/
def Obligations.AgentsCommute : Prop :=
  ∀ (s : State),
    (State.channelStep s = none ∨ State.linkStep s = none)
      ∧ (s.OpInv → ∀ a b, State.linkStep s = some a → State.engineStep s = some b →
          ∃ t, State.engineStep a = some t
            ∧ (State.linkStep b = some t
                ∨ ∃ u, State.linkStep b = some u ∧ State.engineStep u = some t))

/-- R14, R99, R100, R171 (D32): the operation taken in one machine step ends where its agents'
single steps, from its acceptance on, end, completed or hung, whichever order the parameters give
the Link and the Engine; and a whole run at pace `operation` ends where a run at pace `agent` ends. The
second pace and the order as data are the model's (logs 1, 11). -/
def Obligations.AgentStepsReachExec : Prop :=
  (∀ (i : Instr) (s t : State), s.Ready → operandRefusal s.params i = none →
      exec i s = .next t → ∃ k, run k (State.accept i s) = .next t)
    ∧ ∀ (k : Nat) (s t : State), s.Inv → s.pace = .operation → run k s = .next t →
      ∃ m, run m { s with pace := .agent } = .next { t with pace := .agent }

/-! ### Invariants -/

/-- R36, R185: what reset leaves, where the spec gives the value. -/
def Obligations.ResetValues : Prop :=
  let s := State.reset
  s.cs = false ∧ s.dc = 1 ∧ s.link.busy = false ∧ s.ch.en = false ∧ s.ch.tc = false
    ∧ s.ch.src = 0 ∧ s.ch.cnt = 0 ∧ s.ch.ptr = 0 ∧ s.ch.rem = 0 ∧ s.rep = 0 ∧ s.op = none
    ∧ s.wire = [] ∧ s.status = 0b00100000

/-- The invariant holds after reset. That reset memory lists nothing, and that no settle marker stands
there, is the model's choice (logs 3, 9). -/
def Obligations.ResetMeetsInv : Prop := State.reset.Inv

/-- R31, R35, R93: every step keeps the invariant (canonical memory, a framed trace, a resting block
between operations, an operation standing where its pseudocode puts it, settle markers at places of the
trace). The canonical form, the names of the positions and the markers are the model's (logs 3, 9, 29). -/
def Obligations.StepKeepsInv : Prop :=
  ∀ (s t : State), s.Inv → step s = .next t → t.Inv

/-- R35: whenever `op = none` the block rests, at every state the invariant allows. -/
def Obligations.RestingBetweenOperations : Prop :=
  ∀ (s t : State), s.Inv → step s = .next t → t.op = none →
    t.link.busy = false ∧ t.ch.en = false ∧ t.ch.tc = false ∧ t.ch.rem = 0 ∧ t.rep = 0

/-- R31: the wire trace is only ever appended to. -/
def Obligations.WireOnlyGrows : Prop :=
  ∀ (s t : State), step s = .next t → ∃ es, t.wire = s.wire ++ es

/-- R93: no unit is transmitted with chip-select released: after any step, before every unit of the
trace, one more `Select` than `Deselect`; and a step that puts a unit on the wire leaves chip-select
active. -/
def Obligations.UnitsOnlyWhileSelected : Prop :=
  ∀ (s t : State), s.Inv → step s = .next t →
    (∀ (before after : List WireEvent) (d : Bit) (v : Byte),
        t.wire = before ++ WireEvent.unit d v :: after →
        before.count .select = before.count .deselect + 1)
      ∧ ∀ (es : List WireEvent) (d : Bit) (v : Byte),
        t.wire = s.wire ++ es ++ [.unit d v] → t.cs = true

/-- R84: while a unit is in the shifter, a step leaves the selector line and the shifter alone, and
the step that finishes the unit stamps it with that selector line. -/
def Obligations.SelectorHoldsWhileShifting : Prop :=
  ∀ (s t : State), s.Inv → s.link.busy = true → step s = .next t →
    t.dc = s.dc ∧ t.link.shift = s.link.shift
      ∧ (t.link.busy = true ∧ t.wire = s.wire
          ∨ t.link.busy = false ∧ t.wire = s.wire ++ [.unit s.dc s.link.shift])

/-- R38: no step changes a parameter of the model or the pace (logs 1, 6: the model holds both as
data). -/
def Obligations.ParametersNeverChange : Prop :=
  ∀ (s t : State), step s = .next t → t.params = s.params ∧ t.pace = s.pace

/-- R29: every bit of `STATUS`. -/
def Obligations.StatusBits : Prop :=
  ∀ (s : State),
    s.status.getLsbD 0 = s.op.isSome ∧ s.status.getLsbD 1 = s.link.busy
      ∧ s.status.getLsbD 2 = s.ch.en ∧ s.status.getLsbD 3 = s.ch.tc
      ∧ s.status.getLsbD 4 = s.cs ∧ s.status.getLsbD 5 = s.dc.getLsbD 0
      ∧ s.status.getLsbD 6 = false ∧ s.status.getLsbD 7 = false

/-! ### The frames (43_frame_sequences.md, 70_reset_and_hazards.md) -/

/-- R74, R126: `set_window x0, y0, x1, y1`, with chip-select active, puts its ten units on the wire in
the order x0, x1, y0, y1 and ends with `dc = 1`. -/
def Obligations.SetWindowWire : Prop :=
  ∀ (s : State) (x0 y0 x1 y1 : Half), State.CanRun s → s.cs = true →
    ∃ t, run 6 (s.program ((setWindow s.params x0 y0 x1 y1).map present)) = .next t
      ∧ t.Over ∧ t.wire = s.wire ++ windowUnits s.params x0 y0 x1 y1 ∧ t.dc = 1

/-- R130: `draw_pixel` is `Select`, 13 units, `Deselect`, in ten operations; no memory is written and
the channel is not used. -/
def Obligations.DrawPixelWire : Prop :=
  ∀ (s : State) (x y c : Half), State.CanRun s →
    (drawPixel s.params x y c).length = 10
      ∧ ∃ t, run 10 (s.program (drawPixel s.params x y c)) = .next t ∧ t.Over
        ∧ t.ch = s.ch ∧ t.mem = s.mem ∧ t.wire = s.wire ++ selectMark s.cs ++ windowUnits s.params x y x y
            ++ [.unit 0 s.params.cmdMemoryWrite, .unit 1 (hi c), .unit 1 (lo c), .deselect]

/-- R131: `fill_rect` with `w >= 1` (or `h = 0`): the window head, then the colour pair
`min(w, 320) * h` times, then `Deselect`. -/
def Obligations.FillRectWire : Prop :=
  ∀ (s : State) (x y w h c : Half), State.CanRun s → s.params.Ok → (w ≠ 0 ∨ h = 0) →
    ∃ t, run 12 (s.program (fillRect s.params x y w h c)) = .next t ∧ t.Over
      ∧ t.wire = s.wire ++ selectMark s.cs
          ++ windowUnits s.params x y (x + w - 1) (y + h - 1) ++ [.unit 0 s.params.cmdMemoryWrite]
          ++ pairUnits c (min w.toNat 320 * h.toNat) ++ [.deselect]

/-- R104, R201 (P7): `fill_rect` of width 0 and non-zero height reaches the reserved zero count. -/
def Obligations.FillRectZeroWidthIsRefused : Prop :=
  ∀ (s : State) (x y h c : Half), State.CanRun s → h ≠ 0 →
    run 12 (s.program (fillRect s.params x y 0 h c)) = .refused .zeroCount

/-- R132, R133: the fast lines put the window head and `min(length, 320)` pairs (horizontal), or
`length` pairs (vertical), on the wire. -/
def Obligations.FastLinesWire : Prop :=
  ∀ (s : State) (x y len c : Half), State.CanRun s → s.params.Ok →
    (len ≠ 0 →
      ∃ t, run 12 (s.program (drawFastHLine s.params x y len c)) = .next t ∧ t.Over
        ∧ t.wire = s.wire ++ selectMark s.cs ++ windowUnits s.params x y (x + len - 1) y
            ++ [.unit 0 s.params.cmdMemoryWrite] ++ pairUnits c (min len.toNat 320) ++ [.deselect])
      ∧ ∃ t, run 12 (s.program (drawFastVLine s.params x y len c)) = .next t ∧ t.Over
        ∧ t.wire = s.wire ++ selectMark s.cs ++ windowUnits s.params x y x (y + len - 1)
            ++ [.unit 0 s.params.cmdMemoryWrite] ++ pairUnits c len.toNat ++ [.deselect]

/-- R135: `draw_bitmap` sends the caller's `2*w*h` bytes once, in ascending address order. -/
def Obligations.DrawBitmapWire : Prop :=
  ∀ (s : State) (x y w h : Half) (pixels : Word), State.CanRun s →
    blockRefusal s.params pixels (bitmapBytes w h) 1 = none →
    ∃ t, run 10 (s.program (drawBitmap s.params x y w h pixels)) = .next t ∧ t.Over
      ∧ t.wire = s.wire ++ selectMark s.cs
          ++ windowUnits s.params x y (x + w - 1) (y + h - 1) ++ [.unit 0 s.params.cmdMemoryWrite]
          ++ blockUnits s.mem pixels (bitmapBytes w h).toNat ++ [.deselect]

/-- R136: `print_char` stores the unpacked glyph, then puts the window head and the glyph's colour pairs,
in the order stored, `2 * gw * gh` bytes (41_block_transfer.md R113), on the wire as one block. The glyph
fits the scratch buffer (R136) and is not empty (R104). -/
def Obligations.PrintCharWire : Prop :=
  ∀ (s : State) (cx cy gw gh : Half) (glyph : Vector Half (gw.toNat * gh.toNat)),
    State.CanRun s → s.params.Ok → gw ≠ 0 → gh ≠ 0 → 2 * (gw.toNat * gh.toNat) ≤ 640 →
    ∃ t, run (2 * (gw.toNat * gh.toNat) + 10) (s.program (printChar s.params cx cy gw gh glyph)) = .next t
      ∧ t.Over
      ∧ t.wire = s.wire ++ selectMark s.cs
          ++ windowUnits s.params cx cy (cx + gw - 1) (cy + gh - 1)
          ++ [.unit 0 s.params.cmdMemoryWrite]
          ++ glyph.toList.flatMap (fun c => [.unit 1 (hi c), .unit 1 (lo c)]) ++ [.deselect]

/-- R190, R191: after the initialisation sequence `dc = 0`, chip-select is active unless the host
bracketed the last step, the link is idle, the channel disabled, `ch.src = gamma_neg` and `ch.cnt = 16`;
and the receiver, whose parameters the model accepts (R153) and whose settle delays the sequence observes
(R159, R203), answers the longer trace and is in `Idle`, owed no delay, its window and frame memory kept.
The parameter bytes, the table addresses and each step's bracket are arguments (log 26), the settle delays
markers (logs 9, 17). -/
def Obligations.InitialisationEndState : Prop :=
  ∀ (s : State) (d : InitData s.params), State.CanRun s →
    blockRefusal s.params d.gammaPos 16 1 = none → blockRefusal s.params d.gammaNeg 16 1 = none →
    ∃ t, run (initialisation s.params d).length (s.program (initialisation s.params d)) = .next t
      ∧ t.Over ∧ t.dc = 0 ∧ t.cs = !d.brackets[10].closes ∧ t.link.busy = false ∧ t.ch.en = false
      ∧ t.ch.src = d.gammaNeg ∧ t.ch.cnt = 16
      ∧ ∀ rx, s.params.allCommands.Nodup → s.MarkersPlaced → s.rx = .ok rx → Rx.Clear rx →
        ∃ rx', t.rx = .ok rx' ∧ rx'.mode = .idle ∧ rx'.cmd = some s.params.cmdDisplayOn
          ∧ rx'.params = [] ∧ Rx.Clear rx'
          ∧ (rx'.x0, rx'.x1, rx'.y0, rx'.y1, rx'.gram, rx'.gen)
              = (rx.x0, rx.x1, rx.y0, rx.y1, rx.gram, rx.gen)

/-! ### The receiver (44_receiver_protocol.md) -/

/-- R148, R149, R152, R157: any command byte forces `Idle` and clears the parameters; begin memory write
then enters `Streaming` at the window's first column and row; the window is kept, and the frame memory
too, but where begin memory write finds a window that is not inside the frame: there it is unspecified
from then on. The premise that no settle delay is owed is the model's form of R159 (log 17); when a
malformed window frees the frame memory is log 14. -/
def Obligations.CommandUnitRule : Prop :=
  ∀ (p : Params) (rx : Rx) (c : Byte), Rx.Clear rx →
    ∃ t, rxStep p rx (.unit 0 c) = .ok t ∧ t.cmd = some c ∧ t.params = [] ∧ t.half = none
      ∧ (t.x0, t.x1, t.y0, t.y1) = (rx.x0, rx.x1, rx.y0, rx.y1)
      ∧ (c ≠ p.cmdMemoryWrite ∨ rx.windowOk = true → t.gram = rx.gram ∧ t.gen = rx.gen)
      ∧ (c = p.cmdMemoryWrite → rx.windowOk = false →
          ∀ (col row : Nat), t.pixel col row = Config.rxPixel (rx.gen + 1) col row)
      ∧ (c ≠ p.cmdMemoryWrite → t.mode = .idle)
      ∧ (c = p.cmdMemoryWrite → t.mode = .streaming ∧ t.col = rx.x0 ∧ t.row = rx.y0)

/-- R150, R151: a range command and its four parameters, high byte first, set the two coordinates of
their axis when the fourth parameter arrives and not before, and change no other coordinate and no
pixel, whether or not the window they make lies inside the frame: a malformed one frees the frame memory
only at begin memory write (log 14). That no settle delay is owed before and after is the model's form of
R159 (log 17). -/
def Obligations.RangeCommandsSetTheWindow : Prop :=
  ∀ (p : Params) (rx : Rx) (w0 w1 : Half), p.allCommands.Nodup → Rx.Clear rx →
    (∃ t, rxFold p [] 0 rx [.unit 0 p.cmdColumnRange, .unit 1 (hi w0), .unit 1 (lo w0),
          .unit 1 (hi w1), .unit 1 (lo w1)] = .ok t
        ∧ (t.x0, t.x1, t.y0, t.y1, t.gram, t.gen) = (w0, w1, rx.y0, rx.y1, rx.gram, rx.gen)
        ∧ t.mode = .idle ∧ Rx.Clear t)
      ∧ (∃ t, rxFold p [] 0 rx [.unit 0 p.cmdRowRange, .unit 1 (hi w0), .unit 1 (lo w0),
          .unit 1 (hi w1), .unit 1 (lo w1)] = .ok t
        ∧ (t.x0, t.x1, t.y0, t.y1, t.gram, t.gen) = (rx.x0, rx.x1, w0, w1, rx.gram, rx.gen)
        ∧ t.mode = .idle ∧ Rx.Clear t)
      ∧ ∀ c, (c = p.cmdColumnRange ∨ c = p.cmdRowRange) →
        ∃ t, rxFold p [] 0 rx [.unit 0 c, .unit 1 (hi w0), .unit 1 (lo w0), .unit 1 (hi w1)] = .ok t
          ∧ (t.x0, t.x1, t.y0, t.y1) = (rx.x0, rx.x1, rx.y0, rx.y1)

/-- R155: data units while streaming: the first of a pixel is kept as its high byte, the second completes
the pixel at the pointer, and the pointer goes on along the row, or from a row that is not the window's
last to the next one (the last is `WindowEndRule`). That no settle delay is owed is the model's form of
R159 (log 17), and the flag that the window's end is passed its form of R156 (log 15). -/
def Obligations.StreamingUnitRule : Prop :=
  ∀ (p : Params) (rx : Rx) (b : Byte), rx.mode = .streaming → rx.owed = none →
    (rx.half = none → rxStep p rx (.unit 1 b) = .ok { rx with half := some b })
      ∧ ∀ h, rx.half = some h → rx.windowOk = true → rx.col.toNat < 320 → rx.row.toNat < 240 →
        rx.past = false →
        ∃ t, rxStep p rx (.unit 1 b) = .ok t ∧ t.half = none ∧ t.mode = .streaming
          ∧ (t.x0, t.x1, t.y0, t.y1) = (rx.x0, rx.x1, rx.y0, rx.y1)
          ∧ t.pixel rx.col.toNat rx.row.toNat = h ++ b
          ∧ (∀ (col row : Nat), col < 320 → row < 240 →
              (col ≠ rx.col.toNat ∨ row ≠ rx.row.toNat) → t.pixel col row = rx.pixel col row)
          ∧ (rx.col = rx.x1 → rx.row ≠ rx.y1 → t.col = rx.x0 ∧ t.row = rx.row + 1)
          ∧ (rx.col ≠ rx.x1 → t.col = rx.col + 1 ∧ t.row = rx.row)

/-- R162, R147: the receiver at the start of the trace. That no settle marker stands there at reset is the
model's choice (log 9). -/
def Obligations.ReceiverReset : Prop :=
  Rx.reset.mode = .idle ∧ Rx.reset.cmd = none ∧ Rx.reset.params = [] ∧ Rx.reset.half = none
    ∧ State.reset.rx = .ok Rx.reset

/-- R153, R158, R159, R160, R203 and V7: where the receiver model says nothing further, each by name:
any event while a settle delay is owed; and, where none is, a data unit with no command, a fifth
parameter of a range command, a parameter of a command the model does not carry, a command or a release
mid-pixel, a release in the middle of a range command's four parameters, of a gamma command's 16, or
before the first parameter of a command that has one, and a parameter of an initialisation command after a
release; any other release leaves the state of R34 alone. When a delay is owed: after sleep-out and the two
"on" commands, and after the 16th byte of a gamma table. What counts as mid-item and as too soon is the
model's reading (logs 16, 17). -/
def Obligations.ReceiverViolations : Prop :=
  ∀ (p : Params) (rx : Rx) (b c : Byte), p.allCommands.Nodup →
    (rx.owed.isSome = true → ∀ e, rxStep p rx e = .error .tooSoon)
      ∧ (rx.owed = none →
        rxStep p rx .select = .ok rx
          ∧ (rx.midItem p = false → rxStep p rx .deselect = .ok { rx with released := true })
          ∧ (rx.half.isSome = true → rxStep p rx (.unit 0 b) = .error .halfPixel)
          ∧ (rx.half.isSome = true → rxStep p rx .deselect = .error .releasedMidItem)
          ∧ (rx.mode = .idle → rx.cmd = none → rxStep p rx (.unit 1 b) = .error .noCommand)
          ∧ (rx.mode = .idle → rx.cmd = some c →
              (p.isRange c = true → 4 ≤ rx.params.length →
                  rxStep p rx (.unit 1 b) = .error .extraParameter)
                ∧ (p.isRange c = false → c ∉ p.initCommands →
                    rxStep p rx (.unit 1 b) = .error .unknownParameter)
                ∧ (c ∈ p.initCommands → rx.released = true →
                    rxStep p rx (.unit 1 b) = .error .releasedMidItem)
                ∧ (p.isRange c = true → rx.params.length < 4 →
                    rxStep p rx .deselect = .error .releasedMidItem)
                ∧ (c = p.cmdGammaPos ∨ c = p.cmdGammaNeg → rx.params.length < 16 →
                    rxStep p rx .deselect = .error .releasedMidItem)
                ∧ (c ∈ p.cmdPowerCtrl ++ p.cmdVcomCtrl
                      ++ [p.cmdMemAccessCtrl, p.cmdPixelFormat, p.cmdFrameRate] →
                    rx.params = [] → rxStep p rx .deselect = .error .releasedMidItem)))
      ∧ (Rx.Clear rx →
        (∃ t, rxStep p rx (.unit 0 p.cmdSleepOut) = .ok t ∧ t.owed = some .sleepOut)
          ∧ (∃ t, rxStep p rx (.unit 0 p.cmdNormalOn) = .ok t ∧ t.owed = some .on)
          ∧ (∃ t, rxStep p rx (.unit 0 p.cmdDisplayOn) = .ok t ∧ t.owed = some .on)
          ∧ ∀ bs : List Byte, bs.length ≤ 16 → (c = p.cmdGammaPos ∨ c = p.cmdGammaNeg) →
            ∃ t, rxFold p [] 0 rx (.unit 0 c :: bs.map (.unit 1)) = .ok t
              ∧ t.owed = if bs.length = 16 then some .gamma else none)

/-- R161: a well-formed frame of `K <= W * H` pixels sets pixel `k` at column `x0 + k mod W`, row
`y0 + k div W`, changes no other pixel, and leaves the receiver streaming with no half pixel. The premise
that no settle delay is owed is the model's form of R159 (log 17). -/
def Obligations.FramePaintsTheWindow : Prop :=
  ∀ (p : Params) (rx : Rx) (x0 y0 x1 y1 : Half) (pixels : List Half),
    p.allCommands.Nodup → Rx.Clear rx →
    x0 ≤ x1 → x1.toNat < 320 → y0 ≤ y1 → y1.toNat < 240 →
    pixels.length ≤ (x1.toNat - x0.toNat + 1) * (y1.toNat - y0.toNat + 1) →
    ∃ t, rxFold p [] 0 rx (windowUnits p x0 y0 x1 y1 ++ [.unit 0 p.cmdMemoryWrite]
          ++ pixels.flatMap (fun c => [.unit 1 (hi c), .unit 1 (lo c)])) = .ok t
      ∧ t.mode = .streaming ∧ t.half = none
      ∧ (∀ (k : Nat) (c : Half), pixels[k]? = some c →
          t.pixel (x0.toNat + k % (x1.toNat - x0.toNat + 1))
                  (y0.toNat + k / (x1.toNat - x0.toNat + 1)) = c)
      ∧ ∀ (col row : Nat), col < 320 → row < 240 →
          (∀ k, k < pixels.length →
            ¬ (col = x0.toNat + k % (x1.toNat - x0.toNat + 1)
                ∧ row = y0.toNat + k / (x1.toNat - x0.toNat + 1))) →
          t.pixel col row = rx.pixel col row

/-- R130, R161: after `draw_pixel(x, y, c)` inside the frame the receiver shows `c` at `(x, y)` and
every other pixel as before. The premise that no settle delay is owed is the model's form of R159
(log 17). -/
def Obligations.DrawPixelShowsOnePixel : Prop :=
  ∀ (s : State) (rx : Rx) (x y c : Half), State.CanRun s → s.params.Ok →
    s.rx = .ok rx → Rx.Clear rx → x.toNat < 320 → y.toNat < 240 →
    ∃ t rx', run 10 (s.program (drawPixel s.params x y c)) = .next t ∧ t.rx = .ok rx'
      ∧ rx'.pixel x.toNat y.toNat = c
      ∧ ∀ (col row : Nat), col < 320 → row < 240 → (col ≠ x.toNat ∨ row ≠ y.toNat) →
          rx'.pixel col row = rx.pixel col row

/-- R156 and U11: the pixel at the window's last position is written; then `RX_WRAP_AT_END` decides.
With it the pointer is back at the window's first position; without it a further pixel leaves the frame
memory any value, the window and the mode kept. Both forms, the flag `past` and the opaque pixels are
the model's (logs 15, 17). -/
def Obligations.WindowEndRule : Prop :=
  ∀ (p : Params) (rx : Rx) (h b : Byte), rx.mode = .streaming → rx.half = some h → rx.owed = none →
    rx.windowOk = true → rx.past = false → rx.col = rx.x1 → rx.row = rx.y1 →
    ∃ t, rxStep p rx (.unit 1 b) = .ok t ∧ t.half = none
      ∧ t.pixel rx.x1.toNat rx.y1.toNat = h ++ b
      ∧ (∀ (col row : Nat), col < 320 → (col ≠ rx.x1.toNat ∨ row ≠ rx.y1.toNat) →
          t.pixel col row = rx.pixel col row)
      ∧ (p.rxWrapAtEnd = true → t.col = rx.x0 ∧ t.row = rx.y0 ∧ t.past = false)
      ∧ (p.rxWrapAtEnd = false → ∀ (h' b' : Byte),
          ∃ u, rxFold p [] 0 t [.unit 1 h', .unit 1 b'] = .ok u ∧ u.mode = .streaming
            ∧ (u.x0, u.x1, u.y0, u.y1) = (rx.x0, rx.x1, rx.y0, rx.y1)
            ∧ ∀ (col row : Nat), u.pixel col row = Config.rxPixel (rx.gen + 1) col row)
end

