-- ==== Sys2Proof/Laws/Memory.lean ====
section
/-! SUPPORT. The laws of buffer space: a read sees the last write to its address and no other
(20_memory.md R45, R55), and every memory operation keeps the canonical form. -/

namespace Sys2Proof.Machine

theorem Memory.wfFrom_mono {lo1 lo2 : Nat} (m : Memory) (h : lo1 ≤ lo2)
    (hm : Memory.wfFrom lo2 m = true) : Memory.wfFrom lo1 m = true := by
  cases m with
  | nil => rfl
  | cons c rest =>
    obtain ⟨a, b⟩ := c
    simp only [Memory.wfFrom, Bool.and_eq_true, decide_eq_true_eq] at hm ⊢
    exact ⟨⟨⟨by omega, hm.1.1.2⟩, hm.1.2⟩, hm.2⟩

theorem Memory.read_insert (m : Memory) (a x : Nat) (b : Byte) :
    Memory.read (Memory.insert m a b) x = if x = a then b else Memory.read m x := by
  induction m with
  | nil => rfl
  | cons c rest ih =>
    obtain ⟨p, q⟩ := c
    simp only [Memory.insert]
    split
    · rfl
    · split
      · next h => subst h; by_cases hx : x = a <;> simp [Memory.read, hx]
      · next h1 h2 =>
        by_cases hp : x = p
        · have hxa : x ≠ a := by omega
          simp [Memory.read, hp, show p ≠ a by omega]
        · simp [Memory.read, hp, ih]

theorem Memory.read_erase (m : Memory) (a x : Nat) :
    Memory.read (Memory.erase m a) x = if x = a then Memory.unlisted else Memory.read m x := by
  induction m with
  | nil => simp [Memory.erase, Memory.read]
  | cons c rest ih =>
    obtain ⟨p, q⟩ := c
    simp only [Memory.erase]
    split
    · next hp =>
      subst hp
      rw [ih]
      by_cases hx : x = a <;> simp [Memory.read, hx]
    · next hp =>
      by_cases hx : x = p
      · simp [Memory.read, hx, Ne.symm hp]
      · simp [Memory.read, hx, ih]

/-- A read after a write: the byte written at its address, every other address as it was. -/
theorem Memory.read_write (m : Memory) (a x : Nat) (b : Byte) :
    Memory.read (Memory.write m a b) x = if x = a then b else Memory.read m x := by
  unfold Memory.write
  split
  · next h => rw [Memory.read_erase, h]
  · exact Memory.read_insert m a x b

theorem Memory.read_write_same (m : Memory) (a : Nat) (b : Byte) :
    Memory.read (Memory.write m a b) a = b := by simp [Memory.read_write]

theorem Memory.read_write_other (m : Memory) {a x : Nat} (b : Byte) (h : x ≠ a) :
    Memory.read (Memory.write m a b) x = Memory.read m x := by simp [Memory.read_write, h]

theorem Memory.insert_wf {low a : Nat} {b : Byte} {m : Memory} (hm : Memory.wfFrom low m = true)
    (hlow : low ≤ a) (ha : a < Config.spaceSize) (hb : b ≠ Memory.unlisted) :
    Memory.wfFrom low (Memory.insert m a b) = true := by
  induction m generalizing low with
  | nil => simp [Memory.insert, Memory.wfFrom, hlow, ha, hb]
  | cons c rest ih =>
    obtain ⟨p, q⟩ := c
    simp only [Memory.wfFrom, Bool.and_eq_true, decide_eq_true_eq, bne_iff_ne] at hm
    simp only [Memory.insert]
    split
    · next h =>
      simp only [Memory.wfFrom, Bool.and_eq_true, decide_eq_true_eq, bne_iff_ne]
      exact ⟨⟨⟨hlow, ha⟩, hb⟩, ⟨⟨by omega, hm.1.1.2⟩, hm.1.2⟩, hm.2⟩
    · split
      · next h =>
        subst h
        simp only [Memory.wfFrom, Bool.and_eq_true, decide_eq_true_eq, bne_iff_ne]
        exact ⟨⟨⟨hlow, ha⟩, hb⟩, hm.2⟩
      · next h1 h2 =>
        simp only [Memory.wfFrom, Bool.and_eq_true, decide_eq_true_eq, bne_iff_ne]
        exact ⟨hm.1, ih hm.2 (by omega)⟩

theorem Memory.erase_wf {low a : Nat} {m : Memory} (hm : Memory.wfFrom low m = true) :
    Memory.wfFrom low (Memory.erase m a) = true := by
  induction m generalizing low with
  | nil => rfl
  | cons c rest ih =>
    obtain ⟨p, q⟩ := c
    simp only [Memory.wfFrom, Bool.and_eq_true, decide_eq_true_eq] at hm
    simp only [Memory.erase]
    split
    · exact ih (Memory.wfFrom_mono _ (by omega) hm.2)
    · simp only [Memory.wfFrom, Bool.and_eq_true, decide_eq_true_eq]
      exact ⟨hm.1, ih hm.2⟩

/-- A write keeps the canonical form. -/
theorem Memory.write_wf {m : Memory} (hm : Memory.wf m = true) {a : Nat} (b : Byte)
    (ha : a < Config.spaceSize) : Memory.wf (Memory.write m a b) = true := by
  unfold Memory.write
  split
  · exact Memory.erase_wf hm
  · next h => exact Memory.insert_wf hm (Nat.zero_le _) ha h

theorem scratchAddr_lt (p : Params) (off : Nat) : scratchAddr p off < Config.spaceSize :=
  BitVec.isLt _

theorem writePair_wf {m : Memory} (hm : Memory.wf m = true) (p : Params) (c : Half) (i : Nat) :
    Memory.wf (writePair p c i m) = true :=
  Memory.write_wf (Memory.write_wf hm _ (scratchAddr_lt p _)) _ (scratchAddr_lt p _)

/-- The fill keeps the canonical form. -/
theorem fillPairs_wf {m : Memory} (hm : Memory.wf m = true) (p : Params) (c : Half) (k : Nat) :
    Memory.wf (fillPairs p c k m) = true := by
  induction k with
  | zero => exact hm
  | succ k ih => exact writePair_wf ih p c k

/-- The fill leaves every address alone that is not one of its scratch bytes. -/
theorem read_fillPairs_other (m : Memory) (p : Params) (c : Half) (k : Nat) {x : Nat}
    (h : ∀ off, off < 2 * k → x ≠ scratchAddr p off) :
    Memory.read (fillPairs p c k m) x = Memory.read m x := by
  induction k with
  | zero => rfl
  | succ k ih =>
    simp only [fillPairs, writePair]
    rw [Memory.read_write_other _ _ (h _ (by omega)), Memory.read_write_other _ _ (h _ (by omega)),
      ih fun off ho => h off (by omega)]

end Sys2Proof.Machine
end

