-- ==== Sys2Proof/Laws/State.lean ====
section
/-! SUPPORT. For each update of `State`, what each field is afterwards: true by unfolding, so that no
later proof unfolds a record update. -/

namespace Sys2Proof.Machine

section
variable (e : WireEvent) (s : State)

@[simp] theorem State.emit_cs : (State.emit e s).cs = s.cs := rfl
@[simp] theorem State.emit_dc : (State.emit e s).dc = s.dc := rfl
@[simp] theorem State.emit_link : (State.emit e s).link = s.link := rfl
@[simp] theorem State.emit_ch : (State.emit e s).ch = s.ch := rfl
@[simp] theorem State.emit_rep : (State.emit e s).rep = s.rep := rfl
@[simp] theorem State.emit_op : (State.emit e s).op = s.op := rfl
@[simp] theorem State.emit_done : (State.emit e s).done = s.done := rfl
@[simp] theorem State.emit_result : (State.emit e s).result = s.result := rfl
@[simp] theorem State.emit_mem : (State.emit e s).mem = s.mem := rfl
@[simp] theorem State.emit_wire : (State.emit e s).wire = s.wire ++ [e] := rfl
@[simp] theorem State.emit_host : (State.emit e s).host = s.host := rfl
@[simp] theorem State.emit_kept : (State.emit e s).kept = s.kept := rfl
@[simp] theorem State.emit_seen : (State.emit e s).seen = s.seen := rfl
@[simp] theorem State.emit_settles : (State.emit e s).settles = s.settles := rfl
@[simp] theorem State.emit_params : (State.emit e s).params = s.params := rfl
@[simp] theorem State.emit_linkPlan : (State.emit e s).linkPlan = s.linkPlan := rfl
@[simp] theorem State.emit_pace : (State.emit e s).pace = s.pace := rfl

end

section
variable (d : Bit) (s : State)

@[simp] theorem State.setDc_cs : (State.setDc d s).cs = s.cs := rfl
@[simp] theorem State.setDc_dc : (State.setDc d s).dc = d := rfl
@[simp] theorem State.setDc_link : (State.setDc d s).link = s.link := rfl
@[simp] theorem State.setDc_ch : (State.setDc d s).ch = s.ch := rfl
@[simp] theorem State.setDc_rep : (State.setDc d s).rep = s.rep := rfl
@[simp] theorem State.setDc_op : (State.setDc d s).op = s.op := rfl
@[simp] theorem State.setDc_done : (State.setDc d s).done = s.done := rfl
@[simp] theorem State.setDc_result : (State.setDc d s).result = s.result := rfl
@[simp] theorem State.setDc_mem : (State.setDc d s).mem = s.mem := rfl
@[simp] theorem State.setDc_wire : (State.setDc d s).wire = s.wire := rfl
@[simp] theorem State.setDc_host : (State.setDc d s).host = s.host := rfl
@[simp] theorem State.setDc_kept : (State.setDc d s).kept = s.kept := rfl
@[simp] theorem State.setDc_seen : (State.setDc d s).seen = s.seen := rfl
@[simp] theorem State.setDc_settles : (State.setDc d s).settles = s.settles := rfl
@[simp] theorem State.setDc_params : (State.setDc d s).params = s.params := rfl
@[simp] theorem State.setDc_linkPlan : (State.setDc d s).linkPlan = s.linkPlan := rfl
@[simp] theorem State.setDc_pace : (State.setDc d s).pace = s.pace := rfl

end

section
variable (u : Byte) (s : State)

@[simp] theorem State.linkTx_cs : (State.linkTx u s).cs = s.cs := rfl
@[simp] theorem State.linkTx_dc : (State.linkTx u s).dc = s.dc := rfl
@[simp] theorem State.linkTx_link : (State.linkTx u s).link = { busy := true, shift := u } := rfl
@[simp] theorem State.linkTx_ch : (State.linkTx u s).ch = s.ch := rfl
@[simp] theorem State.linkTx_rep : (State.linkTx u s).rep = s.rep := rfl
@[simp] theorem State.linkTx_op : (State.linkTx u s).op = s.op := rfl
@[simp] theorem State.linkTx_done : (State.linkTx u s).done = s.done := rfl
@[simp] theorem State.linkTx_result : (State.linkTx u s).result = s.result := rfl
@[simp] theorem State.linkTx_mem : (State.linkTx u s).mem = s.mem := rfl
@[simp] theorem State.linkTx_wire : (State.linkTx u s).wire = s.wire := rfl
@[simp] theorem State.linkTx_host : (State.linkTx u s).host = s.host := rfl
@[simp] theorem State.linkTx_kept : (State.linkTx u s).kept = s.kept := rfl
@[simp] theorem State.linkTx_seen : (State.linkTx u s).seen = s.seen := rfl
@[simp] theorem State.linkTx_settles : (State.linkTx u s).settles = s.settles := rfl
@[simp] theorem State.linkTx_params : (State.linkTx u s).params = s.params := rfl
@[simp] theorem State.linkTx_linkPlan : (State.linkTx u s).linkPlan = s.linkPlan := rfl
@[simp] theorem State.linkTx_pace : (State.linkTx u s).pace = s.pace := rfl

end

section
variable (q : LinkPlan) (s : State)

@[simp] theorem State.linkFinish_cs : (State.linkFinish q s).cs = s.cs := rfl
@[simp] theorem State.linkFinish_dc : (State.linkFinish q s).dc = s.dc := rfl
@[simp] theorem State.linkFinish_link : (State.linkFinish q s).link = { busy := false, shift := s.link.shift } := rfl
@[simp] theorem State.linkFinish_ch : (State.linkFinish q s).ch = s.ch := rfl
@[simp] theorem State.linkFinish_rep : (State.linkFinish q s).rep = s.rep := rfl
@[simp] theorem State.linkFinish_op : (State.linkFinish q s).op = s.op := rfl
@[simp] theorem State.linkFinish_done : (State.linkFinish q s).done = s.done := rfl
@[simp] theorem State.linkFinish_result : (State.linkFinish q s).result = s.result := rfl
@[simp] theorem State.linkFinish_mem : (State.linkFinish q s).mem = s.mem := rfl
@[simp] theorem State.linkFinish_wire : (State.linkFinish q s).wire = s.wire ++ [.unit s.dc s.link.shift] := rfl
@[simp] theorem State.linkFinish_host : (State.linkFinish q s).host = s.host := rfl
@[simp] theorem State.linkFinish_kept : (State.linkFinish q s).kept = s.kept := rfl
@[simp] theorem State.linkFinish_seen : (State.linkFinish q s).seen = s.seen := rfl
@[simp] theorem State.linkFinish_settles : (State.linkFinish q s).settles = s.settles := rfl
@[simp] theorem State.linkFinish_params : (State.linkFinish q s).params = s.params := rfl
@[simp] theorem State.linkFinish_linkPlan : (State.linkFinish q s).linkPlan = q := rfl
@[simp] theorem State.linkFinish_pace : (State.linkFinish q s).pace = s.pace := rfl

end

section
variable (s : State)

@[simp] theorem State.channelMove_cs : (State.channelMove s).cs = s.cs := rfl
@[simp] theorem State.channelMove_dc : (State.channelMove s).dc = s.dc := rfl
@[simp] theorem State.channelMove_link :
    (State.channelMove s).link = { busy := true, shift := Memory.read s.mem s.ch.ptr.toNat } := rfl
@[simp] theorem State.channelMove_ch :
    (State.channelMove s).ch =
      { s.ch with ptr := s.ch.ptr + 1, rem := s.ch.rem - 1, tc := if s.ch.rem - 1 = 0 then true else s.ch.tc } :=
  rfl
@[simp] theorem State.channelMove_rep : (State.channelMove s).rep = s.rep := rfl
@[simp] theorem State.channelMove_op : (State.channelMove s).op = s.op := rfl
@[simp] theorem State.channelMove_done : (State.channelMove s).done = s.done := rfl
@[simp] theorem State.channelMove_result : (State.channelMove s).result = s.result := rfl
@[simp] theorem State.channelMove_mem : (State.channelMove s).mem = s.mem := rfl
@[simp] theorem State.channelMove_wire : (State.channelMove s).wire = s.wire := rfl
@[simp] theorem State.channelMove_host : (State.channelMove s).host = s.host := rfl
@[simp] theorem State.channelMove_kept : (State.channelMove s).kept = s.kept := rfl
@[simp] theorem State.channelMove_seen : (State.channelMove s).seen = s.seen := rfl
@[simp] theorem State.channelMove_settles : (State.channelMove s).settles = s.settles := rfl
@[simp] theorem State.channelMove_params : (State.channelMove s).params = s.params := rfl
@[simp] theorem State.channelMove_linkPlan : (State.channelMove s).linkPlan = s.linkPlan := rfl
@[simp] theorem State.channelMove_pace : (State.channelMove s).pace = s.pace := rfl

end

section
variable (i : Instr) (p : Pos) (s : State)

@[simp] theorem State.setOp_cs : (State.setOp i p s).cs = s.cs := rfl
@[simp] theorem State.setOp_dc : (State.setOp i p s).dc = s.dc := rfl
@[simp] theorem State.setOp_link : (State.setOp i p s).link = s.link := rfl
@[simp] theorem State.setOp_ch : (State.setOp i p s).ch = s.ch := rfl
@[simp] theorem State.setOp_rep : (State.setOp i p s).rep = s.rep := rfl
@[simp] theorem State.setOp_op : (State.setOp i p s).op = some { instr := i, pos := p } := rfl
@[simp] theorem State.setOp_done : (State.setOp i p s).done = s.done := rfl
@[simp] theorem State.setOp_result : (State.setOp i p s).result = s.result := rfl
@[simp] theorem State.setOp_mem : (State.setOp i p s).mem = s.mem := rfl
@[simp] theorem State.setOp_wire : (State.setOp i p s).wire = s.wire := rfl
@[simp] theorem State.setOp_host : (State.setOp i p s).host = s.host := rfl
@[simp] theorem State.setOp_kept : (State.setOp i p s).kept = s.kept := rfl
@[simp] theorem State.setOp_seen : (State.setOp i p s).seen = s.seen := rfl
@[simp] theorem State.setOp_settles : (State.setOp i p s).settles = s.settles := rfl
@[simp] theorem State.setOp_params : (State.setOp i p s).params = s.params := rfl
@[simp] theorem State.setOp_linkPlan : (State.setOp i p s).linkPlan = s.linkPlan := rfl
@[simp] theorem State.setOp_pace : (State.setOp i p s).pace = s.pace := rfl

end

section
variable (i : Instr) (s : State)

@[simp] theorem State.accept_cs : (State.accept i s).cs = s.cs := rfl
@[simp] theorem State.accept_dc : (State.accept i s).dc = s.dc := rfl
@[simp] theorem State.accept_link : (State.accept i s).link = s.link := rfl
@[simp] theorem State.accept_ch : (State.accept i s).ch = s.ch := rfl
@[simp] theorem State.accept_rep : (State.accept i s).rep = s.rep := rfl
@[simp] theorem State.accept_op : (State.accept i s).op = some { instr := i, pos := .start } := rfl
@[simp] theorem State.accept_done : (State.accept i s).done = false := rfl
@[simp] theorem State.accept_result : (State.accept i s).result = s.result := rfl
@[simp] theorem State.accept_mem : (State.accept i s).mem = s.mem := rfl
@[simp] theorem State.accept_wire : (State.accept i s).wire = s.wire := rfl
@[simp] theorem State.accept_host : (State.accept i s).host = s.host := rfl
@[simp] theorem State.accept_kept : (State.accept i s).kept = s.kept := rfl
@[simp] theorem State.accept_seen : (State.accept i s).seen = s.seen := rfl
@[simp] theorem State.accept_settles : (State.accept i s).settles = s.settles := rfl
@[simp] theorem State.accept_params : (State.accept i s).params = s.params := rfl
@[simp] theorem State.accept_linkPlan : (State.accept i s).linkPlan = s.linkPlan := rfl
@[simp] theorem State.accept_pace : (State.accept i s).pace = s.pace := rfl

end

section
variable (v : Word) (s : State)

@[simp] theorem State.complete_cs : (State.complete v s).cs = s.cs := rfl
@[simp] theorem State.complete_dc : (State.complete v s).dc = s.dc := rfl
@[simp] theorem State.complete_link : (State.complete v s).link = s.link := rfl
@[simp] theorem State.complete_ch : (State.complete v s).ch = s.ch := rfl
@[simp] theorem State.complete_rep : (State.complete v s).rep = s.rep := rfl
@[simp] theorem State.complete_op : (State.complete v s).op = none := rfl
@[simp] theorem State.complete_done : (State.complete v s).done = true := rfl
@[simp] theorem State.complete_result : (State.complete v s).result = v := rfl
@[simp] theorem State.complete_mem : (State.complete v s).mem = s.mem := rfl
@[simp] theorem State.complete_wire : (State.complete v s).wire = s.wire := rfl
@[simp] theorem State.complete_host : (State.complete v s).host = s.host := rfl
@[simp] theorem State.complete_kept : (State.complete v s).kept = s.kept := rfl
@[simp] theorem State.complete_seen : (State.complete v s).seen = s.seen := rfl
@[simp] theorem State.complete_settles : (State.complete v s).settles = s.settles := rfl
@[simp] theorem State.complete_params : (State.complete v s).params = s.params := rfl
@[simp] theorem State.complete_linkPlan : (State.complete v s).linkPlan = s.linkPlan := rfl
@[simp] theorem State.complete_pace : (State.complete v s).pace = s.pace := rfl

end

section
variable (s : State)

@[simp] theorem State.endPulse_cs : (State.endPulse s).cs = s.cs := rfl
@[simp] theorem State.endPulse_dc : (State.endPulse s).dc = s.dc := rfl
@[simp] theorem State.endPulse_link : (State.endPulse s).link = s.link := rfl
@[simp] theorem State.endPulse_ch : (State.endPulse s).ch = s.ch := rfl
@[simp] theorem State.endPulse_rep : (State.endPulse s).rep = s.rep := rfl
@[simp] theorem State.endPulse_op : (State.endPulse s).op = s.op := rfl
@[simp] theorem State.endPulse_done : (State.endPulse s).done = false := rfl
@[simp] theorem State.endPulse_result : (State.endPulse s).result = s.result := rfl
@[simp] theorem State.endPulse_mem : (State.endPulse s).mem = s.mem := rfl
@[simp] theorem State.endPulse_wire : (State.endPulse s).wire = s.wire := rfl
@[simp] theorem State.endPulse_host : (State.endPulse s).host = s.host := rfl
@[simp] theorem State.endPulse_kept : (State.endPulse s).kept = s.kept := rfl
@[simp] theorem State.endPulse_seen : (State.endPulse s).seen = s.seen := rfl
@[simp] theorem State.endPulse_settles : (State.endPulse s).settles = s.settles := rfl
@[simp] theorem State.endPulse_params : (State.endPulse s).params = s.params := rfl
@[simp] theorem State.endPulse_linkPlan : (State.endPulse s).linkPlan = s.linkPlan := rfl
@[simp] theorem State.endPulse_pace : (State.endPulse s).pace = s.pace := rfl

end

section
variable (w : OpWord) (s : State)

@[simp] theorem State.presentNext_cs : (State.presentNext w s).cs = s.cs := rfl
@[simp] theorem State.presentNext_dc : (State.presentNext w s).dc = s.dc := rfl
@[simp] theorem State.presentNext_link : (State.presentNext w s).link = s.link := rfl
@[simp] theorem State.presentNext_ch : (State.presentNext w s).ch = s.ch := rfl
@[simp] theorem State.presentNext_rep : (State.presentNext w s).rep = s.rep := rfl
@[simp] theorem State.presentNext_op : (State.presentNext w s).op = s.op := rfl
@[simp] theorem State.presentNext_done : (State.presentNext w s).done = s.done := rfl
@[simp] theorem State.presentNext_result : (State.presentNext w s).result = s.result := rfl
@[simp] theorem State.presentNext_mem : (State.presentNext w s).mem = s.mem := rfl
@[simp] theorem State.presentNext_wire : (State.presentNext w s).wire = s.wire := rfl
@[simp] theorem State.presentNext_host : (State.presentNext w s).host = .present w :: s.host := rfl
@[simp] theorem State.presentNext_kept : (State.presentNext w s).kept = s.kept := rfl
@[simp] theorem State.presentNext_seen : (State.presentNext w s).seen = s.seen := rfl
@[simp] theorem State.presentNext_settles : (State.presentNext w s).settles = s.settles := rfl
@[simp] theorem State.presentNext_params : (State.presentNext w s).params = s.params := rfl
@[simp] theorem State.presentNext_linkPlan : (State.presentNext w s).linkPlan = s.linkPlan := rfl
@[simp] theorem State.presentNext_pace : (State.presentNext w s).pace = s.pace := rfl

end

end Sys2Proof.Machine
end

