-- ==== Sys2Proof/Laws/Ops.lean ====
section
/-! SUPPORT. One law per shared operation: what it can do, said once. -/

namespace Sys2Proof.Machine

/-! ### Lines -/

/-- `assert_cs()`: chip-select active, `S?` on the wire, nothing else. -/
theorem State.assertCs_eq (s : State) :
    State.assertCs s = { s with cs := true, wire := s.wire ++ selectMark s.cs } := by
  obtain ⟨cs⟩ := s
  cases cs <;> simp [State.assertCs, selectMark, State.emit]

/-- `release_cs()`: chip-select released, `D?` on the wire, nothing else. -/
theorem State.releaseCs_eq (s : State) :
    State.releaseCs s =
      { s with cs := false, wire := s.wire ++ (if s.cs then [.deselect] else []) } := by
  obtain ⟨cs⟩ := s
  cases cs <;> simp [State.releaseCs, State.emit]

/-! ### Link -/

/-- The Link step is taken iff the link is busy and not stuck (40_framing_ops.md R83). -/
theorem State.linkStep_eq_some {s t : State} :
    State.linkStep s = some t ↔
      s.link.busy = true ∧ ∃ q, State.nextPlan s.linkPlan = some q ∧ t = State.linkFinish q s := by
  unfold State.linkStep
  by_cases h : s.link.busy = true
  · simp only [h, if_true, Option.map_eq_some_iff, true_and]
    exact ⟨fun ⟨q, hq, ht⟩ => ⟨q, hq, ht.symm⟩, fun ⟨q, hq, ht⟩ => ⟨q, hq, ht.symm⟩⟩
  · simp [h]

/-- The link is stuck iff it has no unit left to finish. -/
theorem State.nextPlan_eq_none {q : LinkPlan} : State.nextPlan q = none ↔ q = .stopAfter 0 := by
  cases q with
  | live => simp [State.nextPlan]
  | stopAfter n => cases n <;> simp [State.nextPlan]

theorem State.nextPlan_live : State.nextPlan .live = some .live := rfl

theorem State.linkStep_idle {s : State} (h : s.link.busy = false) : State.linkStep s = none := by
  simp [State.linkStep, h]

theorem State.linkStep_live {s : State} (h : s.link.busy = true) (hl : s.Live) :
    State.linkStep s = some (State.linkFinish .live s) := by
  simp [State.linkStep, h, hl, State.nextPlan]

theorem State.linkStep_stuck {s : State} (hq : s.linkPlan = .stopAfter 0) :
    State.linkStep s = none := by
  simp [State.linkStep, hq, State.nextPlan]

/-- A wait on an idle link is over at once. -/
theorem State.awaitLink_idle {s : State} (k : State → State) (h : s.link.busy = false) :
    State.awaitLink k s = k s := by
  simp [State.awaitLink, h]

/-- A wait on a busy live link is lifted by the Link step. -/
theorem State.awaitLink_live {s : State} (k : State → State) (h : s.link.busy = true)
    (hl : s.Live) : State.awaitLink k s = k (State.linkFinish .live s) := by
  simp [State.awaitLink, h, State.linkStep_live h hl]

/-- A wait on a stuck link is never over (60_exceptions.md R167). -/
theorem State.awaitLink_stuck {s : State} (k : State → State) (h : s.link.busy = true)
    (hq : s.linkPlan = .stopAfter 0) : State.awaitLink k s = s := by
  simp [State.awaitLink, h, State.linkStep_stuck hq]

/-- Everything a wait on the link can do. -/
theorem State.awaitLink_cases (k : State → State) (s : State) :
    (s.link.busy = true ∧ s.linkPlan = .stopAfter 0 ∧ State.awaitLink k s = s)
      ∨ (s.link.busy = false ∧ State.awaitLink k s = k s)
      ∨ ∃ q, s.link.busy = true ∧ State.nextPlan s.linkPlan = some q
          ∧ State.awaitLink k s = k (State.linkFinish q s) := by
  by_cases h : s.link.busy = true
  · cases hq : State.nextPlan s.linkPlan with
    | none =>
      have hp := State.nextPlan_eq_none.1 hq
      exact .inl ⟨h, hp, State.awaitLink_stuck k h hp⟩
    | some q =>
      exact .inr (.inr ⟨q, h, rfl, by simp [State.awaitLink, State.linkStep, h, hq]⟩)
  · have h' : s.link.busy = false := by simpa using h
    exact .inr (.inl ⟨h', State.awaitLink_idle k h'⟩)

/-! ### Channel -/

/-- The Channel step is taken iff transfer is enabled, units are left and the link is idle
(41_block_transfer.md R100). -/
theorem State.channelStep_eq_some {s t : State} :
    State.channelStep s = some t ↔
      (s.ch.en = true ∧ s.ch.rem ≠ 0 ∧ s.link.busy = false) ∧ t = State.channelMove s := by
  unfold State.channelStep
  split
  · next h => simp only [Option.some.injEq]; exact ⟨fun e => ⟨h, e.symm⟩, fun e => e.2.symm⟩
  · next h => simp only [reduceCtorEq, false_iff]; exact fun e => h e.1

/-! ### The operation port -/

theorem State.perform_ready {s : State} (i : Instr) (body : State → State) (h : s.op = none) :
    State.perform i body s = .next (body (State.accept i s)) := by
  simp [State.perform, h]

theorem State.perform_busy {s : State} (i : Instr) (body : State → State)
    (h : s.op.isSome = true) : State.perform i body s = .next s := by
  obtain ⟨o, ho⟩ := Option.isSome_iff_exists.1 h
  simp [State.perform, ho]

/-- Everything a presented operation can answer: it waits, or its body runs. -/
theorem State.perform_eq_next {s t : State} {i : Instr} {body : State → State} :
    State.perform i body s = .next t ↔
      (s.op.isSome = true ∧ t = s) ∨ (s.op = none ∧ t = body (State.accept i s)) := by
  cases ho : s.op <;> simp [State.perform, ho, eq_comm]

/-- The agents in their order: the Link or the Engine, whichever the parameters put first, else the
other, else the Channel. -/
theorem State.agentStep_eq_some {s t : State} :
    State.agentStep s = some t ↔
      (State.linkStep s = some t ∧ (State.engineGoesFirst s = false ∨ State.engineStep s = none))
        ∨ (State.engineStep s = some t ∧ (State.engineGoesFirst s = true ∨ State.linkStep s = none))
        ∨ (State.linkStep s = none ∧ State.engineStep s = none ∧ State.channelStep s = some t) := by
  unfold State.agentStep
  cases State.linkStep s <;> cases State.engineStep s <;> cases State.engineGoesFirst s <;> simp

theorem State.agentStep_eq_none {s : State} :
    State.agentStep s = none ↔
      State.linkStep s = none ∧ State.engineStep s = none ∧ State.channelStep s = none := by
  unfold State.agentStep
  cases State.linkStep s <;> cases State.engineStep s <;> cases State.engineGoesFirst s <;> simp

/-- What `exec` answers for `send_block`: a refusal only on a ready port. -/
theorem execSendBlock_eq (s : State) (a n : Word) (r : Half) :
    execSendBlock a n r s =
      match s.op, blockRefusal s.params a n r with
      | none, some why => .refused why
      | _, _ => State.perform (.sendBlock a n r)
          (fun t => runRepeats (.sendBlock a n r) n.toNat r.toNat (blockSetup a n r t)) s := rfl

/-- A `send_block` that is not refused runs its repeats from its setup. -/
theorem execSendBlock_defined {s : State} {a n : Word} {r : Half} (ho : s.op = none)
    (hr : blockRefusal s.params a n r = none) :
    execSendBlock a n r s = .next (runRepeats (.sendBlock a n r) n.toNat r.toNat
      (blockSetup a n r (State.accept (.sendBlock a n r) s))) := by
  simp [execSendBlock, ho, hr, State.perform]

end Sys2Proof.Machine
end

