-- ==== Sys2Proof/Laws/Block.lean ====
section
/-! SUPPORT. The repeat sequencer and the Channel under `LINK_LIVE`, in closed form. -/

namespace Sys2Proof.Machine

/-- The state once a live link has finished the unit it may hold. -/
def State.flush (s : State) : State := if s.link.busy then State.linkFinish .live s else s

theorem State.flush_idle (s : State) : (State.flush s).link.busy = false := by
  unfold State.flush
  split
  · rfl
  · next h => simpa using h

theorem State.flush_live {s : State} (hl : s.Live) : (State.flush s).Live := by
  unfold State.flush
  split
  · rfl
  · exact hl

theorem State.flush_of_idle {s : State} (h : s.link.busy = false) : State.flush s = s := by
  simp [State.flush, h]

theorem State.awaitLink_flush {s : State} (k : State → State) (hl : s.Live) :
    State.awaitLink k s = k (State.flush s) := by
  by_cases h : s.link.busy = true
  · rw [State.awaitLink_live k h hl]; simp [State.flush, h]
  · have h' : s.link.busy = false := by simpa using h
    rw [State.awaitLink_idle k h', State.flush_of_idle h']

/-- A continuation that first waits for the link. -/
abbrev Waits (k : State → State) : Prop := ∀ t : State, t.Live → k t = k (State.flush t)

theorem streamUnits_waits {k : State → State} (hk : Waits k) (n : Nat) :
    Waits (streamUnits n k) := by
  intro t ht
  cases n with
  | zero => exact hk t ht
  | succ n =>
    simp only [streamUnits]
    rw [State.awaitLink_flush _ ht, State.awaitLink_flush _ (State.flush_live ht),
      State.flush_of_idle (State.flush_idle t)]

/-- `n` units handed over and finished. -/
def moved : Nat → State → State
  | 0, s => s
  | n + 1, s => moved n (State.flush (State.channelMove s))

theorem streamUnits_live {k : State → State} (hk : Waits k) (n : Nat) {s : State} (hl : s.Live)
    (hb : s.link.busy = false) : streamUnits n k s = k (moved n s) := by
  induction n generalizing s with
  | zero => rfl
  | succ n ih =>
    have hl' : (State.channelMove s).Live := hl
    simp only [streamUnits, moved]
    rw [State.awaitLink_idle _ hb, streamUnits_waits hk n _ hl',
      ih (State.flush_live hl') (State.flush_idle _)]

/-- One unit moved and finished. -/
theorem flush_channelMove {s : State} (hl : s.Live) :
    State.flush (State.channelMove s) = { s with
      link := { busy := false, shift := Memory.read s.mem s.ch.ptr.toNat }
      wire := s.wire ++ [.unit s.dc (Memory.read s.mem s.ch.ptr.toNat)]
      ch := { s.ch with ptr := s.ch.ptr + 1, rem := s.ch.rem - 1, tc := if s.ch.rem - 1 = 0 then true else s.ch.tc } } := by
  obtain ⟨cs, dc, link, ch, rep, op, done, result, mem, wire, host, kept, seen, settles, params, plan, pace⟩ := s
  simp only [State.Live] at hl
  simp [State.flush, State.channelMove, State.linkTx, State.linkFinish, State.emit, hl]

/-- The completion flag after one unit and then `n` more. -/
theorem tc_after_unit {n : Nat} (rem : Word) (hn : n + 1 ≤ rem.toNat) (tc : Bool) :
    ((if rem - 1 = 0 then true else tc) || (n != 0 && rem - 1 == BitVec.ofNat 32 n))
      = (tc || (n + 1 != 0 && rem == BitVec.ofNat 32 (n + 1))) := by
  by_cases h0 : n = 0
  · subst h0
    by_cases h1 : rem = 1
    · subst h1; cases tc <;> rfl
    · have h2 : ¬ rem - 1 = 0 := by intro h; apply h1; bv_omega
      have h3 : ¬ rem = BitVec.ofNat 32 (0 + 1) := h1
      rw [if_neg h2]
      simp [beq_eq_false_iff_ne.2 h3]
  · by_cases h1 : rem - 1 = 0
    · have : rem.toNat = 1 := by bv_omega
      omega
    · have e : (rem - 1 == BitVec.ofNat 32 n) = (rem == BitVec.ofNat 32 (n + 1)) := by
        have := rem.isLt
        rw [Bool.eq_iff_iff, beq_iff_eq, beq_iff_eq]; constructor <;> intro h <;> bv_omega
      rw [if_neg h1, e, bne_iff_ne.2 h0, bne_iff_ne.2 (Nat.succ_ne_zero n)]

/-- The closed form of `n` units moved within a repeat. -/
theorem moved_eq (n : Nat) {s : State} (hl : s.Live) (hb : s.link.busy = false) (hd : s.dc = 1)
    (hn : n ≤ s.ch.rem.toNat) :
    moved n s = { s with
      link := { busy := false, shift := if n = 0 then s.link.shift else Memory.read s.mem (s.ch.ptr + BitVec.ofNat 32 n - 1).toNat }
      wire := s.wire ++ blockUnits s.mem s.ch.ptr n
      ch := { s.ch with ptr := s.ch.ptr + BitVec.ofNat 32 n, rem := s.ch.rem - BitVec.ofNat 32 n, tc := s.ch.tc || (n != 0 && s.ch.rem == BitVec.ofNat 32 n) } } := by
  induction n generalizing s with
  | zero =>
    obtain ⟨cs, dc, ⟨busy, shift⟩, ch, rep, op, done, result, mem, wire, host, kept, seen, settles, params, plan, pace⟩ := s
    simp only at hb
    simp [moved, blockUnits, hb]
  | succ n ih =>
    have hrem : s.ch.rem ≠ 0 := by intro h; rw [h] at hn; simp at hn
    rw [moved, flush_channelMove hl, ih (by exact hl) rfl (by exact hd)]
    · have hp : s.ch.ptr + 1 + BitVec.ofNat 32 n = s.ch.ptr + BitVec.ofNat 32 (n + 1) := by
        bv_omega
      have hr : s.ch.rem - 1 - BitVec.ofNat 32 n = s.ch.rem - BitVec.ofNat 32 (n + 1) := by
        bv_omega
      simp only [hp, hr, hd]
      congr 1
      · congr 1
        by_cases h0 : n = 0
        · subst h0; simp
        · simp [h0]
      · congr 1
        exact tc_after_unit s.ch.rem hn s.ch.tc
      · simp only [blockUnits, List.range_succ_eq_map, List.map_cons, List.map_map, List.append_assoc,
          List.cons_append, List.nil_append]
        congr 2
        · simp [blockAddr]
        · apply List.map_congr_left
          intro i _
          simp only [Function.comp, blockAddr]
          congr 3
          bv_omega
    · simp only; bv_omega

theorem runRepeats_waits (i : Instr) {n : Nat} (hn : n ≠ 0) (r : Nat) :
    Waits (runRepeats i n r) := by
  intro t ht
  cases r with
  | zero =>
    simp only [runRepeats]
    rw [State.awaitLink_flush _ (by exact ht), State.awaitLink_flush _ (by exact State.flush_live ht)]
    congr 1
    unfold State.flush
    by_cases h : t.link.busy = true <;> simp [h, leaveLoop, State.linkFinish, State.emit, State.setOp]
  | succ r =>
    obtain ⟨m, rfl⟩ := Nat.exists_eq_succ_of_ne_zero hn
    simp only [runRepeats, streamUnits]
    rw [State.awaitLink_flush _ (by exact ht), State.awaitLink_flush _ (by exact State.flush_live ht)]
    congr 1
    unfold State.flush
    by_cases h : t.link.busy = true <;> simp [h, startRepeat, State.linkFinish, State.emit, State.setOp]

theorem endRepeat_flush (t : State) : endRepeat (State.flush t) = State.flush (endRepeat t) := by
  unfold State.flush
  by_cases h : t.link.busy = true <;> simp [h, endRepeat, State.linkFinish, State.emit]

/-- The closed form of the loop of 41_block_transfer.md R99 from an idle live link. -/
theorem runRepeats_live (i : Instr) {n : Nat} (hn : n ≠ 0) (r : Nat) {s : State} (hl : s.Live)
    (hb : s.link.busy = false) (hd : s.dc = 1) (ht : s.ch.tc = false) (hc : s.ch.cnt.toNat = n) :
    runRepeats i n r s = { s with
      link := { busy := false, shift := if r = 0 then s.link.shift else Memory.read s.mem (s.ch.src + s.ch.cnt - 1).toNat }
      wire := s.wire ++ copies r (blockUnits s.mem s.ch.src n)
      ch := { s.ch with en := false, ptr := if r = 0 then s.ch.ptr else s.ch.src + s.ch.cnt, rem := if r = 0 then s.ch.rem else 0 }
      rep := s.rep - BitVec.ofNat 16 r
      op := none
      done := true
      result := 0 } := by
  induction r generalizing s with
  | zero =>
    have hi : (leaveLoop i s).link.busy = false := hb
    obtain ⟨cs, dc, ⟨busy, shift⟩, ch, rep, op, done, result, mem, wire, host, kept, seen, settles, params, plan, pace⟩ := s
    simp only at hb
    simp only [runRepeats]
    rw [State.awaitLink_idle _ hi]
    simp [State.complete, leaveLoop, State.setOp, copies, hb]
  | succ r ih =>
    have hw : Waits (fun t => runRepeats i n r (endRepeat t)) := by
      intro t htl
      simp only
      rw [runRepeats_waits i hn r _ (by exact htl), endRepeat_flush]
    have hcn : s.ch.cnt = BitVec.ofNat 32 n := by rw [← hc]; simp
    simp only [runRepeats]
    rw [streamUnits_live hw n (by exact hl) (by exact hb),
      moved_eq n (by exact hl) (by exact hb) (by exact hd) (by exact hc ▸ Nat.le_refl _)]
    rw [ih (by exact hl) rfl (by exact hd) rfl (by exact hc)]
    simp only [endRepeat, startRepeat, State.setOp, hn, if_false, hcn]
    congr 1
    · by_cases h0 : r = 0 <;> simp [h0]
    · by_cases h0 : r = 0 <;> simp [h0, ht]
    · bv_omega
    · simp [copies, List.replicate_succ]

end Sys2Proof.Machine
end

