-- ==== Sys2Proof/Laws/Encoding.lean ====
section
/-! SUPPORT. The fields of a packed word, and a word from its fields (30_encoding.md R65). -/

namespace Sys2Proof

open BitVec

/-- The fields of a packed word are the values packed. -/
theorem packWord_fields (o : BitVec 4) (v : Half) (n : Word) (r : Half) (a : Word) :
    fieldOpc (packWord o v n r a) = o ∧ fieldZ0 (packWord o v n r a) = 0
      ∧ fieldV (packWord o v n r a) = v ∧ fieldN (packWord o v n r a) = n
      ∧ fieldZ1 (packWord o v n r a) = 0 ∧ fieldR (packWord o v n r a) = r
      ∧ fieldA (packWord o v n r a) = a := by
  have key : ∀ (s l : Nat), extractLsb' s l (packWord o v n r a)
      = extractLsb' s l (o ++ (0 : BitVec 12) ++ v ++ n ++ (0 : BitVec 16) ++ r ++ a) :=
    fun _ _ => rfl
  refine ⟨?_, ?_, ?_, ?_, ?_, ?_, ?_⟩ <;>
    simp (disch := decide) only [fieldOpc, fieldZ0, fieldV, fieldN, fieldZ1, fieldR, fieldA, key,
      extractLsb'_append_eq_of_le, extractLsb'_append_eq_of_add_le, Nat.reduceSub,
      extractLsb'_eq_self]

/-- A word is the concatenation of its fields. -/
theorem word_eq_fields (w : OpWord) :
    w = fieldOpc w ++ fieldZ0 w ++ fieldV w ++ fieldN w ++ fieldZ1 w ++ fieldR w ++ fieldA w := by
  simp only [fieldOpc, fieldZ0, fieldV, fieldN, fieldZ1, fieldR, fieldA]
  have h1 : extractLsb' 124 4 w ++ extractLsb' 112 12 w = extractLsb' 112 16 w :=
    extractLsb'_append_extractLsb'_eq_extractLsb' rfl
  have h2 : extractLsb' 112 16 w ++ extractLsb' 96 16 w = extractLsb' 96 32 w :=
    extractLsb'_append_extractLsb'_eq_extractLsb' rfl
  have h3 : extractLsb' 96 32 w ++ extractLsb' 64 32 w = extractLsb' 64 64 w :=
    extractLsb'_append_extractLsb'_eq_extractLsb' rfl
  have h4 : extractLsb' 64 64 w ++ extractLsb' 48 16 w = extractLsb' 48 80 w :=
    extractLsb'_append_extractLsb'_eq_extractLsb' rfl
  have h5 : extractLsb' 48 80 w ++ extractLsb' 32 16 w = extractLsb' 32 96 w :=
    extractLsb'_append_extractLsb'_eq_extractLsb' rfl
  have h6 : extractLsb' 32 96 w ++ extractLsb' 0 32 w = extractLsb' 0 128 w :=
    extractLsb'_append_extractLsb'_eq_extractLsb' rfl
  rw [h1, h2, h3, h4, h5, h6]
  exact extractLsb'_eq_self.symm

/-- A byte operand stands in the low byte of `V`, under a zero high byte. -/
theorem byteInV_fields (b : Byte) : hi (byteInV b) = 0 ∧ lo (byteInV b) = b := by
  have key : ∀ (s l : Nat), extractLsb' s l (byteInV b) = extractLsb' s l ((0 : Byte) ++ b) :=
    fun _ _ => rfl
  constructor <;>
    simp (disch := decide) only [hi, lo, key, extractLsb'_append_eq_of_le,
      extractLsb'_append_eq_of_add_le, Nat.reduceSub, extractLsb'_eq_self]

/-- A 16-bit value is its high byte and its low byte. -/
theorem hi_append_lo (v : Half) : hi v ++ lo v = v := by
  simp only [hi, lo]
  have h1 : extractLsb' 8 8 v ++ extractLsb' 0 8 v = extractLsb' 0 16 v :=
    extractLsb'_append_extractLsb'_eq_extractLsb' rfl
  rw [h1]
  exact extractLsb'_eq_self

/-- Writing `n` into the `N` of a `send_block` word gives the word of the operation with that count. -/
theorem withN_encode (a n : Word) (r : Half) :
    withN (encode (.sendBlock a 0 r)) n = encode (.sendBlock a n r) := by
  apply BitVec.eq_of_getLsbD_eq
  intro i hi
  simp only [withN, encode, packWord, getLsbD_append, getLsbD_extractLsb', Instr.opc]
  by_cases h1 : i < 32
  · simp [h1, show i < 64 by omega]
  by_cases h2 : i < 48
  · simp [h1, show i < 64 by omega, show i - 32 < 16 by omega]
  by_cases h3 : i < 64
  · simp [h1, h3, show ¬ i - 32 < 16 by omega, show i - 32 - 16 < 16 by omega]
  by_cases h4 : i < 96
  · simp [h1, h3, show ¬ i - 32 < 16 by omega, show ¬ i - 32 - 16 < 16 by omega,
      show i - 64 < 32 by omega, show i - 32 - 16 - 16 < 32 by omega]
    congr 1
  · simp [h1, h3, show ¬ i - 32 < 16 by omega, show ¬ i - 32 - 16 < 16 by omega,
      show ¬ i - 64 < 32 by omega, show ¬ i - 32 - 16 - 16 < 32 by omega,
      show i - 64 - 32 < 32 by omega, show 96 + (i - 64 - 32) = i by omega]

end Sys2Proof
end

