-- ==== Sys2Proof/Laws/Operands.lean ====
section
/-! SUPPORT. Operand values and scratch addresses (30_encoding.md R70, 20_memory.md R47). -/

namespace Sys2Proof.Machine

/-- Everything a `send_block` that is not refused satisfies (R70). -/
theorem blockRefusal_eq_none {p : Params} {a n : Word} {r : Half} :
    blockRefusal p a n r = none ↔
      (r = 0 ∨ n ≠ 0 ∧ a.toNat + n.toNat ≤ 2 ^ 32 ∧ p.touchesDevice a.toNat n.toNat = false) := by
  unfold blockRefusal
  by_cases h1 : r = 0
  · rw [if_pos h1]
    exact ⟨fun _ => .inl h1, fun _ => rfl⟩
  rw [if_neg h1]
  by_cases h2 : n = 0
  · rw [if_pos h2]
    exact ⟨fun h => (by cases h), fun h => h.elim (absurd · h1) (fun h => absurd h2 h.1)⟩
  rw [if_neg h2, show Config.spaceSize = 2 ^ 32 from rfl]
  by_cases h3 : 2 ^ 32 < a.toNat + n.toNat
  · rw [if_pos h3]
    exact ⟨fun h => (by cases h), fun h => h.elim (absurd · h1) (fun h => by omega)⟩
  rw [if_neg h3]
  by_cases h4 : p.touchesDevice a.toNat n.toNat = true
  · rw [if_pos h4]
    exact ⟨fun h => (by cases h),
      fun h => h.elim (absurd · h1) (fun h => by rw [h4] at h; cases h.2.2)⟩
  · rw [if_neg h4]
    exact ⟨fun _ => .inr ⟨h2, by omega, by simpa using h4⟩, fun _ => rfl⟩

/-- The pairs `fill_span` writes are clamped to the scratch capacity (42_fill_engine.md R118). -/
theorem fillCount_eq_min (n : Word) : fillCount n = min n.toNat 320 := rfl

/-- A range inside the scratch region of admissible parameters is plain memory. -/
theorem Params.Ok.plain {p : Params} (hok : p.Ok) {a n : Nat} (ha : p.scratchBase.toNat ≤ a)
    (hn : a + n ≤ p.scratchBase.toNat + Config.scratchCap) : p.touchesDevice a n = false := by
  have hpl := hok.scratchPlain
  rw [Params.touchesDevice, List.any_eq_false] at hpl ⊢
  intro q hq
  have h := hpl q hq
  simp only [overlaps, Bool.and_eq_true, decide_eq_true_eq] at h ⊢
  intro hc
  apply h
  omega

end Sys2Proof.Machine
end

