-- ==== Sys2Proof/Laws/Pace.lean ====
section
/-! SUPPORT. The pace is read where an operation is presented and nowhere else: every statement of an
operation, and so a whole operation, does the same at both paces. -/

namespace Sys2Proof.Machine

/-- `s` at another pace. -/
def State.atPace (q : Pace) (s : State) : State := { s with pace := q }

/-- An outcome at another pace. -/
def atPaceOutcome (q : Pace) :
    Host.Outcome State Fault Refusal → Host.Outcome State Fault Refusal
  | .next t => .next (t.atPace q)
  | .fault f => .fault f
  | .refused why => .refused why

/-- `f` does the same at every pace. -/
abbrev PaceFree (f : State → State) : Prop := ∀ q s, f (State.atPace q s) = State.atPace q (f s)

theorem assertCs_paceFree : PaceFree State.assertCs := by
  intro q s
  simp only [State.assertCs]
  show (if s.cs = true then _ else _) = _
  split <;> rfl

theorem releaseCs_paceFree : PaceFree State.releaseCs := by
  intro q s
  simp only [State.releaseCs]
  show (if s.cs = true then _ else _) = _
  split <;> rfl

theorem linkStep_atPace (q : Pace) (s : State) :
    State.linkStep (s.atPace q) = (State.linkStep s).map (State.atPace q) := by
  simp only [State.linkStep]
  show (if s.link.busy = true then Option.map _ (State.nextPlan s.linkPlan) else none) = _
  split
  · cases State.nextPlan s.linkPlan <;> rfl
  · rfl

theorem awaitLink_paceFree {k : State → State} (hk : PaceFree k) : PaceFree (State.awaitLink k) := by
  intro q s
  simp only [State.awaitLink, linkStep_atPace]
  show (if s.link.busy = true then _ else _) = _
  split
  · cases State.linkStep s with
    | none => rfl
    | some t => exact hk q t
  · exact hk q s

theorem complete_paceFree (v : Word) : PaceFree (State.complete v) := fun _ _ => rfl

theorem sendUnit_paceFree (i : Instr) (p : Pos) (d : Bit) (u : Byte) :
    PaceFree (sendUnit i p d u) := by
  intro q s
  simp only [sendUnit]
  rw [show State.assertCs (State.setDc d (s.atPace q)) = (State.assertCs (State.setDc d s)).atPace q
    from assertCs_paceFree q (State.setDc d s)]
  rfl

theorem blockSetup_paceFree (a n : Word) (r : Half) : PaceFree (blockSetup a n r) := by
  intro q s
  simp only [blockSetup]
  rw [show State.assertCs (State.setDc 1 (s.atPace q)) = (State.assertCs (State.setDc 1 s)).atPace q
    from assertCs_paceFree q (State.setDc 1 s)]
  rfl

theorem streamUnits_paceFree {k : State → State} (hk : PaceFree k) (n : Nat) :
    PaceFree (streamUnits n k) := by
  induction n with
  | zero => exact hk
  | succ n ih =>
    exact awaitLink_paceFree (k := fun t => streamUnits n k (State.channelMove t))
      (fun q s => ih q (State.channelMove s))

theorem runRepeats_paceFree (i : Instr) (n r : Nat) : PaceFree (runRepeats i n r) := by
  induction r with
  | zero => exact fun q s => awaitLink_paceFree (complete_paceFree 0) q (leaveLoop i s)
  | succ r ih =>
    exact fun q s => streamUnits_paceFree (k := fun t => runRepeats i n r (endRepeat t))
      (fun q t => ih q (endRepeat t)) n q (startRepeat i s)

theorem perform_atPace (q : Pace) (i : Instr) {body : State → State} (hb : PaceFree body)
    (s : State) : State.perform i body (s.atPace q) = atPaceOutcome q (State.perform i body s) := by
  simp only [State.perform]
  show (match s.op with | some _ => _ | none => _) = _
  cases s.op with
  | some o => rfl
  | none =>
    show Host.Outcome.next (body ((State.accept i s).atPace q)) = _
    rw [hb]
    rfl

/-- A whole operation does the same at both paces. -/
theorem exec_atPace (q : Pace) (i : Instr) (s : State) :
    exec i (s.atPace q) = atPaceOutcome q (exec i s) := by
  cases i with
  | select =>
    exact perform_atPace q _ (body := selectBody)
      (fun q s => by simp only [selectBody, assertCs_paceFree q s, complete_paceFree 0 q]) s
  | deselect =>
    exact perform_atPace q _ (body := deselectBody)
      (fun q s => by simp only [deselectBody, releaseCs_paceFree q s, complete_paceFree 0 q]) s
  | sendCommand b =>
    exact perform_atPace q _ (body := fun t => State.awaitLink (State.complete 0) _)
      (fun q s => by
        simp only [sendUnit_paceFree _ _ _ _ q s]
        exact awaitLink_paceFree (complete_paceFree 0) q _) s
  | sendData8 b =>
    exact perform_atPace q _ (body := fun t => State.awaitLink (State.complete 0) _)
      (fun q s => by
        simp only [sendUnit_paceFree _ _ _ _ q s]
        exact awaitLink_paceFree (complete_paceFree 0) q _) s
  | sendData16 w =>
    exact perform_atPace q _
      (body := fun t => State.awaitLink
        (fun u => State.awaitLink (State.complete 0) (sendLow w u)) _)
      (fun q s => by
        simp only [sendUnit_paceFree _ _ _ _ q s]
        exact awaitLink_paceFree (k := fun u => State.awaitLink (State.complete 0) (sendLow w u))
          (fun q t => awaitLink_paceFree (complete_paceFree 0) q (sendLow w t)) q _) s
  | sendBlock a n r =>
    show execSendBlock a n r (s.atPace q) = atPaceOutcome q (execSendBlock a n r s)
    have whole := perform_atPace q (.sendBlock a n r)
      (body := fun t => runRepeats (.sendBlock a n r) n.toNat r.toNat (blockSetup a n r t))
      (fun q t => by
        simp only [blockSetup_paceFree a n r q t]
        exact runRepeats_paceFree _ _ _ q _) s
    simp only [execSendBlock, whole]
    show (match s.op, blockRefusal s.params a n r with | none, some why => _ | _, _ => _) = _
    cases s.op <;> cases blockRefusal s.params a n r <;> rfl
  | fillSpan c n => exact perform_atPace q _ (body := fillBody c n) (fun _ _ => rfl) s

theorem channelStep_atPace (q : Pace) (s : State) :
    State.channelStep (s.atPace q) = (State.channelStep s).map (State.atPace q) := by
  simp only [State.channelStep]
  show (if s.ch.en = true ∧ s.ch.rem ≠ 0 ∧ s.link.busy = false then _ else _) = _
  split <;> rfl

theorem blockNext_paceFree (i : Instr) : PaceFree (blockNext i) := by
  intro q s
  simp only [blockNext]
  show (if s.rep = 0 then (if (leaveLoop i s).link.busy = true then _ else _) else _) = _
  repeat' split
  all_goals rfl

theorem engineStart_paceFree (i : Instr) : PaceFree (engineStart i) := by
  intro q s
  cases i with
  | select => simp only [engineStart, selectBody, assertCs_paceFree q s, complete_paceFree 0 q]
  | deselect => simp only [engineStart, deselectBody, releaseCs_paceFree q s, complete_paceFree 0 q]
  | sendCommand b => exact sendUnit_paceFree _ _ _ _ q s
  | sendData8 b => exact sendUnit_paceFree _ _ _ _ q s
  | sendData16 w => exact sendUnit_paceFree _ _ _ _ q s
  | sendBlock a n r =>
    simp only [engineStart, blockSetup_paceFree a n r q s]
    exact blockNext_paceFree _ q _
  | fillSpan c n => rfl

theorem engineStep_atPace (q : Pace) (s : State) :
    State.engineStep (s.atPace q) = (State.engineStep s).map (State.atPace q) := by
  simp only [State.engineStep]
  show (match s.op with | none => none | some o => engineFrom o.instr o.pos (s.atPace q)) = _
  cases s.op with
  | none => rfl
  | some o =>
    obtain ⟨i, p⟩ := o
    cases p <;> simp only [engineFrom]
    case start => rw [engineStart_paceFree i q s]; rfl
    case highSent =>
      cases i <;> simp only [Option.map_none]
      show (if s.link.busy = true then _ else _) = _
      split <;> rfl
    case waitTc =>
      show (if s.ch.tc = true then some (blockNext i ((endRepeat s).atPace q)) else _) = _
      rw [blockNext_paceFree]
      split <;> rfl
    all_goals
      show (if s.link.busy = true then _ else _) = _
      split <;> rfl

/-- One agent's step does the same at both paces. -/
theorem agentStep_atPace (q : Pace) (s : State) :
    State.agentStep (s.atPace q) = (State.agentStep s).map (State.atPace q) := by
  simp only [State.agentStep, linkStep_atPace, channelStep_atPace, engineStep_atPace]
  show (if State.engineGoesFirst s = true then _ else _) = _
  split <;> cases State.engineStep s <;> cases State.linkStep s <;>
    cases State.channelStep s <;> rfl

end Sys2Proof.Machine
end

