-- ==== Sys2Proof/Laws/PerInstr.lean ====
section
/-! SUPPORT. Per instruction: the operation code that its word carries, and the fields the spec wants
zero (30_encoding.md R65 to R67). -/

namespace Sys2Proof.Laws.CodeAndZeros

/-- The word of `i` carries the operation code of `i`, and `Z0` and `Z1` are zero. -/
def Statement (i : Instr) : Prop :=
  fieldOpc (encode i) = i.opc ∧ fieldZ0 (encode i) = 0 ∧ fieldZ1 (encode i) = 0

theorem of_pack {i : Instr} {v : Half} {n : Word} {r : Half} {a : Word}
    (h : encode i = packWord i.opc v n r a) : Statement i := by
  obtain ⟨h1, h2, -, -, h3, -, -⟩ := packWord_fields i.opc v n r a
  exact ⟨by rw [h, h1], by rw [h, h2], by rw [h, h3]⟩

theorem select : Statement .select := of_pack rfl
theorem deselect : Statement .deselect := of_pack rfl
theorem sendCommand (b : Byte) : Statement (.sendCommand b) := of_pack rfl
theorem sendData8 (b : Byte) : Statement (.sendData8 b) := of_pack rfl
theorem sendData16 (w : Half) : Statement (.sendData16 w) := of_pack rfl
theorem sendBlock (a n : Word) (r : Half) : Statement (.sendBlock a n r) := of_pack rfl
theorem fillSpan (c : Half) (n : Word) : Statement (.fillSpan c n) := of_pack rfl

end Sys2Proof.Laws.CodeAndZeros
end

