-- ==== Sys2Proof/Laws/Receiver.lean ====
section
/-! SUPPORT. The receiver: a pixel read sees the last pixel written there and no other; what one event does
while a delay is owed; and the fold over a trace cut in two, or past the last settle marker. -/

namespace Sys2Proof.Machine

theorem gramFind_insert (g : List (Nat × Half)) (k x : Nat) (v : Half) :
    gramFind (gramInsert g k v) x = if x = k then some v else gramFind g x := by
  induction g with
  | nil => rfl
  | cons c rest ih =>
    obtain ⟨p, q⟩ := c
    simp only [gramInsert]
    split
    · rfl
    · split
      · next h =>
        subst h
        by_cases hx : x = k <;> simp [gramFind, hx]
      · next h1 h2 =>
        by_cases hp : x = p
        · simp [gramFind, hp, show p ≠ k by omega]
        · simp [gramFind, hp, ih]

/-- Frame-memory keys of positions inside the frame's columns are distinct. -/
theorem pixelKey_inj {c1 r1 c2 r2 : Nat} (h1 : c1 < Config.rxWidth) (h2 : c2 < Config.rxWidth) :
    pixelKey c1 r1 = pixelKey c2 r2 ↔ c1 = c2 ∧ r1 = r2 := by
  simp only [pixelKey, Config.rxWidth] at *
  constructor
  · intro h; omega
  · rintro ⟨rfl, rfl⟩; rfl

/-- Everything a pixel put inside the window and the frame does. -/
theorem Rx.putPixel_inside {rx : Rx} (v : Half) (hw : rx.windowOk = true)
    (hc : rx.col.toNat < Config.rxWidth) (hr : rx.row.toNat < Config.rxHeight) :
    Rx.putPixel v rx
      = { rx with gram := gramInsert rx.gram (pixelKey rx.col.toNat rx.row.toNat) v } := by
  simp only [Rx.putPixel]
  rw [if_pos (by simp [hw, hc, hr])]

theorem Rx.pixel_advance (p : Params) (rx : Rx) (col row : Nat) :
    (Rx.advance p rx).pixel col row = rx.pixel col row := by
  unfold Rx.advance
  repeat' split
  all_goals rfl

/-- No settle markers: nothing changes between events. -/
theorem rxSettles_nil (i : Nat) (rx : Rx) : rxSettles [] i rx = rx := rfl

/-- Settle markers change nothing where no delay is owed. -/
theorem rxSettles_of_none (ds : List (Nat × Settle)) (i : Nat) {rx : Rx} (h : rx.owed = none) :
    rxSettles ds i rx = rx := by
  unfold rxSettles
  induction ds with
  | nil => rfl
  | cons d ds ih =>
    have hd : rxSettle d.2 rx = rx := by simp [rxSettle, h]
    simp only [List.foldl_cons, hd, ite_self]
    exact ih

@[simp] theorem Rx.pixel_freeGram (rx : Rx) (col row : Nat) :
    rx.freeGram.pixel col row = Config.rxPixel (rx.gen + 1) col row := rfl

/-- While a delay is owed every event comes too soon. -/
theorem rxStep_of_owed (p : Params) {rx : Rx} (h : rx.owed.isSome = true) (e : WireEvent) :
    rxStep p rx e = .error .tooSoon := by simp [rxStep, h]

/-- `Select` changes nothing where no delay is owed. -/
theorem rxStep_select (p : Params) {rx : Rx} (h : rx.owed = none) :
    rxStep p rx .select = .ok rx := by simp [rxStep, h]

/-- Everything a release does where no delay is owed. -/
theorem rxStep_deselect (p : Params) {rx : Rx} (h : rx.owed = none) :
    rxStep p rx .deselect
      = if rx.midItem p then .error .releasedMidItem else .ok { rx with released := true } := by
  simp [rxStep, h, rxRelease]

/-- Settle markers at one place either change nothing or leave no delay owed. -/
theorem rxSettles_same_or_none (ds : List (Nat × Settle)) (i : Nat) (rx : Rx) :
    rxSettles ds i rx = rx ∨ (rxSettles ds i rx).owed = none := by
  induction ds generalizing rx with
  | nil => exact .inl rfl
  | cons d ds ih =>
    have cons_eq : rxSettles (d :: ds) i rx
        = rxSettles ds i (if d.1 = i then rxSettle d.2 rx else rx) := rfl
    by_cases h : d.1 = i ∧ rx.owed = some d.2
    · rw [cons_eq, if_pos h.1, rxSettles_of_none ds i (by simp [rxSettle, h.2])]
      exact .inr (by simp [rxSettle, h.2])
    · have same : (if d.1 = i then rxSettle d.2 rx else rx) = rx := by
        split
        · next hi => simp only [rxSettle, if_neg (fun ho => h ⟨hi, ho⟩)]
        · rfl
      rw [cons_eq, same]
      exact ih rx

theorem rxSettles_idem (ds : List (Nat × Settle)) (i : Nat) (rx : Rx) :
    rxSettles ds i (rxSettles ds i rx) = rxSettles ds i rx := by
  rcases rxSettles_same_or_none ds i rx with h | h
  · rw [h, h]
  · exact rxSettles_of_none ds i h

/-- The fold over a trace cut in two. -/
theorem rxFold_append (p : Params) (ds : List (Nat × Settle)) (es fs : List WireEvent) (i : Nat)
    {rx t : Rx} (h : rxFold p ds i rx es = .ok t) :
    rxFold p ds i rx (es ++ fs) = rxFold p ds (i + es.length) t fs := by
  induction es generalizing i rx with
  | nil =>
    simp only [rxFold, Except.ok.injEq] at h
    subst h
    cases fs <;> simp [rxFold, rxSettles_idem]
  | cons e es ih =>
    simp only [rxFold, List.cons_append, List.length_cons] at h ⊢
    split at h
    · rw [ih _ h, Nat.add_right_comm, Nat.add_assoc]
    · cases h

/-- Past the last settle marker the fold goes on as without markers. -/
theorem rxFold_past_markers (p : Params) (ds : List (Nat × Settle)) (es : List WireEvent) (i j : Nat)
    (rx : Rx) (h : ∀ d ∈ ds, d.1 < i) : rxFold p ds i rx es = rxFold p [] j rx es := by
  have none_here : ∀ (k : Nat) (t : Rx), i ≤ k → rxSettles ds k t = t := by
    intro k t hk
    unfold rxSettles
    induction ds with
    | nil => rfl
    | cons d ds ih =>
      have := h d (by simp)
      rw [List.foldl_cons, if_neg (by omega)]
      exact ih (fun d hd => h d (by simp [hd]))
  suffices ∀ (es : List WireEvent) (k j : Nat) (t : Rx), i ≤ k →
      rxFold p ds k t es = rxFold p [] j t es from this es i j rx (Nat.le_refl i)
  intro es
  induction es with
  | nil => intro k j t hk; simp only [rxFold, none_here k t hk, rxSettles_nil]
  | cons e es ih =>
    intro k j t hk
    simp only [rxFold, none_here k t hk, rxSettles_nil]
    split
    · exact ih _ _ _ (by omega)
    · rfl

end Sys2Proof.Machine
end

