-- ==== Sys2Proof/Laws/Step.lean ====
section
/-! SUPPORT. Runs of the machine step by step, the end of the `done` pulse, and what a wait on the link
preserves. -/

namespace Sys2Proof.Machine

/-- A run whose first step answers a next state goes on from there. -/
theorem run_succ {s t : State} (k : Nat) (h : step s = .next t) : run (k + 1) s = run k t := by
  have h' : core.step s = .next t := h
  simp only [run, Host.Core.run, h']
  rfl

/-- A run in two parts. -/
theorem run_add {s t : State} {k l : Nat} (h : run k s = .next t) : run (k + l) s = run l t := by
  induction k generalizing s with
  | zero => cases h; simp
  | succ k ih =>
    rw [Nat.add_right_comm]
    cases hs : step s with
    | next u => rw [run_succ _ hs] at h ⊢; exact ih h
    | fault f => cases f
    | refused r =>
      have h' : core.step s = .refused r := hs
      simp only [run, Host.Core.run, h'] at h
      cases h

/-- What holds before a wait, and after it whether or not the Link step lifts it, holds of its end. -/
theorem State.awaitLink_keeps (P : State → Prop) (k : State → State) (s : State) (hs : P s)
    (hk : P (k s)) (hf : ∀ q, P (k (State.linkFinish q s))) : P (State.awaitLink k s) := by
  rcases State.awaitLink_cases k s with ⟨-, -, e⟩ | ⟨-, e⟩ | ⟨q, -, -, e⟩ <;> rw [e]
  · exact hs
  · exact hk
  · exact hf q

/-- The end of the `done` pulse enables and disables no agent. -/
theorem engineFrom_endPulse (i : Instr) (p : Pos) (s : State) :
    engineFrom i p (State.endPulse s) = none ↔ engineFrom i p s = none := by
  cases p <;> simp only [engineFrom, State.endPulse_link, State.endPulse_ch]
  · simp
  · cases i <;> simp
    by_cases h : s.link.busy <;> simp [h]
  · by_cases h : s.link.busy <;> simp [h]
  · by_cases h : s.ch.tc <;> simp [h]
  · by_cases h : s.link.busy <;> simp [h]

/-- One machine step while an operation is in progress and no `done` pulse is up. -/
theorem step_of_agentStep {s t : State} (ho : s.op.isSome = true) (hd : s.done = false)
    (h : State.agentStep s = some t) : step s = .next t := by
  obtain ⟨o, ho⟩ := Option.isSome_iff_exists.1 ho
  have e : State.endPulse s = s := by
    obtain ⟨cs, dc, link, ch, rep, op, done⟩ := s
    simp only at hd
    subst hd
    rfl
  simp only [step, ho, busyStep, e, h]

/-- The level of chip-select after a trace in two parts. -/
theorem selectedAfter_append (b : Bool) (es fs : List WireEvent) :
    selectedAfter b (es ++ fs) = (selectedAfter b es).bind (fun c => selectedAfter c fs) := by
  induction es generalizing b with
  | nil => rfl
  | cons e es ih => cases e <;> cases b <;> simp [selectedAfter, ih]

end Sys2Proof.Machine
end

