-- ==== Sys2Proof/Tests/Slice0.lean ====
section
/-! SUPPORT. Tests on the spec's own vectors (95_test_vectors.md), the ill-formed terms WellFormed
refuses, and, for every obligation with hypotheses, a concrete witness that meets them together. -/

namespace Sys2Proof.Tests

open Sys2Proof.Machine

/-! ### WellFormed (30_encoding.md R70) -/

theorem test_wf_zero_count : (Instr.sendBlock 0x20000000 0 1).wf = false := by decide
theorem test_wf_past_top : (Instr.sendBlock 0xFFFFFFFF 2 1).wf = false := by decide
theorem test_wf_at_top : (Instr.sendBlock 0xFFFFFFFF 1 1).wf = true := by decide
theorem test_wf_zero_repeats : (Instr.sendBlock 0xFFFFFFFF 0xFFFFFFFF 0).wf = true := by decide

/-! ### Decoding (95_test_vectors.md V2) -/

theorem test_decode_select : decode (ofLanes 0x10000000 0 0 0) = some .select := by decide
theorem test_decode_deselect : decode (ofLanes 0x20000000 0 0 0) = some .deselect := by decide
theorem test_decode_send_command :
    decode (ofLanes 0x300000FF 0 0 0) = some (.sendCommand 0xFF) := by decide
theorem test_decode_send_data8 :
    decode (ofLanes 0x40000000 0 0 0) = some (.sendData8 0x00) := by decide
theorem test_decode_send_data16 :
    decode (ofLanes 0x5000FFFF 0 0 0) = some (.sendData16 0xFFFF) := by decide
theorem test_decode_send_block :
    decode (ofLanes 0x60000000 0x00025800 0x00000001 0x20010000)
      = some (.sendBlock 0x20010000 153600 1) := by decide
theorem test_decode_fill_span :
    decode (ofLanes 0x7000FFFF 0xFFFFFFFF 0 0) = some (.fillSpan 0xFFFF 0xFFFFFFFF) := by decide

/-- The reserved words of V2. -/
def reservedWords : List OpWord :=
  [ ofLanes 0 0 0 0, ofLanes 0x80000000 0 0 0, ofLanes 0xF0000000 0 0 0,
    ofLanes 0x10000000 0 0 1, ofLanes 0x10010000 0 0 0, ofLanes 0x30000100 0 0 0,
    ofLanes 0x40000155 0 0 0, ofLanes 0x50000001 1 0 0,
    ofLanes 0x60000001 4 1 0x20000000, ofLanes 0x60000000 4 0x00010001 0x20000000,
    ofLanes 0x70001234 3 1 0 ]

theorem test_reserved_words : (reservedWords.all fun w => (decode w).isNone) = true := by decide
theorem test_reserved_rows :
    (reservedWords.all fun w => opcodeTable.all fun row => !row.accepts w) = true := by decide

theorem test_table_word :
    decodeTableWord 128 0x5000013F000000000000000000000000 = some (.sendData16 319) := by
  decide

theorem test_asm : (Instr.sendBlock 256 1 3).asm = "send_block 256, 1, 3" := by
  decide

/-! ### Small states -/

/-- The reset state with chip-select active. -/
def selected : State := { State.reset with cs := true, wire := [.select] }
/-- A link that finishes no unit. -/
def stuck : State := { State.reset with linkPlan := .stopAfter 0 }
/-- A link that finishes one more unit. -/
def oneMore : State := { State.reset with linkPlan := .stopAfter 1 }
/-- The reset state at the pace of whole operations. -/
def whole : State := { State.reset with pace := .operation }
/-- A receiver that goes back to the window's start, with the Engine first at trace length 1. -/
def otherParams : Params := { Params.reset with rxWrapAtEnd := true, engineFirst := [1] }
/-- `mem[0x100] = A5` (V5). -/
def oneByte : State := { State.reset with mem := [(0x100, 0xA5)] }
/-- A device at 0x40000000, four bytes. -/
def withDevice : State :=
  { State.reset with params := { Params.reset with devices := [(0x40000000, 4)] } }
/-- The scratch region against the top of buffer space (20_memory.md R47). -/
def highScratch : State :=
  { State.reset with params := { Params.reset with scratchBase := 0xFFFFFD80 } }

/-- The wire a step leaves. -/
def wireOf (o : Host.Outcome State Fault Refusal) : List WireEvent :=
  match o with
  | .next t => t.wire
  | _ => []
/-- The result a step leaves. -/
def resultOf (o : Host.Outcome State Fault Refusal) : Option Word :=
  match o with
  | .next t => some t.result
  | _ => none
/-- The channel a step leaves. -/
def channelOf (o : Host.Outcome State Fault Refusal) : Option Channel :=
  match o with
  | .next t => some t.ch
  | _ => none
/-- The memory a step leaves. -/
def memOf (o : Host.Outcome State Fault Refusal) : Option Memory :=
  match o with
  | .next t => some t.mem
  | _ => none
/-- The STATUS a step leaves. -/
def statusOf (o : Host.Outcome State Fault Refusal) : Option Byte :=
  match o with
  | .next t => some t.status
  | _ => none

/-! ### The operations (V3 to V6, P7) -/

theorem test_select : wireOf (exec .select State.reset) = [.select] := by decide
theorem test_select_again : wireOf (exec .select selected) = [.select] := by decide
theorem test_deselect : wireOf (exec .deselect selected) = [.select, .deselect] := by decide
theorem test_deselect_again : wireOf (exec .deselect State.reset) = [] := by decide
theorem test_send_command :
    wireOf (exec (.sendCommand 0x2C) State.reset) = [.select, .unit 0 0x2C] := by decide
theorem test_send_command_status :
    statusOf (exec (.sendCommand 0x2C) State.reset) = some 0x10 := by decide
theorem test_send_data8 :
    wireOf (exec (.sendData8 0x55) selected) = [.select, .unit 1 0x55] := by decide
theorem test_send_data16 :
    wireOf (exec (.sendData16 0xABCD) selected) = [.select, .unit 1 0xAB, .unit 1 0xCD] := by
  decide
theorem test_send_block :
    wireOf (exec (.sendBlock 0x100 1 3) oneByte)
      = [.select, .unit 1 0xA5, .unit 1 0xA5, .unit 1 0xA5] := by decide
theorem test_send_block_top :
    channelOf (exec (.sendBlock 0xFFFFFFFF 1 1) State.reset)
      = some { en := false, tc := false, src := 0xFFFFFFFF, cnt := 1, ptr := 0, rem := 0 } := by
  decide
theorem test_fill_span :
    memOf (exec (.fillSpan 0xABCD 2) State.reset)
      = some [(0x20000000, 0xAB), (0x20000001, 0xCD), (0x20000002, 0xAB), (0x20000003, 0xCD)] := by
  decide
theorem test_fill_span_high_zero :
    memOf (exec (.fillSpan 0x00FF 1) State.reset) = some [(0x20000001, 0xFF)] := by decide
theorem test_fill_counts :
    ([0, 1, 2, 319, 320, 321, 640, 641, 0xFFFFFFFF].map filledBytes)
      = [0, 2, 4, 638, 640, 640, 640, 640, 640] := by decide

theorem test_pack :
    [pack 255 0 0, pack 0 255 0, pack 0 0 255, pack 7 3 7, pack 8 4 8, pack 0x12 0x34 0x56,
      pack 255 165 0] = [0xF800, 0x07E0, 0x001F, 0x0000, 0x0821, 0x11AA, 0xFD20] := by decide

/-! ### The receiver (V7) -/

/-- The first two rows of V7: the window (10, 12, 20, 21). -/
def windowWire : List WireEvent :=
  [ .unit 0 0x2A, .unit 1 0x00, .unit 1 0x0A, .unit 1 0x00, .unit 1 0x0C,
    .unit 0 0x2B, .unit 1 0x00, .unit 1 0x14, .unit 1 0x00, .unit 1 0x15 ]
/-- One pixel 0x07E0 into that window. -/
def pixelWire : List WireEvent := windowWire ++ [.unit 0 0x2C, .unit 1 0x07, .unit 1 0xE0]

/-- A fact about the receiver after a trace, false where the trace is not answered. -/
def rxHolds (es : List WireEvent) (f : Rx → Bool) : Bool :=
  match rxFold Params.reset [] 0 Rx.reset es with
  | .ok rx => f rx
  | .error _ => false

theorem test_rx_window :
    rxHolds windowWire (fun rx => rx.mode == .idle && rx.x0 == 10 && rx.x1 == 12 && rx.y0 == 20
      && rx.y1 == 21) = true := by decide
theorem test_rx_pixel :
    rxHolds pixelWire (fun rx => rx.gram == [(20 * 320 + 10, 0x07E0)] && rx.col == 11
      && rx.row == 20 && rx.half == none) = true := by decide
theorem test_rx_row_wrap :
    rxHolds (pixelWire ++ [.unit 1 1, .unit 1 2, .unit 1 3, .unit 1 4])
      (fun rx => rx.col == 10 && rx.row == 21) = true := by decide
theorem test_rx_no_command :
    rxStep Params.reset Rx.reset (.unit 1 0x55) = .error .noCommand := rfl
theorem test_rx_fifth_parameter :
    rxHolds [.unit 0 0x2A, .unit 1 0, .unit 1 0, .unit 1 0, .unit 1 0] (fun rx =>
      rx.params.length == 4 && (match rxStep Params.reset rx (.unit 1 0) with
        | .error .extraParameter => true
        | _ => false)) = true := by decide

/-! ### Witnesses: encoding and the step -/

theorem test_w_enc_dec : decode (ofLanes 0x60000000 1 1 0xFFFFFFFF)
    = some (.sendBlock 0xFFFFFFFF 1 1) := by decide
theorem test_w_row : (⟨"send_command", 0x30000000000000000000000000000000,
    0xFFFFFF00FFFFFFFFFFFFFFFFFFFFFFFF⟩ : Row) ∈ opcodeTable := by decide
theorem test_w_reserved_opc :
    fieldOpc (ofLanes 0 0 0 0) = 0 ∧ 8 ≤ fieldOpc (ofLanes 0x80000000 0 0 0)
      ∧ fieldZ0 (ofLanes 0x10010000 0 0 0) ≠ 0
      ∧ fieldZ1 (ofLanes 0x60000000 4 0x00010001 0x20000000) ≠ 0 := by decide
theorem test_w_reserved_step :
    let s := State.reset.program [.present (ofLanes 0x10000000 0 0 1)]
    s.op = none ∧ s.host = .present (ofLanes 0x10000000 0 0 1) :: []
      ∧ ∀ row ∈ opcodeTable, row.accepts (ofLanes 0x10000000 0 0 1) = false := by decide
/-- A carried result makes a select word reserved, and a fill_span word one with that count. -/
def carries (w : OpWord) : State := { whole.program [.presentKept w] with kept := 6 }
theorem test_w_reserved_kept :
    let s := carries (encode .select)
    s.op = none ∧ s.host = .presentKept (encode .select) :: []
      ∧ withN (encode .select) s.kept = ofLanes 0x10000000 6 0 0
      ∧ ∀ row ∈ opcodeTable, row.accepts (ofLanes 0x10000000 6 0 0) = false := by decide
theorem test_w_step_runs_kept :
    let s := carries (encode (.fillSpan 0xABCD 0))
    s.host = .presentKept (encode (.fillSpan 0xABCD 0)) :: []
      ∧ withN (encode (.fillSpan 0xABCD 0)) s.kept = encode (.fillSpan 0xABCD 6)
      ∧ decode (encode (.fillSpan 0xABCD 6)) = some (.fillSpan 0xABCD 6) := by decide
theorem test_w_step_runs :
    let s := whole.program [.present (ofLanes 0x10000000 0 0 0)]
    s.op = none ∧ s.pace = .operation ∧ decode (ofLanes 0x10000000 0 0 0) = some .select
      ∧ s.host = .present (ofLanes 0x10000000 0 0 0) :: [] := by decide
theorem test_w_step_accepts :
    let s := State.reset.program [present (.sendBlock 0xFFFFFFFF 1 1)]
    s.op = none ∧ s.pace = .agent ∧ s.host = .present (encode (.sendBlock 0xFFFFFFFF 1 1)) :: []
      ∧ decode (encode (.sendBlock 0xFFFFFFFF 1 1)) = some (.sendBlock 0xFFFFFFFF 1 1)
      ∧ operandRefusal s.params (.sendBlock 0xFFFFFFFF 1 1) = none
      ∧ operandRefusal s.params (.sendBlock 0xFFFFFFFF 2 1) = some .pastTop
      ∧ operandRefusal s.params (.sendBlock 0 0 1) = some .zeroCount := by decide

/-- A hung `send_command`. -/
def hung : State :=
  { stuck with dc := 0, cs := true, link := { busy := true, shift := 0x2C }, wire := [.select],
               op := some { instr := .sendCommand 0x2C, pos := .unitSent } }

theorem test_w_busy : hung.op.isSome = true := by decide
theorem test_w_hung : hung.Hung := by decide
theorem test_w_hung_from_stuck :
    stuck.Ready ∧ exec (.sendCommand 0x2C) stuck = .next hung ∧ hung.op ≠ none :=
  ⟨by decide, rfl, by decide⟩

/-! ### Witnesses: the operations -/

theorem test_w_ready_live : State.reset.Ready ∧ State.reset.Live := by decide
theorem test_w_command_hangs : State.linkStep hung = none := by decide
theorem test_w_data8_hangs :
    State.linkStep { hung with dc := 1, op := some { instr := .sendData8 0x2C, pos := .unitSent } }
      = none := by decide
/-- `send_data16 0xABCD` with its high byte in the shifter of a link that finishes one unit. -/
def highSent : State :=
  { oneMore with dc := 1, cs := true, link := { busy := true, shift := 0xAB }, wire := [.select],
                 op := some { instr := .sendData16 0xABCD, pos := .highSent } }
theorem test_w_data16_hangs_first :
    State.linkStep { highSent with linkPlan := .stopAfter 0 } = none := by decide
theorem test_w_data16_hangs_second :
    ∃ v, State.linkStep highSent = some v
      ∧ State.linkStep { v with link := { busy := true, shift := 0xCD },
                                op := some { instr := .sendData16 0xABCD, pos := .unitSent } }
          = none := ⟨_, rfl, by decide⟩
theorem test_w_framing_frame :
    (∃ t, exec .select State.reset = .next t) ∧ (∃ t, exec .deselect State.reset = .next t)
      ∧ (∃ t, exec (.sendCommand 0) State.reset = .next t)
      ∧ (∃ t, exec (.sendData8 0) State.reset = .next t)
      ∧ ∃ t, exec (.sendData16 0) State.reset = .next t :=
  ⟨⟨_, rfl⟩, ⟨_, rfl⟩, ⟨_, rfl⟩, ⟨_, rfl⟩, ⟨_, rfl⟩⟩
theorem test_w_block_defined :
    blockRefusal Params.reset 0xFFFFFFFF 1 1 = none
      ∧ blockRefusal Params.reset 0xFFFFFFFF 0xFFFFFFFF 0 = none
      ∧ blockRefusal Params.reset 0 0xFFFFFFFF 0xFFFF = none := by decide
theorem test_w_block_past_top : 2 ^ 32 < (0xFFFFFFFF : Word).toNat + (2 : Word).toNat := by decide
theorem test_w_block_device :
    withDevice.op = none
      ∧ (0x3FFFFFFF : Word).toNat + (2 : Word).toNat ≤ 2 ^ 32
      ∧ withDevice.params.touchesDevice (0x3FFFFFFF : Word).toNat (2 : Word).toNat = true
      ∧ withDevice.params.touchesDevice (0x40000003 : Word).toNat (1 : Word).toNat = true := by
  decide
theorem test_w_block_beside_device :
    withDevice.params.touchesDevice (0x3FFFFFFF : Word).toNat (1 : Word).toNat = false
      ∧ withDevice.params.touchesDevice (0x40000004 : Word).toNat (1 : Word).toNat = false := by
  decide
theorem test_w_block_frame : ∃ t, exec (.sendBlock 0x100 1 1) stuck = .next t
    ∧ stuck.op = none ∧ t.op.isSome = true := ⟨_, rfl, rfl, rfl⟩
theorem test_w_block_adds :
    (1 : Half).toNat + (0xFFFE : Half).toNat < 2 ^ 16
      ∧ blockRefusal State.reset.params 0x100 1 (1 + 0xFFFE) = none := by decide
theorem test_w_fill_clamps : 320 < (321 : Word).toNat ∧ 320 < (0xFFFFFFFF : Word).toNat := by
  decide
theorem test_w_fill_frame :
    (∃ t, exec (.fillSpan 0xABCD 1) highScratch = .next t)
      ∧ highScratch.params.scratchBase.toNat + 640 ≤ 2 ^ 32
      ∧ ¬ highScratch.params.inScratch 0xFFFFFD7F ∧ highScratch.params.inScratch 0xFFFFFFFF :=
  ⟨⟨_, rfl⟩, by decide, by decide, by decide⟩
theorem test_w_host_store :
    let s := State.reset.program [.store 0xFFFFFFFF 0x77]
    s.op = none ∧ s.host = .store 0xFFFFFFFF 0x77 :: [] := by decide
theorem test_w_host_actions :
    (State.reset.program [.load 0]).host = .load 0 :: []
      ∧ (State.reset.program [.keepResult]).host = .keepResult :: []
      ∧ (State.reset.program [.settle .on]).host = .settle .on :: []
      ∧ State.reset.host = [] := by decide
/-- R46: the host writes anywhere, a device range included. -/
theorem test_host_store_anywhere :
    memOf (step (withDevice.program [.store 0x40000000 0x77])) = some [(0x40000000, 0x77)] := by
  decide
theorem test_host_load :
    (match step (oneByte.program [.load 0x100]) with
      | .next t => t.seen
      | _ => 0) = 0xA5 := by decide
theorem test_w_operand_ok : operandRefusal State.reset.params (.fillSpan 0 0) = none := rfl

/-! ### Witnesses: refusals and agents -/

theorem test_w_refusals :
    step (State.reset.program [.present 0]) = .refused (.reservedWord 0)
      ∧ step (State.reset.program [present (.sendBlock 0 0 1)]) = .refused .zeroCount
      ∧ step (State.reset.program [present (.sendBlock 0xFFFFFFFF 2 1)]) = .refused .pastTop
      ∧ step (withDevice.program [present (.sendBlock 0x40000000 1 1)])
          = .refused .notPlainMemory := ⟨rfl, rfl, rfl, rfl⟩

/-- A `send_block` whose last unit of a repeat is in the shifter: Engine and Link both enabled. -/
def lastUnit : State :=
  { State.reset with
    cs := true, link := { busy := true, shift := 0xA5 }, wire := [.select],
    ch := { en := true, tc := true, src := 0x100, cnt := 1, ptr := 0x101, rem := 0 }, rep := 2,
    op := some { instr := .sendBlock 0x100 1 3, pos := .waitTc }, mem := [(0x100, 0xA5)] }
/-- The same before the unit is moved: the Channel is enabled. -/
def firstUnit : State :=
  { lastUnit with link := { busy := false, shift := 0 },
                  ch := { en := true, tc := false, src := 0x100, cnt := 1, ptr := 0x100, rem := 1 } }

theorem test_w_link_live : lastUnit.link.busy = true ∧ lastUnit.Live
    ∧ State.engineGoesFirst lastUnit = false
    ∧ State.engineGoesFirst { lastUnit with params := otherParams } = true := by decide
theorem test_w_block_writes : (∃ t, step lastUnit = .next t) ∧ lastUnit.op.isSome = true
    ∧ lastUnit.presented = none ∧ lastUnit.params.scratchBase.toNat + 640 ≤ 2 ^ 32
    ∧ ¬ lastUnit.params.inScratch 0x100 := ⟨⟨_, rfl⟩, by decide, rfl, by decide, by decide⟩
theorem test_w_link_step : ∃ t, State.linkStep lastUnit = some t := ⟨_, rfl⟩
theorem test_w_channel_step : (State.channelStep firstUnit).isSome = true := by decide
theorem test_w_commute :
    lastUnit.OpInv ∧ (∃ a, State.linkStep lastUnit = some a)
      ∧ ∃ b, State.engineStep lastUnit = some b :=
  ⟨by simp only [State.OpInv, State.AtPosition, lastUnit]; decide, ⟨_, rfl⟩, ⟨_, rfl⟩⟩
theorem test_w_reach :
    oneByte.Ready ∧ operandRefusal oneByte.params (.sendBlock 0x100 1 2) = none
      ∧ ∃ t, exec (.sendBlock 0x100 1 2) oneByte = .next t := ⟨by decide, by decide, ⟨_, rfl⟩⟩

/-! ### Single agent steps, by the STATUS they leave (V4 and V5 step traces) -/

theorem test_engine_step :
    statusOf (step (State.accept (.sendCommand 0x2C) State.reset)) = some 0x13 := by decide
theorem test_link_step : statusOf (step { hung with linkPlan := .live }) = some 0x11 := by decide
theorem test_completion_step :
    statusOf (step { hung with link := { busy := false, shift := 0x2C } }) = some 0x10 := by decide
theorem test_channel_step :
    firstUnit.status = 0x35 ∧ statusOf (step firstUnit) = some 0x3F := by decide
theorem test_block_link_step : statusOf (step lastUnit) = some 0x3D := by decide
/-- V5: steps 6 and 7 in the other order, the Engine first, STATUS 0x37 between them. -/
theorem test_block_engine_first :
    statusOf (step { lastUnit with params := otherParams }) = some 0x37 := by decide
theorem test_block_next_repeat :
    statusOf (step { lastUnit with link := { busy := false, shift := 0xA5 } }) = some 0x35 := by
  decide
theorem test_block_end :
    statusOf (step { lastUnit with link := { busy := false, shift := 0xA5 }, rep := 1 })
      = some 0x30 := by decide

/-! ### Witnesses: invariants -/

theorem test_w_inv_busy : lastUnit.Inv where
  memory := by decide
  framed := by unfold State.Framed; decide
  placed := by simp only [State.OpInv, State.AtPosition, lastUnit]; decide
  markers := by decide
theorem test_w_inv_step : (∃ t, step lastUnit = .next t) ∧ lastUnit.link.busy = true :=
  ⟨⟨_, rfl⟩, rfl⟩
theorem test_w_inv_selected : selected.Inv where
  memory := by decide
  framed := by unfold State.Framed; decide
  placed := show selected.Resting by decide
  markers := by decide
theorem test_w_resting : ∃ t, step selected = .next t ∧ t.op = none := ⟨_, rfl, rfl⟩
theorem test_w_units : ∃ t, step lastUnit = .next t
    ∧ t.wire = [.select] ++ WireEvent.unit 1 0xA5 :: []
    ∧ t.wire = lastUnit.wire ++ [] ++ [.unit 1 0xA5] := ⟨_, rfl, rfl, rfl⟩
theorem test_w_inv_whole : whole.Inv ∧ whole.pace = .operation
    ∧ ∃ t, run 1 (whole.program [present .select]) = .next t :=
  ⟨{ memory := by decide
     framed := by unfold State.Framed; decide
     placed := show whole.Resting by decide
     markers := by decide }, rfl, ⟨_, rfl⟩⟩

/-! ### Witnesses: frames and the receiver -/

theorem test_w_can_run :
    State.CanRun whole ∧ State.CanRun { selected with pace := .operation } ∧ selected.cs = true := by
  decide
theorem test_w_params_ok : State.reset.params.Ok where
  scratchFits := by decide
  scratchPlain := by decide
  distinct := by decide
theorem test_w_fill_rect : (1 : Half) ≠ 0 ∨ (0 : Half) = 0 := by decide
theorem test_w_fill_rect_height_zero : (0 : Half) ≠ 0 ∨ (0 : Half) = 0 := by decide
theorem test_w_fill_rect_refused : State.CanRun whole ∧ (1 : Half) ≠ 0 := by decide
theorem test_w_bitmap :
    blockRefusal State.reset.params 0x20001000 (bitmapBytes 2 2) 1 = none := by decide
/-- A glyph of two pixels in one row. -/
def glyph : Vector Half ((2 : Half).toNat * (1 : Half).toNat) := #v[0xFFFF, 0]
theorem test_w_print_char :
    glyph.toList.length = 2 ∧ (2 : Half) ≠ 0 ∧ (1 : Half) ≠ 0 ∧ 2 * ((2 : Half).toNat * (1 : Half).toNat) ≤ 640 := by decide
/-- An initialisation inside one bracket; the parameter bytes are arbitrary. -/
def initData : InitData State.reset.params where
  brackets := #v[⟨true, false⟩, ⟨false, false⟩, ⟨false, false⟩, ⟨false, false⟩, ⟨false, false⟩,
    ⟨false, false⟩, ⟨false, false⟩, ⟨false, false⟩, ⟨false, false⟩, ⟨false, false⟩, ⟨false, true⟩]
  power := #v[⟨1, [2]⟩, ⟨3, []⟩]
  vcom := #v[⟨4, []⟩, ⟨5, []⟩]
  madctl := 6
  pixelFormat := 0x55
  frameRate := ⟨7, [8]⟩
  gammaPos := 0x20002000
  gammaNeg := 0x20002010
theorem test_w_init : blockRefusal State.reset.params initData.gammaPos 16 1 = none
    ∧ blockRefusal State.reset.params initData.gammaNeg 16 1 = none := by decide
/-- R190 steps 1 and 2, inside the bracket. -/
theorem test_initialisation :
    (initialisation State.reset.params initData).take 6
      = [present .select, present (.sendCommand 0x11), .settle .sleepOut,
         present (.sendCommand 0xC0), present (.sendData8 1), present (.sendData8 2)] := by decide
theorem test_w_rx_clear : Rx.Clear Rx.reset ∧ Params.reset.allCommands.Nodup :=
  ⟨⟨rfl, rfl⟩, by decide⟩
theorem test_w_rx_commands :
    (0x11 : Byte) ≠ Params.reset.cmdMemoryWrite ∧ (0x2C : Byte) = Params.reset.cmdMemoryWrite := by
  decide
/-- A receiver streaming at the last column of the first row of the window (10, 12, 20, 21). -/
def streaming : Rx :=
  { Rx.reset with mode := .streaming, x0 := 10, x1 := 12, y0 := 20, y1 := 21, col := 12, row := 20,
                  half := some 0x07 }
theorem test_w_streaming :
    streaming.mode = .streaming ∧ streaming.owed = none ∧ streaming.half = some 0x07
      ∧ streaming.windowOk = true ∧ streaming.col.toNat < 320 ∧ streaming.row.toNat < 240
      ∧ streaming.past = false ∧ streaming.col = streaming.x1 ∧ streaming.row ≠ streaming.y1 := by decide
theorem test_w_streaming_in_row :
    let rx := { streaming with col := 11, half := none }
    rx.mode = .streaming ∧ rx.half = none ∧ rx.col ≠ rx.x1 := by decide
/-- The same at the window's last position. -/
def lastPixel : Rx := { streaming with row := 21 }
theorem test_w_window_end :
    lastPixel.mode = .streaming ∧ lastPixel.half = some 0x07 ∧ lastPixel.owed = none
      ∧ lastPixel.windowOk = true ∧ lastPixel.past = false ∧ lastPixel.col = lastPixel.x1
      ∧ lastPixel.row = lastPixel.y1
      ∧ otherParams.rxWrapAtEnd = true ∧ Params.reset.rxWrapAtEnd = false := by decide
/-- R157: a window that is not inside the frame. -/
theorem test_w_malformed : { streaming with x1 := 320 }.windowOk = false
    ∧ { streaming with x0 := 12, x1 := 11 }.windowOk = false := by decide
/-- Receivers at the edge of what the model answers. -/
def rangeFull : Rx :=
  { Rx.reset with cmd := some 0x2A, params := [0, 10, 0, 12] }
theorem test_w_violations :
    Params.reset.allCommands.Nodup
      ∧ (Rx.reset.owed = none ∧ Rx.reset.mode = .idle ∧ Rx.reset.cmd = none)
      ∧ (rangeFull.owed = none ∧ rangeFull.mode = .idle ∧ rangeFull.cmd = some 0x2A
          ∧ Params.reset.isRange 0x2A = true ∧ 4 ≤ rangeFull.params.length)
      ∧ (Params.reset.isRange 0x99 = false ∧ (0x99 : Byte) ∉ Params.reset.initCommands)
      ∧ (streaming.owed = none ∧ streaming.half.isSome = true)
      ∧ { Rx.reset with owed := some Settle.sleepOut }.owed.isSome = true := by decide
theorem test_w_releases :
    { rangeFull with params := [0, 10, 0] }.params.length < 4
      ∧ (List.replicate 15 (0 : Byte)).length < 16
      ∧ (0xE0 : Byte) = Params.reset.cmdGammaPos ∧ (0xE1 : Byte) = Params.reset.cmdGammaNeg
      ∧ (0xC1 : Byte) ∈ Params.reset.cmdPowerCtrl ++ Params.reset.cmdVcomCtrl
          ++ [Params.reset.cmdMemAccessCtrl, Params.reset.cmdPixelFormat,
              Params.reset.cmdFrameRate] := by decide
/-- Between two power-control parameters, after a release. -/
def releasedThere : Rx :=
  { Rx.reset with cmd := some 0xC0, params := [1], released := true }
theorem test_w_released :
    releasedThere.owed = none ∧ releasedThere.mode = .idle ∧ releasedThere.cmd = some 0xC0
      ∧ (0xC0 : Byte) ∈ Params.reset.initCommands ∧ releasedThere.released = true
      ∧ releasedThere.midItem Params.reset = false := by decide
/-- R160, U13: a parameter after a release shows that the release stood among the parameters; a command
after it does not. -/
theorem test_rx_release_between :
    let p := Params.reset
    let one : List WireEvent := [.unit 0 0xC0, .unit 1 1, .deselect, .select]
    (match rxFold p [] 0 Rx.reset (one ++ [.unit 1 2]), rxFold p [] 0 Rx.reset (one ++ [.unit 0 0xC1, .unit 1 2]) with
      | .error .releasedMidItem, .ok rx => rx.params == [2]
      | _, _ => false) = true := by decide
/-- R203: after the gamma table nothing may come before the delay; after it the next command may. -/
theorem test_rx_gamma_delay :
    let p := Params.reset
    let table : List WireEvent := .unit 0 0xE0 :: List.replicate 16 (.unit 1 0x55)
    (match rxFold p [] 0 Rx.reset (table ++ [.deselect]), rxFold p [(17, .gamma)] 0 Rx.reset (table ++ [.deselect]) with
      | .error .tooSoon, .ok rx => rx.owed == none
      | _, _ => false) = true := by decide
theorem test_w_paint :
    (10 : Half) ≤ 12 ∧ (12 : Half).toNat < 320 ∧ (20 : Half) ≤ 21 ∧ (21 : Half).toNat < 240
      ∧ [0x07E0, 0, 0, 0, 0, (0xFFFF : Half)].length
          ≤ ((12 : Half).toNat - (10 : Half).toNat + 1) * ((21 : Half).toNat - (20 : Half).toNat + 1) := by
  decide
theorem test_w_paint_corner :
    (319 : Half).toNat < 320 ∧ (239 : Half).toNat < 240 ∧ (319 : Half) ≤ 319 := by decide
theorem test_w_shows : whole.rx = .ok Rx.reset ∧ whole.MarkersPlaced := ⟨rfl, by decide⟩

end Sys2Proof.Tests
end

section
/-! PROOFS. The composite pace and the pace of single agents (00_scope.md R14; logs 1, 11): what one
operation taken whole ends in, the agents' single steps reach, and so for a whole run. -/

namespace Sys2Proof.Machine

/-! ### Reaching by single agents' steps -/

/-- An operation is in progress and no `done` pulse is up. -/
abbrev State.Running (s : State) : Prop := s.op.isSome = true ∧ s.done = false

/-- One machine step while an operation is in progress: one agent's step, or none. -/
def BusyStep (s t : State) : Prop := s.op.isSome = true ∧ step s = .next t

/-- Some number of machine steps, each while an operation is in progress. -/
abbrev Reaches : State → State → Prop := Relation.ReflTransGen BusyStep

theorem Reaches.exists_run {s t : State} (h : Reaches s t) : ∃ k, run k s = .next t := by
  induction h using Relation.ReflTransGen.head_induction_on with
  | refl => exact ⟨0, rfl⟩
  | head hstep _ ih =>
    obtain ⟨k, hk⟩ := ih
    exact ⟨k + 1, (run_succ k hstep.2).trans hk⟩

theorem State.Running.busyStep {s t : State} (hs : s.Running)
    (h : State.agentStep s = some t) : BusyStep s t :=
  ⟨hs.1, step_of_agentStep hs.1 hs.2 h⟩

/-- The Link's step, where the Engine waits. -/
theorem State.Running.linkStep {s t : State} (hs : s.Running) (h : State.linkStep s = some t)
    (he : State.engineStep s = none) : BusyStep s t :=
  hs.busyStep (State.agentStep_eq_some.2 (.inl ⟨h, .inr he⟩))

/-- The Engine's step, where the Link has none. -/
theorem State.Running.engineStep {s t : State} (hs : s.Running) (h : State.engineStep s = some t)
    (hl : State.linkStep s = none) : BusyStep s t :=
  hs.busyStep (State.agentStep_eq_some.2 (.inr (.inl ⟨h, .inr hl⟩)))

/-- The Engine's step, from the operation in progress and its position. -/
theorem State.engineStep_at {s : State} {i : Instr} {p : Pos} (ho : s.op = some ⟨i, p⟩) :
    State.engineStep s = engineFrom i p s := by
  simp [State.engineStep, ho]

/-! ### Waits on the link -/

/-- The link of `u` is idle, and all that the Engine and the Channel go by is as in `s`: how a wait on
the link leaves `s` when it is lifted. -/
structure Lifted (s u : State) : Prop where
  idle : u.link.busy = false
  op : u.op = s.op
  done : u.done = s.done
  ch : u.ch = s.ch
  rep : u.rep = s.rep

theorem Lifted.running {s u : State} (h : Lifted s u) (hs : s.Running) : u.Running :=
  ⟨h.op ▸ hs.1, h.done ▸ hs.2⟩

/-- The Engine's step after a wait. -/
theorem Lifted.engineStep {s u t : State} (h : Lifted s u) (hs : s.Running)
    (ht : State.engineStep u = some t) : BusyStep u t :=
  (h.running hs).engineStep ht (State.linkStep_idle h.idle)

/-- A wait on the link is reached where the Engine waits while the link is busy and the rest is
reached from the state in which the wait is lifted. -/
theorem Reaches.awaitLink {k : State → State} {s : State} (hs : s.Running)
    (hwait : s.link.busy = true → State.engineStep s = none)
    (hk : ∀ u, Lifted s u → Reaches u (k u)) : Reaches s (State.awaitLink k s) := by
  rcases State.awaitLink_cases k s with ⟨-, -, e⟩ | ⟨hidle, e⟩ | ⟨q, hbusy, hq, e⟩
  · rw [e]
  · rw [e]
    exact hk s ⟨hidle, rfl, rfl, rfl, rfl⟩
  · rw [e]
    have hlink : State.linkStep s = some (State.linkFinish q s) :=
      State.linkStep_eq_some.2 ⟨hbusy, q, hq, rfl⟩
    exact .head (hs.linkStep hlink (hwait hbusy)) (hk _ ⟨rfl, rfl, rfl, rfl, rfl⟩)

/-- A position whose wait on the link is the operation's last. -/
abbrev Pos.IsLast (p : Pos) : Prop := p = .unitSent ∨ p = .drain

theorem engineFrom_last {p : Pos} (hp : p.IsLast) (i : Instr) (s : State) :
    engineFrom i p s = if s.link.busy then none else some (State.complete 0 s) := by
  rcases hp with rfl | rfl <;> rfl

/-- The last wait of an operation, and its completion. -/
theorem reaches_lastWait {s : State} {i : Instr} {p : Pos} (hp : p.IsLast)
    (ho : s.op = some ⟨i, p⟩) (hd : s.done = false) :
    Reaches s (State.awaitLink (State.complete 0) s) := by
  have hs : s.Running := ⟨by simp [ho], hd⟩
  refine Reaches.awaitLink hs (fun hb => ?_) (fun u hu => .single (hu.engineStep hs ?_))
  · rw [State.engineStep_at ho, engineFrom_last hp, if_pos hb]
  · rw [State.engineStep_at (hu.op.trans ho), engineFrom_last hp, hu.idle]
    rfl

/-! ### The single-unit sends (40_framing_ops.md R88 to R90) -/

theorem sendUnit_op (i : Instr) (p : Pos) (d : Bit) (u : Byte) (s : State) :
    (sendUnit i p d u s).op = some ⟨i, p⟩ := rfl

theorem sendUnit_done (i : Instr) (p : Pos) (d : Bit) (u : Byte) (s : State) :
    (sendUnit i p d u s).done = s.done := by
  simp [sendUnit, State.assertCs_eq]

/-- `send_data16` from its first wait on: the low byte follows the high byte. -/
theorem reaches_highSent {s : State} {w : Half} (ho : s.op = some ⟨.sendData16 w, .highSent⟩)
    (hd : s.done = false) :
    Reaches s (State.awaitLink (fun u => State.awaitLink (State.complete 0) (sendLow w u)) s) := by
  have hs : s.Running := ⟨by simp [ho], hd⟩
  refine Reaches.awaitLink hs (fun hb => ?_) (fun u hu => ?_)
  · simp [State.engineStep_at ho, engineFrom, hb]
  · have hlow : State.engineStep u = some (sendLow w u) := by
      simp [State.engineStep_at (hu.op.trans ho), engineFrom, hu.idle]
    exact .head (hu.engineStep hs hlow)
      (reaches_lastWait (i := .sendData16 w) (.inl rfl) rfl (hu.done.trans hd))

/-! ### The repeat sequencer (41_block_transfer.md R99, R100) -/

/-- Operation `i` runs a repeat of `n` units, `r` repeats not yet finished, this one included. -/
structure Repeating (i : Instr) (n : Word) (r : Half) (s : State) : Prop where
  op : s.op = some ⟨i, .waitTc⟩
  done : s.done = false
  en : s.ch.en = true
  cnt : s.ch.cnt = n
  rep : s.rep = r

section
variable {i : Instr} {n : Word} {r : Half} {s : State}

theorem Repeating.running (h : Repeating i n r s) : s.Running := ⟨by simp [h.op], h.done⟩

theorem Repeating.lifted {u : State} (h : Repeating i n r s) (hu : Lifted s u) :
    Repeating i n r u :=
  ⟨hu.op.trans h.op, hu.done.trans h.done, hu.ch ▸ h.en, hu.ch ▸ h.cnt, hu.rep.trans h.rep⟩

theorem Repeating.linkFinish (h : Repeating i n r s) (q : LinkPlan) :
    Repeating i n r (State.linkFinish q s) := ⟨h.op, h.done, h.en, h.cnt, h.rep⟩

theorem Repeating.channelMove (h : Repeating i n r s) : Repeating i n r (State.channelMove s) :=
  ⟨h.op, h.done, h.en, h.cnt, h.rep⟩

/-- The Engine's step during a repeat: the repeat's end, once the completion flag is set. -/
theorem Repeating.engineStep (h : Repeating i n r s) :
    State.engineStep s = if s.ch.tc then some (blockNext i (endRepeat s)) else none :=
  State.engineStep_at h.op

theorem startRepeat_repeating (hd : s.done = false) (hn : s.ch.cnt = n) (hr : s.rep = r) :
    Repeating i n r (startRepeat i s) := ⟨rfl, hd, rfl, hn, hr⟩

end

/-- The completion flag after a unit, where it was clear: set iff the unit was the last. -/
theorem channelMove_tc {s : State} (htc : s.ch.tc = false) :
    (State.channelMove s).ch.tc = true ↔ (State.channelMove s).ch.rem = 0 := by
  simp [htc]

/-- One more unit of a repeat, on whose wait for the link the Engine waits too, and then what is
reached from the state it leaves. -/
theorem reaches_nextUnit {i : Instr} {n : Word} {r : Half} {k : State → State} {s : State}
    (hs : Repeating i n r s) (htc : s.ch.tc = false) (hrem : s.ch.rem ≠ 0)
    (hk : ∀ u, Repeating i n r u → (u.ch.tc = true ↔ u.ch.rem = 0) → u.ch.rem = s.ch.rem - 1 →
      Reaches u (k u)) :
    Reaches s (State.awaitLink (fun t => k (State.channelMove t)) s) := by
  refine Reaches.awaitLink hs.running (fun _ => by simp [hs.engineStep, htc])
    (fun u hu => ?_)
  have hrep := hs.lifted hu
  have hmove : BusyStep u (State.channelMove u) := by
    refine hrep.running.busyStep (State.agentStep_eq_some.2 (.inr (.inr ⟨?_, ?_, ?_⟩)))
    · exact State.linkStep_idle hu.idle
    · simp [hrep.engineStep, hu.ch, htc]
    · exact State.channelStep_eq_some.2 ⟨⟨hrep.en, hu.ch ▸ hrem, hu.idle⟩, rfl⟩
  refine .head hmove (hk _ hrep.channelMove (channelMove_tc (hu.ch ▸ htc)) ?_)
  rw [State.channelMove_ch, hu.ch]

/-- The units of a repeat that are still to come, and then what is reached from the last of them,
which leaves the completion flag set. -/
theorem reaches_streamUnits {i : Instr} {n : Word} {r : Half} {k : State → State}
    (hk : ∀ u, Repeating i n r u → u.ch.tc = true → Reaches u (k u)) (c : Nat) {s : State}
    (hs : Repeating i n r s) (htc : s.ch.tc = false) (hne : s.ch.rem ≠ 0)
    (hrem : s.ch.rem.toNat = c) : Reaches s (streamUnits c k s) := by
  induction c generalizing s with
  | zero => exact absurd (BitVec.eq_of_toNat_eq hrem) hne
  | succ c ih =>
    refine reaches_nextUnit hs htc hne (fun u hu hflag hleft => ?_)
    by_cases hlast : u.ch.rem = 0
    · obtain rfl : c = 0 := by bv_omega
      exact hk u hu (hflag.2 hlast)
    · exact ih hu (by simpa using hlast ∘ hflag.1) hlast (by bv_omega)

/-- `k` begins with a wait on the link: the Link's step before it changes nothing of what it ends
in. -/
abbrev AwaitsFirst (k : State → State) : Prop :=
  ∀ s t : State, State.linkStep s = some t → k s = k t

theorem awaitLink_awaitsFirst (k : State → State) : AwaitsFirst (State.awaitLink k) := by
  intro s t h
  obtain ⟨hbusy, q, -, rfl⟩ := State.linkStep_eq_some.1 h
  simp [State.awaitLink, hbusy, h]

/-- The Link's step does not see `f`, and commutes with it (60_exceptions.md R171). -/
abbrev LinkBlind (f : State → State) : Prop :=
  ∀ s t : State, State.linkStep s = some t → State.linkStep (f s) = some (f t)

theorem linkBlind_of_fields {f : State → State} (hlink : ∀ s, (f s).link = s.link)
    (hplan : ∀ s, (f s).linkPlan = s.linkPlan)
    (hfinish : ∀ q s, f (State.linkFinish q s) = State.linkFinish q (f s)) : LinkBlind f := by
  intro s t h
  obtain ⟨hbusy, q, hq, rfl⟩ := State.linkStep_eq_some.1 h
  exact State.linkStep_eq_some.2
    ⟨by rw [hlink, hbusy], q, by rw [hplan, hq], hfinish q s⟩

theorem leaveLoop_linkBlind (i : Instr) : LinkBlind (leaveLoop i) :=
  linkBlind_of_fields (fun _ => rfl) (fun _ => rfl) (fun _ _ => rfl)

theorem startRepeat_linkBlind (i : Instr) : LinkBlind (startRepeat i) :=
  linkBlind_of_fields (fun _ => rfl) (fun _ => rfl) (fun _ _ => rfl)

theorem endRepeat_linkBlind : LinkBlind endRepeat :=
  linkBlind_of_fields (fun _ => rfl) (fun _ => rfl) (fun _ _ => rfl)

theorem runRepeats_awaitsFirst (i : Instr) {n : Nat} (hn : n ≠ 0) (r : Nat) :
    AwaitsFirst (runRepeats i n r) := by
  intro s t h
  obtain ⟨m, rfl⟩ := Nat.exists_eq_succ_of_ne_zero hn
  cases r with
  | zero => exact awaitLink_awaitsFirst _ _ _ (leaveLoop_linkBlind i s t h)
  | succ r =>
    simp only [runRepeats, streamUnits]
    exact awaitLink_awaitsFirst _ _ _ (startRepeat_linkBlind i s t h)

/-- Once the completion flag is set, the loop's rest is reached from the repeat's end, whether the Link
or the Engine goes first: both ways come to the Engine's step, from which it is reached. -/
theorem reaches_of_repeatEnd {i : Instr} {n : Word} {r : Half} {k : State → State}
    (hk : AwaitsFirst k)
    (hnext : ∀ u, Repeating i n r u → Reaches (blockNext i (endRepeat u)) (k u)) {s : State}
    (hs : Repeating i n r s) (htc : s.ch.tc = true) : Reaches s (k s) := by
  have heng : ∀ u, Repeating i n r u → u.ch.tc = true →
      State.engineStep u = some (blockNext i (endRepeat u)) := fun u hu ht => by
    simp [hu.engineStep, ht]
  by_cases hfirst : State.linkStep s = none ∨ State.engineGoesFirst s = true
  · have hstep : BusyStep s (blockNext i (endRepeat s)) :=
      hs.running.busyStep (State.agentStep_eq_some.2 (.inr (.inl ⟨heng s hs htc, hfirst.symm⟩)))
    exact .head hstep (hnext s hs)
  · obtain ⟨hlink, hlast⟩ := not_or.1 hfirst
    obtain ⟨t, ht⟩ := Option.ne_none_iff_exists'.1 hlink
    obtain ⟨-, q, -, rfl⟩ := State.linkStep_eq_some.1 ht
    have hstep : BusyStep s (State.linkFinish q s) :=
      hs.running.busyStep (State.agentStep_eq_some.2 (.inl ⟨ht, .inl (by simpa using hlast)⟩))
    have hend : BusyStep (State.linkFinish q s) (blockNext i (endRepeat (State.linkFinish q s))) :=
      (hs.linkFinish q).running.engineStep (heng _ (hs.linkFinish q) htc) (State.linkStep_idle rfl)
    rw [hk _ _ ht]
    exact .head hstep (.head hend (hnext _ (hs.linkFinish q)))

/-- The loop's head while repeats are left. -/
theorem blockNext_more {i : Instr} {s : State} (h : s.rep ≠ 0) : blockNext i s = startRepeat i s :=
  if_neg h

/-- The loop's head once no repeat is left. -/
theorem blockNext_done {i : Instr} {s : State} (h : s.rep = 0) :
    blockNext i s
      = if s.link.busy then leaveLoop i s else State.complete 0 (leaveLoop i s) :=
  if_pos h

/-- The loop of R99 from its head: `r` repeats of `n` units, and the last wait. -/
theorem reaches_runRepeats (i : Instr) (n : Word) (r : Nat) {s : State} (hd : s.done = false)
    (htc : s.ch.tc = false) (hcnt : s.ch.cnt = n) (hrep : s.rep.toNat = r) (hn : r ≠ 0 → n ≠ 0) :
    Reaches (blockNext i s) (runRepeats i n.toNat r s) := by
  induction r generalizing s with
  | zero =>
    have hzero : s.rep = 0 := by bv_omega
    rw [blockNext_done hzero, runRepeats]
    split
    · exact reaches_lastWait (.inr rfl) rfl hd
    · next hidle =>
      rw [State.awaitLink_idle (s := leaveLoop i s) _ (Bool.eq_false_of_not_eq_true hidle)]
  | succ r ih =>
    have hnz : n ≠ 0 := hn (Nat.succ_ne_zero r)
    have hpos : n.toNat ≠ 0 := by bv_omega
    have hmore : s.rep ≠ 0 := by bv_omega
    have hnext : ∀ u, Repeating i n s.rep u →
        Reaches (blockNext i (endRepeat u)) (runRepeats i n.toNat r (endRepeat u)) := fun u hu =>
      ih hu.done rfl hu.cnt (by simp only [endRepeat, hu.rep]; bv_omega) (fun _ => hnz)
    have hend : ∀ u, Repeating i n s.rep u → u.ch.tc = true →
        Reaches u (runRepeats i n.toNat r (endRepeat u)) := fun u hu ht =>
      reaches_of_repeatEnd
        (fun s t h => runRepeats_awaitsFirst i hpos r _ _ (endRepeat_linkBlind s t h)) hnext hu ht
    rw [blockNext_more hmore, runRepeats]
    have hfull : (startRepeat i s).ch.rem = n := hcnt
    exact reaches_streamUnits hend n.toNat (startRepeat_repeating hd hcnt rfl) htc
      (hfull ▸ hnz) (by rw [hfull])

/-! ### A whole operation -/

/-- The statements before the loop: lines driven, `S?` on the wire, channel configured, repeats
loaded. -/
theorem blockSetup_eq (a n : Word) (r : Half) (s : State) :
    blockSetup a n r s = { s with
      cs := true, dc := 1, wire := s.wire ++ selectMark s.cs
      ch := { s.ch with src := a, cnt := n }, rep := r } := by
  rw [blockSetup, State.assertCs_eq]
  rfl

/-- The first step after acceptance is the Engine's. -/
theorem accept_busyStep {s : State} (i : Instr) (hidle : s.link.busy = false) :
    BusyStep (State.accept i s) (engineStart i (State.accept i s)) :=
  State.Running.engineStep ⟨rfl, rfl⟩ rfl (State.linkStep_idle hidle)

/-- On a ready port an operation that is answered has defined operands. -/
theorem operandRefusal_of_exec {i : Instr} {s t : State} (ho : s.op = none)
    (h : exec i s = .next t) : operandRefusal s.params i = none := by
  cases i with
  | sendBlock a n r =>
    rw [exec, execSendBlock_eq, ho] at h
    cases hr : blockRefusal s.params a n r with
    | none => exact hr
    | some why => rw [hr] at h; cases h
  | select | deselect | sendCommand _ | sendData8 _ | sendData16 _ | fillSpan _ _ => rfl

/-- What an operation answers on a ready port. -/
theorem perform_answer {i : Instr} {body : State → State} {s t : State} (ho : s.op = none)
    (h : State.perform i body s = .next t) : t = body (State.accept i s) := by
  rw [State.perform_ready i body ho] at h
  exact (Host.Outcome.next.inj h).symm

/-- From a resting block, what an operation taken whole ends in, completed or hung, the agents' single
steps reach from its acceptance on. -/
theorem exec_reaches {i : Instr} {s t : State} (hs : s.Ready) (h : exec i s = .next t) :
    Reaches (State.accept i s) t := by
  have hr := operandRefusal_of_exec hs.1 h
  obtain ⟨ho, hidle, -, htc, -, -⟩ := hs
  refine .head (accept_busyStep i hidle) ?_
  cases i with
  | select | deselect | fillSpan _ _ =>
    obtain rfl := perform_answer ho h
    exact .refl
  | sendCommand _ | sendData8 _ =>
    simp only [exec, execSendCommand, execSendData8] at h
    obtain rfl := perform_answer ho h
    exact reaches_lastWait (.inl rfl) (sendUnit_op ..) (sendUnit_done ..)
  | sendData16 w =>
    simp only [exec, execSendData16] at h
    obtain rfl := perform_answer ho h
    exact reaches_highSent (sendUnit_op ..) (sendUnit_done ..)
  | sendBlock a n r =>
    obtain rfl : _ = t := Host.Outcome.next.inj ((execSendBlock_defined ho hr).symm.trans h)
    have hn : r.toNat ≠ 0 → n ≠ 0 := fun hpos => by
      obtain rfl | ⟨hn, -⟩ := blockRefusal_eq_none.1 hr
      · exact absurd rfl hpos
      · exact hn
    rw [engineStart, blockSetup_eq]
    exact reaches_runRepeats _ n r.toNat rfl htc rfl rfl hn

/-! ### The operation in progress stands where its pseudocode puts it -/

theorem State.opInv_ready {s : State} (ho : s.op = none) : s.OpInv ↔ s.Resting := by
  simp [State.OpInv, ho]

theorem State.opInv_at {s : State} {i : Instr} {p : Pos} (ho : s.op = some ⟨i, p⟩) :
    s.OpInv ↔ s.AtPosition i p := by
  simp [State.OpInv, ho]

/-- At every wait on the link the channel and the sequencer rest. -/
theorem State.AtPosition.quiet {s : State} {i : Instr} {p : Pos} (h : s.AtPosition i p)
    (hp : p = .highSent ∨ p.IsLast) : s.Quiet := by
  obtain rfl | rfl | rfl := hp
  · cases i with
    | sendData16 w => exact h.1
    | select | deselect | sendCommand _ | sendData8 _ | sendBlock _ _ _ | fillSpan _ _ => exact h.elim
  · cases i with
    | sendCommand _ | sendData8 _ | sendData16 _ => exact h.1
    | select | deselect | sendBlock _ _ _ | fillSpan _ _ => exact h.elim
  · cases i with
    | sendBlock a n r => exact h.1
    | select | deselect | sendCommand _ | sendData8 _ | sendData16 _ | fillSpan _ _ => exact h.elim

/-- The Link's step keeps the position invariant: only the start and the ready port speak of the link, and there it is
idle. -/
theorem linkStep_opInv {s t : State} (hs : s.OpInv) (h : State.linkStep s = some t) : t.OpInv := by
  obtain ⟨hbusy, q, -, rfl⟩ := State.linkStep_eq_some.1 h
  cases ho : s.op with
  | none =>
    obtain ⟨hidle, -⟩ := (State.opInv_ready ho).1 hs
    simp [hidle] at hbusy
  | some o =>
    obtain ⟨i, p⟩ := o
    rw [State.opInv_at ho] at hs
    rw [State.opInv_at (s := State.linkFinish q s) ho]
    cases p with
    | start =>
      obtain ⟨⟨hidle, -⟩, -⟩ := hs
      simp [hidle] at hbusy
    | highSent | unitSent | waitTc | drain => cases i <;> exact hs

/-- The Channel's step keeps the position invariant: transfer is enabled during a repeat only, and
there one unit fewer is left. -/
theorem channelStep_opInv {s t : State} (hs : s.OpInv) (h : State.channelStep s = some t) :
    t.OpInv := by
  obtain ⟨⟨hen, hrem, -⟩, rfl⟩ := State.channelStep_eq_some.1 h
  cases ho : s.op with
  | none =>
    obtain ⟨-, hoff, -⟩ := (State.opInv_ready ho).1 hs
    simp [hoff] at hen
  | some o =>
    obtain ⟨i, p⟩ := o
    rw [State.opInv_at ho] at hs
    rw [State.opInv_at (s := State.channelMove s) ho]
    cases p with
    | start =>
      obtain ⟨⟨-, hoff, -⟩, -⟩ := hs
      simp [hoff] at hen
    | highSent | unitSent | drain =>
      obtain ⟨hoff, -⟩ := hs.quiet (by decide)
      simp [hoff] at hen
    | waitTc =>
      cases i with
      | sendBlock a n r =>
        obtain ⟨⟨hdef, -, hsrc, hcnt, hpos, hle, hrem', hptr, hflag⟩, hlines⟩ := hs
        have hclear : s.ch.tc = false := by simpa using hrem ∘ hflag.1
        refine ⟨⟨hdef, hen, hsrc, hcnt, hpos, hle, ?_, ?_, channelMove_tc hclear⟩, hlines⟩
        · simp only [State.channelMove_ch]
          bv_omega
        · simp only [State.channelMove_ch]
          bv_omega
      | select | deselect | sendCommand _ | sendData8 _ | sendData16 _ | fillSpan _ _ => exact hs

/-- At the loop's head, an operation with defined operands and the channel at rest but for its enable
goes on to a well-placed position. -/
theorem blockNext_opInv {a n : Word} {r : Half} {s : State}
    (hdef : blockRefusal s.params a n r = none) (hlines : s.cs = true ∧ s.dc = 1)
    (htc : s.ch.tc = false) (hrem : s.ch.rem = 0) (hsrc : s.ch.src = a) (hcnt : s.ch.cnt = n)
    (hle : s.rep ≤ r) : (blockNext (.sendBlock a n r) s).OpInv := by
  by_cases hrep : s.rep = 0
  · rw [blockNext_done hrep]
    split
    · rw [State.opInv_at rfl]
      exact ⟨⟨rfl, htc, hrem, hrep⟩, hlines⟩
    · next hidle =>
      rw [State.opInv_ready rfl]
      exact ⟨Bool.eq_false_of_not_eq_true hidle, rfl, htc, hrem, hrep⟩
  · have hn : n ≠ 0 := by
      obtain rfl | ⟨hn, -⟩ := blockRefusal_eq_none.1 hdef
      · exact absurd (BitVec.le_zero_iff.1 hle) hrep
      · exact hn
    rw [blockNext_more hrep, State.opInv_at rfl]
    refine ⟨⟨hdef, rfl, hsrc, hcnt, hrep, hle, ?_, ?_, ?_⟩, hlines⟩ <;>
      simp only [startRepeat, State.setOp_ch, hsrc, hcnt, htc]
    · bv_omega
    · bv_omega
    · simpa using hn

/-- A unit handed to the link by a block whose channel rests. -/
theorem sendUnit_quiet {s : State} (i : Instr) (p : Pos) (d : Bit) (u : Byte) (hs : s.Quiet) :
    (sendUnit i p d u s).Quiet ∧ (sendUnit i p d u s).cs = true ∧ (sendUnit i p d u s).dc = d := by
  simp [sendUnit, State.assertCs_eq, State.Quiet, hs]

theorem complete_opInv {s : State} (v : Word) (hs : s.Resting) : (State.complete v s).OpInv :=
  (State.opInv_ready rfl).2 hs

/-- The Engine's first step from a resting block. -/
theorem engineStart_opInv {i : Instr} {s : State} (hs : s.Resting)
    (hdef : operandRefusal s.params i = none) : (engineStart i s).OpInv := by
  cases i with
  | select => exact complete_opInv 0 (by simpa [State.assertCs_eq] using hs)
  | deselect => exact complete_opInv 0 (by simpa [State.releaseCs_eq] using hs)
  | sendCommand _ | sendData8 _ | sendData16 _ =>
    exact (State.opInv_at (sendUnit_op ..)).2 (sendUnit_quiet _ _ _ _ hs.2)
  | sendBlock a n r =>
    obtain ⟨-, -, htc, hrem, -⟩ := hs
    rw [engineStart, blockSetup_eq]
    exact blockNext_opInv hdef ⟨rfl, rfl⟩ htc hrem rfl rfl (BitVec.le_refl r)
  | fillSpan c n => exact complete_opInv _ hs

/-- The Engine's step keeps the position invariant: it leaves each position for the next of the
operation's own, or completes with the block at rest. -/
theorem engineStep_opInv {s t : State} (hs : s.OpInv) (h : State.engineStep s = some t) :
    t.OpInv := by
  cases ho : s.op with
  | none => simp [State.engineStep, ho] at h
  | some o =>
    obtain ⟨i, p⟩ := o
    rw [State.opInv_at ho] at hs
    rw [State.engineStep_at ho] at h
    cases p with
    | start =>
      obtain rfl := Option.some.inj h
      exact engineStart_opInv hs.1 hs.2
    | highSent =>
      cases i with
      | sendData16 w =>
        obtain ⟨-, rfl⟩ : _ ∧ sendLow w s = t := by simpa [engineFrom] using h
        exact (State.opInv_at rfl).2 hs
      | select | deselect | sendCommand _ | sendData8 _ | sendBlock _ _ _ | fillSpan _ _ =>
        exact hs.elim
    | unitSent | drain =>
      rw [engineFrom_last (by decide)] at h
      obtain ⟨hidle, rfl⟩ : _ ∧ State.complete 0 s = t := by simpa using h
      exact complete_opInv 0 ⟨hidle, hs.quiet (by decide)⟩
    | waitTc =>
      cases i with
      | sendBlock a n r =>
        obtain ⟨htc, rfl⟩ : s.ch.tc = true ∧ blockNext _ (endRepeat s) = t := by
          simpa [engineFrom] using h
        obtain ⟨⟨hdef, -, hsrc, hcnt, hpos, hle, -, -, hflag⟩, hlines⟩ := hs
        refine blockNext_opInv hdef hlines rfl (hflag.1 htc) hsrc hcnt ?_
        simp only [endRepeat]
        bv_omega
      | select | deselect | sendCommand _ | sendData8 _ | sendData16 _ | fillSpan _ _ =>
        exact hs.elim

theorem agentStep_opInv {s t : State} (hs : s.OpInv) (h : State.agentStep s = some t) :
    t.OpInv := by
  obtain ⟨h, -⟩ | ⟨h, -⟩ | ⟨-, -, h⟩ := State.agentStep_eq_some.1 h
  · exact linkStep_opInv hs h
  · exact engineStep_opInv hs h
  · exact channelStep_opInv hs h

/-- What a machine step answers while an operation is in progress. -/
theorem step_busy {s : State} (ho : s.op.isSome = true) : step s = .next (busyStep s) := by
  obtain ⟨o, ho⟩ := Option.isSome_iff_exists.1 ho
  simp [step, ho]

theorem busyStep_opInv {s : State} (hs : s.OpInv) : (busyStep s).OpInv := by
  unfold busyStep
  split
  · next h => exact agentStep_opInv (s := State.endPulse s) hs h
  · exact hs

theorem Reaches.opInv {s t : State} (h : Reaches s t) (hs : s.OpInv) : t.OpInv := by
  induction h with
  | refl => exact hs
  | tail _ hstep ih =>
    obtain ⟨ho, hnext⟩ := hstep
    rw [step_busy ho] at hnext
    exact Host.Outcome.next.inj hnext ▸ busyStep_opInv ih

theorem accept_opInv {i : Instr} {s : State} (hs : s.Resting)
    (hdef : operandRefusal s.params i = none) : (State.accept i s).OpInv :=
  (State.opInv_at (p := .start) rfl).2 ⟨hs, hdef⟩

/-! ### A whole run -/

theorem busyStep_paceFree : PaceFree busyStep := by
  intro q s
  have h : State.agentStep (State.endPulse (s.atPace q))
      = (State.agentStep (State.endPulse s)).map (State.atPace q) :=
    agentStep_atPace q (State.endPulse s)
  simp only [busyStep, h]
  cases State.agentStep (State.endPulse s) <;> rfl

theorem BusyStep.atPace {s t : State} (q : Pace) (h : BusyStep s t) :
    BusyStep (s.atPace q) (t.atPace q) := by
  obtain ⟨ho, hnext⟩ := h
  rw [step_busy ho] at hnext
  obtain rfl := Host.Outcome.next.inj hnext
  exact ⟨ho, by rw [step_busy (s := s.atPace q) ho, busyStep_paceFree]⟩

theorem Reaches.atPace {s t : State} (q : Pace) (h : Reaches s t) :
    Reaches (s.atPace q) (t.atPace q) :=
  Relation.ReflTransGen.lift (State.atPace q) (fun _ _ => BusyStep.atPace q) _ _ h

/-- An accepted instruction, at either pace: its operands are defined, and what its step answers the
agents' steps reach from its acceptance. -/
theorem runInstr_reaches {i : Instr} {s t : State} (hs : s.Ready) (h : runInstr i s = .next t) :
    operandRefusal s.params i = none ∧ Reaches (State.accept i s) t := by
  unfold runInstr at h
  split at h
  · exact ⟨operandRefusal_of_exec hs.1 h, exec_reaches hs h⟩
  · split at h
    · cases h
    · next hdef => exact ⟨hdef, Host.Outcome.next.inj h ▸ .refl⟩

/-- The outcome `out` of a step and the outcome of the same step at pace `agent`: from the state that
the second answers, well placed, the agents' steps reach the one that the first answers. -/
def AgentPaceReaches (out outAgent : Host.Outcome State Fault Refusal) : Prop :=
  ∀ t, out = .next t → ∃ u : State, outAgent = .next (u.atPace .agent) ∧ u.OpInv ∧ Reaches u t

/-- A step that does the same at both paces. -/
theorem AgentPaceReaches.same {u : State} (hu : u.OpInv) :
    AgentPaceReaches (.next u) (.next (u.atPace .agent)) := fun _ h =>
  ⟨u, rfl, hu, Host.Outcome.next.inj h ▸ .refl⟩

theorem presentWord_agentPace {s : State} (hs : s.Ready) (w : OpWord) :
    AgentPaceReaches (presentWord w s) (presentWord w (s.atPace .agent)) := by
  intro t h
  unfold presentWord at h ⊢
  cases hw : decode w with
  | none =>
    rw [hw] at h
    cases h
  | some i =>
    rw [hw] at h
    obtain ⟨hdef, hreach⟩ := runInstr_reaches hs h
    refine ⟨State.accept i s, ?_, accept_opInv hs.2 hdef, hreach⟩
    simp only [runInstr, State.atPace, hdef]
    rfl

theorem hostStep_agentPace {s : State} (hs : s.Ready) (act : HostAct) :
    AgentPaceReaches (hostStep act s) (hostStep act (s.atPace .agent)) := by
  have hinv : s.OpInv := (State.opInv_ready hs.1).2 hs.2
  cases act with
  | present w => exact presentWord_agentPace hs w
  | presentKept w => exact presentWord_agentPace hs (withN w s.kept)
  | keepResult => exact .same (u := { s with kept := s.result }) hinv
  | store a b => exact .same (u := hostStore a b s) hinv
  | load a => exact .same (u := hostLoad a s) hinv
  | settle k =>
    exact .same (u := { s with settles := s.settles ++ [(s.wire.length, k)] }) hinv

theorem idleStep_agentPace {s : State} (hs : s.Ready) :
    AgentPaceReaches (idleStep s) (idleStep (s.atPace .agent)) := by
  have hhost : (s.atPace .agent).host = s.host := rfl
  unfold idleStep
  rw [hhost]
  cases s.host with
  | nil => exact .same (u := State.endPulse s) ((State.opInv_ready hs.1).2 hs.2)
  | cons act rest => exact hostStep_agentPace (s := State.endPulse { s with host := rest }) hs act

/-- A machine step from a well-placed state, at either pace. -/
theorem step_agentPace {s : State} (hs : s.OpInv) :
    AgentPaceReaches (step s) (step (s.atPace .agent)) := by
  cases ho : s.op with
  | none =>
    have e : ∀ u : State, u.op = none → step u = idleStep u := fun u hu => by simp [step, hu]
    rw [e s ho, e (s.atPace .agent) ho]
    exact idleStep_agentPace ⟨ho, (State.opInv_ready ho).1 hs⟩
  | some o =>
    have hbusy : s.op.isSome = true := by simp [ho]
    rw [step_busy hbusy, step_busy (s := s.atPace .agent) hbusy, busyStep_paceFree]
    exact .same (busyStep_opInv hs)

/-- Every step keeps an operation in progress at its pseudocode's positions, and the block at rest on
a ready port, at either pace. -/
theorem step_opInv {s t : State} (hs : s.OpInv) (h : step s = .next t) : t.OpInv := by
  obtain ⟨u, -, hu, hreach⟩ := step_agentPace hs t h
  exact hreach.opInv hu

/-- The first step of a run that ends in a state answers a state. -/
theorem step_of_run_succ {k : Nat} {s t : State} (h : run (k + 1) s = .next t) :
    ∃ v, step s = .next v := by
  cases hs : step s with
  | next v => exact ⟨v, rfl⟩
  | fault f => cases f
  | refused why =>
    have hcore : core.step s = .refused why := hs
    simp only [run, Host.Core.run, hcore] at h
    cases h

/-- A run from a well-placed state, at either pace: a run at pace `agent` ends where it ends. -/
theorem run_agentPace {k : Nat} {s t : State} (hs : s.OpInv) (h : run k s = .next t) :
    ∃ m, run m (s.atPace .agent) = .next (t.atPace .agent) := by
  induction k generalizing s with
  | zero =>
    obtain rfl := Host.Outcome.next.inj h
    exact ⟨0, rfl⟩
  | succ k ih =>
    obtain ⟨v, hv⟩ := step_of_run_succ h
    rw [run_succ k hv] at h
    obtain ⟨u, hu, -, hreach⟩ := step_agentPace hs v hv
    obtain ⟨l, hl⟩ := (hreach.atPace .agent).exists_run
    obtain ⟨m, hm⟩ := ih (step_opInv hs hv) h
    have hfirst : run (l + 1) (s.atPace .agent) = .next (v.atPace .agent) :=
      (run_succ l hu).trans hl
    exact ⟨l + 1 + m, (run_add hfirst).trans hm⟩

/-- Settles O35: an operation taken whole is followed wait by wait, the Link's and the Engine's order
being immaterial at a repeat's end, and a run step by step along the position invariant. -/
theorem agentStepsReachExec : Obligations.AgentStepsReachExec := by
  unfold Obligations.AgentStepsReachExec
  exact ⟨fun i s t hs _ h => (exec_reaches hs h).exists_run,
    fun k s t hs _ h => run_agentPace hs.placed h⟩

end Sys2Proof.Machine
end

section
/-! PROOFS. What every machine step keeps (10_state.md R31, R35, R38; 40_framing_ops.md R93): the
parameters and the pace, the trace so far, the canonical memory, and so the invariant of the machine. -/

namespace Sys2Proof.Machine

/-! ### What every statement and every agent keeps, in any state -/

/-- `t` comes after `s`: events are only appended to the trace, the parameters and the pace stay, and
canonical memory and placed settle markers stay so. -/
structure Onward (s t : State) : Prop where
  wire : s.wire <+: t.wire
  params : t.params = s.params
  pace : t.pace = s.pace
  memory : Memory.wf s.mem = true → Memory.wf t.mem = true
  markers : s.MarkersPlaced → t.MarkersPlaced

/-- `Onward`, with a framed trace left framed. The Engine's and the Channel's steps are so in any
state, the Link's only where chip-select is active. -/
structure FramedOnward (s t : State) : Prop extends Onward s t where
  framed : s.Framed → t.Framed

section
variable {s t u : State}

theorem Onward.refl (s : State) : Onward s s := ⟨List.prefix_rfl, rfl, rfl, id, id⟩

theorem Onward.trans (h : Onward s t) (h' : Onward t u) : Onward s u :=
  ⟨h.wire.trans h'.wire, h'.params.trans h.params, h'.pace.trans h.pace, h'.memory ∘ h.memory,
    h'.markers ∘ h.markers⟩

theorem FramedOnward.trans (h : FramedOnward s t) (h' : FramedOnward t u) : FramedOnward s u :=
  ⟨h.toOnward.trans h'.toOnward, h'.framed ∘ h.framed⟩

/-- The places of settle markers stay places of a trace that grows. -/
theorem State.MarkersPlaced.mono (h : s.MarkersPlaced) (hset : t.settles = s.settles)
    (hwire : s.wire <+: t.wire) : t.MarkersPlaced := fun d hd =>
  (h d (hset ▸ hd)).trans hwire.length_le

/-- Events that fit the level of chip-select, and lead to the level after them, frame a framed trace
further. -/
theorem State.Framed.append (h : s.Framed) {es : List WireEvent} (hwire : t.wire = s.wire ++ es)
    (hes : selectedAfter s.cs es = some t.cs) : t.Framed := by
  rw [State.Framed, hwire, selectedAfter_append, h]
  exact hes

/-- An update of the trace and of fields that the relation does not speak of. -/
theorem Onward.of_append {es : List WireEvent} (hwire : t.wire = s.wire ++ es)
    (hmem : t.mem = s.mem := by rfl) (hset : t.settles = s.settles := by rfl)
    (hparams : t.params = s.params := by rfl) (hpace : t.pace = s.pace := by rfl) : Onward s t :=
  have hgrows : s.wire <+: t.wire := ⟨es, hwire.symm⟩
  ⟨hgrows, hparams, hpace, fun h => hmem ▸ h, fun h => h.mono hset hgrows⟩

/-- An update of fields that the relation does not speak of. -/
theorem Onward.of_same (hwire : t.wire = s.wire := by rfl) (hmem : t.mem = s.mem := by rfl)
    (hset : t.settles = s.settles := by rfl) (hparams : t.params = s.params := by rfl)
    (hpace : t.pace = s.pace := by rfl) : Onward s t :=
  .of_append (es := []) (by simp [hwire]) hmem hset hparams hpace

/-- An update of fields that the relation does not speak of, chip-select as before. -/
theorem FramedOnward.of_same (hcs : t.cs = s.cs := by rfl) (hwire : t.wire = s.wire := by rfl)
    (hmem : t.mem = s.mem := by rfl) (hset : t.settles = s.settles := by rfl)
    (hparams : t.params = s.params := by rfl) (hpace : t.pace = s.pace := by rfl) :
    FramedOnward s t :=
  ⟨.of_same hwire hmem hset hparams hpace,
    fun h => h.append (es := []) (by simp [hwire]) (by simp [selectedAfter, hcs])⟩

/-- A host store or a fill: memory written in canonical form. -/
theorem FramedOnward.of_memory {m : Memory} (hm : Memory.wf s.mem = true → Memory.wf m = true) :
    FramedOnward s { s with mem := m } :=
  ⟨⟨List.prefix_rfl, rfl, rfl, hm, id⟩, id⟩

end

/-! ### Statements -/

theorem assertCs_framedOnward (s : State) : FramedOnward s (State.assertCs s) := by
  rw [State.assertCs_eq]
  refine ⟨.of_append rfl, fun h => h.append rfl ?_⟩
  cases s.cs <;> rfl

theorem releaseCs_framedOnward (s : State) : FramedOnward s (State.releaseCs s) := by
  rw [State.releaseCs_eq]
  refine ⟨.of_append rfl, fun h => h.append rfl ?_⟩
  cases s.cs <;> rfl

theorem linkFinish_onward (q : LinkPlan) (s : State) : Onward s (State.linkFinish q s) :=
  .of_append rfl

/-- A unit that the link finishes while chip-select is active is framed. -/
theorem linkFinish_framed {s : State} (q : LinkPlan) (hcs : s.cs = true) (h : s.Framed) :
    (State.linkFinish q s).Framed :=
  h.append rfl (by simp [selectedAfter, hcs])

theorem selectBody_framedOnward (s : State) : FramedOnward s (selectBody s) :=
  (assertCs_framedOnward s).trans .of_same

theorem deselectBody_framedOnward (s : State) : FramedOnward s (deselectBody s) :=
  (releaseCs_framedOnward s).trans .of_same

theorem sendUnit_framedOnward (i : Instr) (p : Pos) (d : Bit) (u : Byte) (s : State) :
    FramedOnward s (sendUnit i p d u s) :=
  have hdc : FramedOnward s (State.setDc d s) := .of_same
  (hdc.trans (assertCs_framedOnward _)).trans .of_same

theorem blockSetup_framedOnward (a n : Word) (r : Half) (s : State) :
    FramedOnward s (blockSetup a n r s) :=
  have hdc : FramedOnward s (State.setDc 1 s) := .of_same
  (hdc.trans (assertCs_framedOnward _)).trans .of_same

theorem fillBody_framedOnward (c : Half) (n : Word) (s : State) :
    FramedOnward s (fillBody c n s) :=
  (FramedOnward.of_memory fun h => fillPairs_wf h s.params c (fillCount n)).trans .of_same

theorem complete_onward (v : Word) (s : State) : Onward s (State.complete v s) :=
  .of_same

/-! ### A whole operation -/

theorem awaitLink_onward {k : State → State} (hk : ∀ u, Onward u (k u)) (s : State) :
    Onward s (State.awaitLink k s) :=
  State.awaitLink_keeps (Onward s) k s (.refl s) (hk s)
    (fun q => (linkFinish_onward q s).trans (hk _))

theorem streamUnits_onward {k : State → State} (hk : ∀ u, Onward u (k u)) (n : Nat) (s : State) :
    Onward s (streamUnits n k s) := by
  induction n generalizing s with
  | zero => exact hk s
  | succ n ih =>
    have hmove : ∀ u, Onward u (State.channelMove u) := fun _ => .of_same
    exact awaitLink_onward (fun u => (hmove u).trans (ih _)) s

theorem runRepeats_onward (i : Instr) (n r : Nat) (s : State) : Onward s (runRepeats i n r s) := by
  induction r generalizing s with
  | zero =>
    have hleave : Onward s (leaveLoop i s) := .of_same
    exact hleave.trans (awaitLink_onward (complete_onward 0) _)
  | succ r ih =>
    have hstart : Onward s (startRepeat i s) := .of_same
    have hend : ∀ u, Onward u (endRepeat u) := fun _ => .of_same
    exact hstart.trans (streamUnits_onward (fun u => (hend u).trans (ih _)) n _)

theorem perform_onward {i : Instr} {body : State → State} (hbody : ∀ u, Onward u (body u))
    {s t : State} (h : State.perform i body s = .next t) : Onward s t := by
  obtain ⟨-, rfl⟩ | ⟨-, rfl⟩ := State.perform_eq_next.1 h
  · exact .refl _
  · have haccept : Onward s (State.accept i s) := .of_same
    exact haccept.trans (hbody _)

/-- A `send_block` that is answered is performed. -/
theorem perform_of_execSendBlock {a n : Word} {r : Half} {s t : State}
    (h : execSendBlock a n r s = .next t) :
    State.perform (.sendBlock a n r)
      (fun u => runRepeats (.sendBlock a n r) n.toNat r.toNat (blockSetup a n r u)) s = .next t := by
  rw [execSendBlock_eq] at h
  split at h
  · cases h
  · exact h

theorem exec_onward {i : Instr} {s t : State} (h : exec i s = .next t) : Onward s t := by
  have hcomplete := awaitLink_onward (complete_onward 0)
  cases i with
  | select => exact perform_onward (fun u => (selectBody_framedOnward u).toOnward) h
  | deselect => exact perform_onward (fun u => (deselectBody_framedOnward u).toOnward) h
  | sendCommand _ | sendData8 _ =>
    exact perform_onward
      (fun u => (sendUnit_framedOnward _ _ _ _ u).toOnward.trans (hcomplete _)) h
  | sendData16 w =>
    have hlow : ∀ u, Onward u (sendLow w u) := fun _ => .of_same
    exact perform_onward (fun u => (sendUnit_framedOnward _ _ _ _ u).toOnward.trans
      (awaitLink_onward (fun v => (hlow v).trans (hcomplete _)) _)) h
  | sendBlock a n r =>
    exact perform_onward
      (fun u => (blockSetup_framedOnward a n r u).toOnward.trans (runRepeats_onward _ _ _ _))
      (perform_of_execSendBlock h)
  | fillSpan c n => exact perform_onward (fun u => (fillBody_framedOnward c n u).toOnward) h

/-! ### One agent's step -/

theorem blockNext_framedOnward (i : Instr) (s : State) : FramedOnward s (blockNext i s) := by
  by_cases hrep : s.rep = 0
  · rw [blockNext_done hrep]
    split <;> exact .of_same
  · rw [blockNext_more hrep]
    exact .of_same

theorem engineStart_framedOnward (i : Instr) (s : State) : FramedOnward s (engineStart i s) := by
  cases i with
  | select => exact selectBody_framedOnward s
  | deselect => exact deselectBody_framedOnward s
  | sendCommand _ | sendData8 _ | sendData16 _ => exact sendUnit_framedOnward _ _ _ _ s
  | sendBlock a n r => exact (blockSetup_framedOnward a n r s).trans (blockNext_framedOnward _ _)
  | fillSpan c n => exact fillBody_framedOnward c n s

theorem engineStep_framedOnward {s t : State} (h : State.engineStep s = some t) :
    FramedOnward s t := by
  cases ho : s.op with
  | none => simp [State.engineStep, ho] at h
  | some o =>
    obtain ⟨i, p⟩ := o
    rw [State.engineStep_at ho] at h
    cases p with
    | start =>
      obtain rfl := Option.some.inj h
      exact engineStart_framedOnward i s
    | highSent =>
      cases i with
      | sendData16 w =>
        obtain ⟨-, rfl⟩ : _ ∧ sendLow w s = t := by simpa [engineFrom] using h
        exact .of_same
      | select | deselect | sendCommand _ | sendData8 _ | sendBlock _ _ _ | fillSpan _ _ => cases h
    | unitSent | drain =>
      rw [engineFrom_last (by decide)] at h
      obtain ⟨-, rfl⟩ : _ ∧ State.complete 0 s = t := by simpa using h
      exact .of_same
    | waitTc =>
      obtain ⟨-, rfl⟩ : _ ∧ blockNext i (endRepeat s) = t := by simpa [engineFrom] using h
      have hend : FramedOnward s (endRepeat s) := .of_same
      exact hend.trans (blockNext_framedOnward i _)

theorem channelStep_framedOnward {s t : State} (h : State.channelStep s = some t) :
    FramedOnward s t := by
  obtain ⟨-, rfl⟩ := State.channelStep_eq_some.1 h
  exact .of_same

theorem agentStep_onward {s t : State} (h : State.agentStep s = some t) : Onward s t := by
  obtain ⟨h, -⟩ | ⟨h, -⟩ | ⟨-, -, h⟩ := State.agentStep_eq_some.1 h
  · obtain ⟨-, q, -, rfl⟩ := State.linkStep_eq_some.1 h
    exact linkFinish_onward q s
  · exact (engineStep_framedOnward h).toOnward
  · exact (channelStep_framedOnward h).toOnward

/-- Wherever a well-placed block has a unit with the link, chip-select is active. -/
theorem State.OpInv.selected_of_busy {s : State} (hs : s.OpInv) (hbusy : s.link.busy = true) :
    s.cs = true := by
  cases ho : s.op with
  | none =>
    obtain ⟨hidle, -⟩ := (State.opInv_ready ho).1 hs
    simp [hidle] at hbusy
  | some o =>
    obtain ⟨i, p⟩ := o
    rw [State.opInv_at ho] at hs
    cases p with
    | start =>
      obtain ⟨⟨hidle, -⟩, -⟩ := hs
      simp [hidle] at hbusy
    | highSent | unitSent | waitTc | drain =>
      cases i <;> simp_all only [State.AtPosition]

theorem agentStep_framed {s t : State} (hs : s.OpInv) (hf : s.Framed)
    (h : State.agentStep s = some t) : t.Framed := by
  obtain ⟨h, -⟩ | ⟨h, -⟩ | ⟨-, -, h⟩ := State.agentStep_eq_some.1 h
  · obtain ⟨hbusy, q, -, rfl⟩ := State.linkStep_eq_some.1 h
    exact linkFinish_framed q (hs.selected_of_busy hbusy) hf
  · exact (engineStep_framedOnward h).framed hf
  · exact (channelStep_framedOnward h).framed hf

theorem busyStep_onward (s : State) : Onward s (busyStep s) := by
  have hpulse : Onward s (State.endPulse s) := .of_same
  unfold busyStep
  split
  · next h => exact hpulse.trans (agentStep_onward h)
  · exact hpulse

theorem busyStep_framed {s : State} (hs : s.OpInv) (hf : s.Framed) : (busyStep s).Framed := by
  unfold busyStep
  split
  · next h => exact agentStep_framed (s := State.endPulse s) hs hf h
  · exact hf

theorem Reaches.framed {s t : State} (h : Reaches s t) (hs : s.OpInv) (hf : s.Framed) :
    t.Framed := by
  induction h with
  | refl => exact hf
  | tail hreach hstep ih =>
    obtain ⟨ho, hnext⟩ := hstep
    rw [step_busy ho] at hnext
    exact Host.Outcome.next.inj hnext ▸ busyStep_framed (Reaches.opInv hreach hs) ih

/-! ### The host's step, and any step -/

theorem runInstr_onward {i : Instr} {s t : State} (h : runInstr i s = .next t) : Onward s t := by
  unfold runInstr at h
  split at h
  · exact exec_onward h
  · split at h
    · cases h
    · obtain rfl := Host.Outcome.next.inj h
      exact .of_same

/-- From a ready port an instruction taken at either pace leaves a framed trace framed. -/
theorem runInstr_framed {i : Instr} {s t : State} (hs : s.Ready) (hf : s.Framed)
    (h : runInstr i s = .next t) : t.Framed := by
  obtain ⟨hdef, hreach⟩ := runInstr_reaches hs h
  exact hreach.framed (accept_opInv hs.2 hdef) hf

/-- A presented word that is answered is an instruction, taken at the machine's pace. -/
theorem presentWord_eq_next {w : OpWord} {s t : State} :
    presentWord w s = .next t ↔ ∃ i, decode w = some i ∧ runInstr i s = .next t := by
  cases hw : decode w <;> simp [presentWord, hw]

/-- Everything a host action can do: an instruction is presented, or no operation is. -/
theorem hostStep_cases {act : HostAct} {s t : State} (h : hostStep act s = .next t) :
    (∃ i, runInstr i s = .next t) ∨ FramedOnward s t := by
  cases act with
  | present w | presentKept w =>
    obtain ⟨i, -, hi⟩ := presentWord_eq_next.1 h
    exact .inl ⟨i, hi⟩
  | keepResult | load _ =>
    obtain rfl := Host.Outcome.next.inj h
    exact .inr .of_same
  | store a b =>
    obtain rfl := Host.Outcome.next.inj h
    exact .inr (.of_memory fun hm => Memory.write_wf hm b a.isLt)
  | settle k =>
    obtain rfl := Host.Outcome.next.inj h
    refine .inr ⟨⟨List.prefix_rfl, rfl, rfl, id, fun hplaced d hd => ?_⟩, id⟩
    obtain hd | hd := List.mem_append.1 hd
    · exact hplaced d hd
    · obtain rfl := List.mem_singleton.1 hd
      exact le_rfl

/-- Everything a step can do while the port is ready. -/
theorem idleStep_cases {s t : State} (h : idleStep s = .next t) :
    (∃ rest i, runInstr i (State.endPulse { s with host := rest }) = .next t)
      ∨ FramedOnward s t := by
  unfold idleStep at h
  split at h
  · obtain rfl := Host.Outcome.next.inj h
    exact .inr .of_same
  · next act rest _ =>
    have htaken : FramedOnward s (State.endPulse { s with host := rest }) := .of_same
    obtain ⟨i, hi⟩ | hon := hostStep_cases h
    · exact .inl ⟨rest, i, hi⟩
    · exact .inr (htaken.trans hon)

/-- Everything a machine step can do, by whether the port is ready. -/
theorem step_cases {s t : State} (h : step s = .next t) :
    (s.op = none ∧ idleStep s = .next t) ∨ (s.op.isSome = true ∧ t = busyStep s) := by
  cases ho : s.op with
  | none => exact .inl ⟨rfl, by simpa [step, ho] using h⟩
  | some o =>
    rw [step_busy (by simp [ho])] at h
    exact .inr ⟨rfl, (Host.Outcome.next.inj h).symm⟩

theorem step_onward {s t : State} (h : step s = .next t) : Onward s t := by
  obtain ⟨-, hidle⟩ | ⟨-, rfl⟩ := step_cases h
  · obtain ⟨rest, i, hi⟩ | hon := idleStep_cases hidle
    · have htaken : Onward s (State.endPulse { s with host := rest }) :=
        .of_same
      exact htaken.trans (runInstr_onward hi)
    · exact hon.toOnward
  · exact busyStep_onward s

theorem step_framed {s t : State} (hs : s.OpInv) (hf : s.Framed) (h : step s = .next t) :
    t.Framed := by
  obtain ⟨ho, hidle⟩ | ⟨-, rfl⟩ := step_cases h
  · obtain ⟨rest, i, hi⟩ | hon := idleStep_cases hidle
    · exact runInstr_framed (s := State.endPulse { s with host := rest })
        ⟨ho, (State.opInv_ready ho).1 hs⟩ hf hi
    · exact hon.framed hf
  · exact busyStep_framed hs hf

/-! ### The obligations -/

/-- Settles O38: memory and markers are kept in any state, the position invariant by
`step_opInv`, and the framing because a well-placed block has chip-select active at every unit. -/
theorem stepKeepsInv : Obligations.StepKeepsInv := by
  unfold Obligations.StepKeepsInv
  intro s t hs h
  have hon := step_onward h
  exact ⟨hon.memory hs.memory, step_framed hs.placed hs.framed h, step_opInv hs.placed h,
    hon.markers hs.markers⟩

/-- Settles O39: what the position invariant says after the step where no operation is in progress. -/
theorem restingBetweenOperations : Obligations.RestingBetweenOperations := by
  unfold Obligations.RestingBetweenOperations
  intro s t hs h ho
  exact (State.opInv_ready ho).1 (stepKeepsInv s t hs h).placed

/-- Settles O40: no statement and no agent takes an event back. -/
theorem wireOnlyGrows : Obligations.WireOnlyGrows := by
  unfold Obligations.WireOnlyGrows
  intro s t h
  obtain ⟨es, hes⟩ := (step_onward h).wire
  exact ⟨es, hes.symm⟩

/-- Settles O43: no statement and no agent writes the parameters or the pace. -/
theorem parametersNeverChange : Obligations.ParametersNeverChange := by
  unfold Obligations.ParametersNeverChange
  intro s t h
  exact ⟨(step_onward h).params, (step_onward h).pace⟩

/-- Settles O36: the values of R36, field by field, and `STATUS` computed from them. -/
theorem resetValues : Obligations.ResetValues := by
  unfold Obligations.ResetValues
  decide

/-- Settles O37: empty memory and an empty trace are well formed, and the block rests. -/
theorem resetMeetsInv : Obligations.ResetMeetsInv where
  memory := rfl
  framed := rfl
  placed := (State.opInv_ready rfl).2 (by decide)
  markers := by simp [State.reset]

@[simp] theorem flagBit_getElem_zero (b : Bool) : (flagBit b)[0] = b := by
  cases b <;> rfl

/-- Settles O44: each bit of the concatenation falls into the one-bit field of its flag. -/
theorem statusBits : Obligations.StatusBits := by
  unfold Obligations.StatusBits
  intro s
  simp only [State.status, BitVec.getLsbD_append]
  simp

end Sys2Proof.Machine
end

section
/-! PROOFS. Buffer space (20_memory.md): what each of the host's own actions does to it and beside it,
and that of the block's operations only `fill_span` writes it, only inside the scratch region. -/

namespace Sys2Proof.Machine

/-! ### The host's own actions -/

/-- On a ready port the host's next action is taken, the pulse of an earlier completion over. -/
theorem step_hostAct {s : State} {act : HostAct} {rest : List HostAct} (ho : s.op = none)
    (hact : s.host = act :: rest) :
    step s = hostStep act (State.endPulse { s with host := rest }) := by
  simp only [step, ho, idleStep, hact]

/-- On a ready port with no action left only the pulse ends. -/
theorem step_noAct {s : State} (ho : s.op = none) (hact : s.host = []) :
    step s = .next (State.endPulse s) := by
  simp only [step, ho, idleStep, hact]

/-- Settles O27: each action by its own meaning, a store by the law of a read after a write. -/
theorem hostActionsTakeEffect : Obligations.HostActionsTakeEffect := by
  unfold Obligations.HostActionsTakeEffect
  intro s rest ho
  refine ⟨fun a b hact => ?store, fun a hact => step_hostAct ho hact, fun hact => step_hostAct ho hact,
    fun k hact => step_hostAct ho hact, step_noAct ho⟩
  case store =>
    exact ⟨_, step_hostAct ho hact, rfl, rfl, Memory.read_write_same _ _ _,
      fun _ hx => Memory.read_write_other _ _ hx, rfl⟩

/-! ### What leaves buffer space alone -/

@[simp] theorem State.assertCs_mem (s : State) : (State.assertCs s).mem = s.mem := by
  rw [State.assertCs_eq]

@[simp] theorem State.releaseCs_mem (s : State) : (State.releaseCs s).mem = s.mem := by
  rw [State.releaseCs_eq]

@[simp] theorem sendUnit_mem (i : Instr) (p : Pos) (d : Bit) (u : Byte) (s : State) :
    (sendUnit i p d u s).mem = s.mem :=
  State.assertCs_mem _

@[simp] theorem blockSetup_mem (a n : Word) (r : Half) (s : State) :
    (blockSetup a n r s).mem = s.mem :=
  State.assertCs_mem _

theorem awaitLink_mem {k : State → State} (hk : ∀ u, (k u).mem = u.mem) (s : State) :
    (State.awaitLink k s).mem = s.mem :=
  State.awaitLink_keeps (·.mem = s.mem) k s rfl (hk s) fun _ => hk _

theorem streamUnits_mem {k : State → State} (hk : ∀ u, (k u).mem = u.mem) (n : Nat) (s : State) :
    (streamUnits n k s).mem = s.mem := by
  induction n generalizing s with
  | zero => exact hk s
  | succ n ih => exact awaitLink_mem (fun u => ih (State.channelMove u)) s

theorem runRepeats_mem (i : Instr) (n r : Nat) (s : State) : (runRepeats i n r s).mem = s.mem := by
  induction r generalizing s with
  | zero => exact awaitLink_mem (State.complete_mem 0) (leaveLoop i s)
  | succ r ih => exact streamUnits_mem (fun u => ih (endRepeat u)) n (startRepeat i s)

theorem perform_mem {i : Instr} {body : State → State} (hbody : ∀ u, (body u).mem = u.mem)
    {s t : State} (h : State.perform i body s = .next t) : t.mem = s.mem := by
  obtain ⟨-, rfl⟩ | ⟨-, rfl⟩ := State.perform_eq_next.1 h
  · rfl
  · exact hbody (State.accept i s)

@[simp] theorem blockNext_mem (i : Instr) (s : State) : (blockNext i s).mem = s.mem := by
  by_cases hrep : s.rep = 0
  · rw [blockNext_done hrep]
    split <;> rfl
  · rw [blockNext_more hrep]
    rfl

/-! ### What an operation may write -/

/-- What operation `i` may make of buffer space `m`: it leaves it, or it is a `fill_span` and fills its
pairs (42_fill_engine.md R117). -/
inductive BlockWrites (p : Params) (m : Memory) : Instr → Memory → Prop where
  | kept {i : Instr} {m' : Memory} (hmem : m' = m) : BlockWrites p m i m'
  | filled (c : Half) (n : Word) : BlockWrites p m (.fillSpan c n) (fillPairs p c (fillCount n) m)

/-- Scratch bytes lie in the scratch region where it does not wrap (20_memory.md R47). -/
theorem scratchAddr_inScratch {p : Params} (hfit : p.scratchBase.toNat + 640 ≤ 2 ^ 32) {off : Nat}
    (hoff : off < 640) : p.inScratch (scratchAddr p off) := by
  have haddr : scratchAddr p off = p.scratchBase.toNat + off := by
    simp only [scratchAddr, BitVec.toNat_add, BitVec.toNat_ofNat]
    omega
  have hcap : Config.scratchCap = 640 := rfl
  simp only [Params.inScratch, haddr, hcap]
  omega

/-- The fill leaves every byte outside the scratch region alone. -/
theorem read_fillPairs_outside {p : Params} (hfit : p.scratchBase.toNat + 640 ≤ 2 ^ 32)
    (m : Memory) (c : Half) (n : Word) {x : Nat} (hx : ¬ p.inScratch x) :
    Memory.read (fillPairs p c (fillCount n) m) x = Memory.read m x := by
  refine read_fillPairs_other m p c (fillCount n) fun off hoff heq => hx ?_
  rw [fillCount_eq_min] at hoff
  exact heq ▸ scratchAddr_inScratch hfit (by omega)

section
variable {p : Params} {m m' : Memory} {i : Instr}

theorem BlockWrites.read_outside (h : BlockWrites p m i m')
    (hfit : p.scratchBase.toNat + 640 ≤ 2 ^ 32) {x : Nat} (hx : ¬ p.inScratch x) :
    Memory.read m' x = Memory.read m x := by
  cases h with
  | kept hmem => rw [hmem]
  | filled c n => exact read_fillPairs_outside hfit m c n hx

theorem BlockWrites.mem_eq (h : BlockWrites p m i m') (hi : ∀ c n, i ≠ .fillSpan c n) : m' = m := by
  cases h with
  | kept hmem => exact hmem
  | filled c n => exact absurd rfl (hi c n)

end

/-- An operation taken whole. -/
theorem exec_writes {i : Instr} {s t : State} (h : exec i s = .next t) :
    BlockWrites s.params s.mem i t.mem := by
  have hcomplete := awaitLink_mem (State.complete_mem 0)
  cases i with
  | select => exact .kept (perform_mem (body := selectBody) State.assertCs_mem h)
  | deselect => exact .kept (perform_mem (body := deselectBody) State.releaseCs_mem h)
  | sendCommand _ | sendData8 _ =>
    exact .kept (perform_mem (fun u => (hcomplete _).trans (sendUnit_mem _ _ _ _ u)) h)
  | sendData16 w =>
    have hlow : ∀ u, (State.awaitLink (State.complete 0) (sendLow w u)).mem = u.mem := fun u =>
      hcomplete (sendLow w u)
    exact .kept (perform_mem (fun u => (awaitLink_mem hlow _).trans (sendUnit_mem _ _ _ _ u)) h)
  | sendBlock a n r =>
    exact .kept (perform_mem (fun u => (runRepeats_mem _ _ _ _).trans (blockSetup_mem a n r u))
      (perform_of_execSendBlock h))
  | fillSpan c n =>
    obtain ⟨-, rfl⟩ | ⟨-, rfl⟩ := State.perform_eq_next.1 h
    · exact .kept rfl
    · exact .filled c n

/-- An operation's first Engine step. -/
theorem engineStart_writes (i : Instr) (s : State) :
    BlockWrites s.params s.mem i (engineStart i s).mem := by
  cases i with
  | select => exact .kept (State.assertCs_mem s)
  | deselect => exact .kept (State.releaseCs_mem s)
  | sendCommand _ | sendData8 _ | sendData16 _ => exact .kept (sendUnit_mem _ _ _ _ s)
  | sendBlock a n r => exact .kept ((blockNext_mem _ _).trans (blockSetup_mem a n r s))
  | fillSpan c n => exact .filled c n

/-- An Engine step from any position. -/
theorem engineFrom_writes {i : Instr} {p : Pos} {s t : State} (h : engineFrom i p s = some t) :
    BlockWrites s.params s.mem i t.mem := by
  cases p with
  | start =>
    obtain rfl := Option.some.inj h
    exact engineStart_writes i s
  | highSent =>
    cases i with
    | sendData16 w =>
      obtain ⟨-, rfl⟩ : _ ∧ sendLow w s = t := by simpa [engineFrom] using h
      exact .kept rfl
    | select | deselect | sendCommand _ | sendData8 _ | sendBlock _ _ _ | fillSpan _ _ => cases h
  | unitSent | drain =>
    rw [engineFrom_last (by decide)] at h
    obtain ⟨-, rfl⟩ : _ ∧ State.complete 0 s = t := by simpa using h
    exact .kept rfl
  | waitTc =>
    obtain ⟨-, rfl⟩ : _ ∧ blockNext i (endRepeat s) = t := by simpa [engineFrom] using h
    exact .kept (blockNext_mem i (endRepeat s))

/-- One agent's step: the Link and the Channel write nothing, the Engine what its operation may. -/
theorem agentStep_writes {i : Instr} {p : Pos} {s t : State} (ho : s.op = some ⟨i, p⟩)
    (h : State.agentStep s = some t) : BlockWrites s.params s.mem i t.mem := by
  obtain ⟨h, -⟩ | ⟨h, -⟩ | ⟨-, -, h⟩ := State.agentStep_eq_some.1 h
  · obtain ⟨-, q, -, rfl⟩ := State.linkStep_eq_some.1 h
    exact .kept rfl
  · rw [State.engineStep_at ho] at h
    exact engineFrom_writes h
  · obtain ⟨-, rfl⟩ := State.channelStep_eq_some.1 h
    exact .kept rfl

theorem busyStep_writes {i : Instr} {p : Pos} {s : State} (ho : s.op = some ⟨i, p⟩) :
    BlockWrites s.params s.mem i (busyStep s).mem := by
  unfold busyStep
  split
  · next h => exact agentStep_writes (s := State.endPulse s) ho h
  · exact .kept rfl

/-! ### Any machine step -/

/-- An instruction taken at either pace. -/
theorem runInstr_writes {i : Instr} {s t : State} (h : runInstr i s = .next t) :
    BlockWrites s.params s.mem i t.mem := by
  unfold runInstr at h
  split at h
  · exact exec_writes h
  · split at h
    · cases h
    · obtain rfl := Host.Outcome.next.inj h
      exact .kept rfl

/-- A word that is presented and answered writes what its operation may. -/
theorem presentWord_writes {w : OpWord} {s t : State} (h : presentWord w s = .next t) :
    ∃ i, decode w = some i ∧ BlockWrites s.params s.mem i t.mem := by
  obtain ⟨i, hw, hi⟩ := presentWord_eq_next.1 h
  exact ⟨i, hw, runInstr_writes hi⟩

/-- Operation `i` is in progress, or the host presents its word. -/
def State.InHand (i : Instr) (s : State) : Prop :=
  (∃ p, s.op = some ⟨i, p⟩) ∨ ∃ w, s.presented = some w ∧ decode w = some i

/-- A step on a ready port, but a host store: only a presented operation writes. -/
theorem readyStep_writes {s t : State} (ho : s.op = none) (h : step s = .next t)
    (hstore : ∀ a b rest, s.host ≠ .store a b :: rest) :
    t.mem = s.mem ∨ ∃ i, s.InHand i ∧ BlockWrites s.params s.mem i t.mem := by
  cases hhost : s.host with
  | nil =>
    rw [step_noAct ho hhost] at h
    obtain rfl := Host.Outcome.next.inj h
    exact .inl rfl
  | cons act rest =>
    rw [step_hostAct ho hhost] at h
    cases act with
    | present w | presentKept w =>
      obtain ⟨i, hw, hwrites⟩ := presentWord_writes h
      exact .inr ⟨i, .inr ⟨_, by simp [State.presented, ho, hhost], hw⟩, hwrites⟩
    | keepResult | load _ | settle _ =>
      obtain rfl := Host.Outcome.next.inj h
      exact .inl rfl
    | store a b => exact absurd hhost (hstore a b rest)

/-- Any step but a host store: buffer space is kept, or the operation in hand writes what it may. -/
theorem step_writes {s t : State} (h : step s = .next t)
    (hstore : s.op = none → ∀ a b rest, s.host ≠ .store a b :: rest) :
    t.mem = s.mem ∨ ∃ i, s.InHand i ∧ BlockWrites s.params s.mem i t.mem := by
  cases ho : s.op with
  | none => exact readyStep_writes ho h (hstore ho)
  | some o =>
    rw [step_busy (by simp [ho])] at h
    obtain rfl := Host.Outcome.next.inj h
    exact .inr ⟨o.instr, .inl ⟨o.pos, ho⟩, busyStep_writes ho⟩

/-- Settles O26: a whole operation, and any step but a host store, writes at most the fill of the
operation in hand, and a fill stays inside the scratch region. -/
theorem blockWritesOnlyScratch : Obligations.BlockWritesOnlyScratch := by
  unfold Obligations.BlockWritesOnlyScratch
  refine ⟨fun i s t h => ?whole, fun s t h hstore => ?step⟩
  case whole =>
    exact ⟨(exec_writes h).mem_eq, fun hfit _ hx => (exec_writes h).read_outside hfit hx⟩
  case step =>
    obtain hkept | ⟨i, hhand, hwrites⟩ := step_writes h hstore
    · exact ⟨fun _ _ _ => by rw [hkept], fun _ _ => hkept⟩
    · refine ⟨fun hfit _ hx => hwrites.read_outside hfit hx, fun hop hpresented => ?_⟩
      refine hwrites.mem_eq fun c n hi => ?_
      subst hi
      obtain ⟨p, ho⟩ | ⟨w, hw, hdec⟩ := hhand
      · exact hop _ ho c n rfl
      · exact hpresented w hw c n hdec

end Sys2Proof.Machine
end

section
/-! PROOFS. The encoding (30_encoding.md R65 to R72): an operation's fields, the decoder and the encoder
as inverses, and the rows of the match and mask table. -/

namespace Sys2Proof

/-! ### An operation's fields (R67) -/

/-- The field `V` of an operation's word. -/
def Instr.value : Instr → Half
  | .select | .deselect | .sendBlock _ _ _ => 0
  | .sendCommand b | .sendData8 b => byteInV b
  | .sendData16 w => w
  | .fillSpan c _ => c

/-- The field `N`. -/
def Instr.count : Instr → Word
  | .select | .deselect | .sendCommand _ | .sendData8 _ | .sendData16 _ => 0
  | .sendBlock _ n _ | .fillSpan _ n => n

/-- The field `R`. -/
def Instr.repeats : Instr → Half
  | .select | .deselect | .sendCommand _ | .sendData8 _ | .sendData16 _ | .fillSpan _ _ => 0
  | .sendBlock _ _ r => r

/-- The field `A`. -/
def Instr.address : Instr → Word
  | .select | .deselect | .sendCommand _ | .sendData8 _ | .sendData16 _ | .fillSpan _ _ => 0
  | .sendBlock a _ _ => a

theorem encode_eq_packWord (i : Instr) :
    encode i = packWord i.opc i.value i.count i.repeats i.address := by
  cases i <;> rfl

section
variable (i : Instr)

@[simp] theorem fieldOpc_encode : fieldOpc (encode i) = i.opc := by
  simp only [encode_eq_packWord, packWord_fields]

@[simp] theorem fieldZ0_encode : fieldZ0 (encode i) = 0 := by
  simp only [encode_eq_packWord, packWord_fields]

@[simp] theorem fieldV_encode : fieldV (encode i) = i.value := by
  simp only [encode_eq_packWord, packWord_fields]

@[simp] theorem fieldN_encode : fieldN (encode i) = i.count := by
  simp only [encode_eq_packWord, packWord_fields]

@[simp] theorem fieldZ1_encode : fieldZ1 (encode i) = 0 := by
  simp only [encode_eq_packWord, packWord_fields]

@[simp] theorem fieldR_encode : fieldR (encode i) = i.repeats := by
  simp only [encode_eq_packWord, packWord_fields]

@[simp] theorem fieldA_encode : fieldA (encode i) = i.address := by
  simp only [encode_eq_packWord, packWord_fields]

end

/-- A word is packed from its fields where `Z0` and `Z1` are zero. -/
theorem packWord_of_fields {w : OpWord} (hz0 : fieldZ0 w = 0) (hz1 : fieldZ1 w = 0) :
    packWord (fieldOpc w) (fieldV w) (fieldN w) (fieldR w) (fieldA w) = w := by
  rw [packWord, ← hz0, ← hz1, ← word_eq_fields]

/-- The word of `i` is the word with the fields of `i`. -/
theorem encode_eq_of_fields {w : OpWord} {i : Instr} (hz0 : fieldZ0 w = 0) (hz1 : fieldZ1 w = 0)
    (hopc : fieldOpc w = i.opc) (hv : fieldV w = i.value) (hn : fieldN w = i.count)
    (hr : fieldR w = i.repeats) (ha : fieldA w = i.address) : encode i = w := by
  rw [encode_eq_packWord, ← hopc, ← hv, ← hn, ← hr, ← ha, packWord_of_fields hz0 hz1]

@[simp] theorem hi_byteInV (b : Byte) : hi (byteInV b) = 0 := (byteInV_fields b).1

@[simp] theorem lo_byteInV (b : Byte) : lo (byteInV b) = b := (byteInV_fields b).2

/-- A value whose high byte is zero is a byte operand. -/
theorem eq_byteInV_lo {v : Half} (h : hi v = 0) : v = byteInV (lo v) := by
  rw [byteInV, ← h, hi_append_lo]

/-! ### The decoder and the encoder -/

/-- Settles O1: the decoder finds the operation's code, its zero fields zero, and its operands in the
fields it takes them from. -/
theorem decodeInvertsEncode : Obligations.DecodeInvertsEncode := by
  unfold Obligations.DecodeInvertsEncode
  intro i
  simp only [decode, fieldOpc_encode, fieldZ0_encode, fieldV_encode, fieldN_encode, fieldZ1_encode,
    fieldR_encode, fieldA_encode]
  cases i <;> simp [Instr.opc, Instr.value, Instr.count, Instr.repeats, Instr.address]

/-- Settles O2: in each branch of the decoder the word's fields are those of the operation answered. -/
theorem encodeInvertsDecode : Obligations.EncodeInvertsDecode := by
  unfold Obligations.EncodeInvertsDecode
  intro w i h
  simp only [decode] at h
  split at h
  · cases h
  next hz =>
  obtain ⟨hz0, hz1⟩ : fieldZ0 w = 0 ∧ fieldZ1 w = 0 := by simpa using hz
  repeat' split at h
  all_goals cases h
  next hopc hfields => -- `select`
    obtain ⟨hv, hn, hr, ha⟩ := hfields
    exact encode_eq_of_fields hz0 hz1 hopc hv hn hr ha
  next hopc hfields => -- `deselect`
    obtain ⟨hv, hn, hr, ha⟩ := hfields
    exact encode_eq_of_fields hz0 hz1 hopc hv hn hr ha
  next hopc hfields => -- `send_command`
    obtain ⟨hhi, hn, hr, ha⟩ := hfields
    exact encode_eq_of_fields hz0 hz1 hopc (eq_byteInV_lo hhi) hn hr ha
  next hopc hfields => -- `send_data8`
    obtain ⟨hhi, hn, hr, ha⟩ := hfields
    exact encode_eq_of_fields hz0 hz1 hopc (eq_byteInV_lo hhi) hn hr ha
  next hopc hfields => -- `send_data16`
    obtain ⟨hn, hr, ha⟩ := hfields
    exact encode_eq_of_fields hz0 hz1 hopc rfl hn hr ha
  next hopc hv => -- `send_block`
    exact encode_eq_of_fields hz0 hz1 hopc hv rfl rfl rfl
  next hopc hfields => -- `fill_span`
    obtain ⟨hr, ha⟩ := hfields
    exact encode_eq_of_fields hz0 hz1 hopc rfl rfl hr ha

/-- A word decodes to `i` iff it is the word of `i`. -/
theorem decode_eq_some {w : OpWord} {i : Instr} : decode w = some i ↔ encode i = w :=
  ⟨encodeInvertsDecode w i, fun h => h ▸ decodeInvertsEncode i⟩

/-! ### The match and mask table (R67) -/

/-- A row given by its operation code and, in each field, the bits that hold an operand; its mask
compares every other bit. -/
def fieldRow (mnemonic : String) (opc : BitVec 4) (v : Half) (n : Word) (r : Half) (a : Word) :
    Row where
  mnemonic := mnemonic
  pattern := packWord opc 0 0 0 0
  mask := ~~~packWord 0 v n r a

/-- The row of an operation (R67). -/
def Instr.row (i : Instr) : Row :=
  match i with
  | .select | .deselect => fieldRow i.mnemonic i.opc 0 0 0 0
  | .sendCommand _ | .sendData8 _ => fieldRow i.mnemonic i.opc (byteInV (.allOnes 8)) 0 0 0
  | .sendData16 _ => fieldRow i.mnemonic i.opc (.allOnes 16) 0 0 0
  | .sendBlock _ _ _ => fieldRow i.mnemonic i.opc 0 (.allOnes 32) (.allOnes 16) (.allOnes 32)
  | .fillSpan _ _ => fieldRow i.mnemonic i.opc (.allOnes 16) (.allOnes 32) 0 0

theorem opcodeTable_eq : opcodeTable =
    [ Instr.select.row, Instr.deselect.row, (Instr.sendCommand 0).row, (Instr.sendData8 0).row,
      (Instr.sendData16 0).row, (Instr.sendBlock 0 0 0).row, (Instr.fillSpan 0 0).row ] := by decide

theorem Instr.row_mnemonic (i : Instr) : i.row.mnemonic = i.mnemonic := by
  cases i <;> rfl

theorem Instr.row_mem_opcodeTable (i : Instr) : i.row ∈ opcodeTable := by
  rw [opcodeTable_eq]
  cases i <;> simp [Instr.row, Instr.mnemonic, Instr.opc]

/-- A name has one row. -/
theorem eq_row_of_mnemonic {row : Row} {i : Instr} (hrow : row ∈ opcodeTable)
    (h : i.mnemonic = row.mnemonic) : row = i.row :=
  have hnames : (opcodeTable.map Row.mnemonic).Nodup := by decide
  List.inj_on_of_nodup_map hnames hrow i.row_mem_opcodeTable (by rw [i.row_mnemonic, h])

/-- Two words with the same fields are the same word. -/
theorem word_eq_iff_fields {w u : OpWord} :
    w = u ↔ fieldOpc w = fieldOpc u ∧ fieldZ0 w = fieldZ0 u ∧ fieldV w = fieldV u
      ∧ fieldN w = fieldN u ∧ fieldZ1 w = fieldZ1 u ∧ fieldR w = fieldR u ∧ fieldA w = fieldA u := by
  refine ⟨fun h => by simp [h], fun ⟨hopc, hz0, hv, hn, hz1, hr, ha⟩ => ?_⟩
  rw [word_eq_fields w, hopc, hz0, hv, hn, hz1, hr, ha, ← word_eq_fields u]

/-- Clearing bits of a word clears them in the part that is cut out. -/
theorem extractLsb'_and_not {k : Nat} (x y : BitVec k) (start len : Nat) :
    (x &&& ~~~y).extractLsb' start len = x.extractLsb' start len &&& ~~~y.extractLsb' start len := by
  apply BitVec.eq_of_getLsbD_eq
  intro i hlen
  by_cases h : start + i < k
  · simp [hlen, h]
  · simp [BitVec.getLsbD_of_ge x _ (Nat.le_of_not_lt h)]

/-- `extractLsb'_and_not` for each field. -/
theorem fields_and_not (w u : OpWord) :
    fieldOpc (w &&& ~~~u) = fieldOpc w &&& ~~~fieldOpc u
      ∧ fieldZ0 (w &&& ~~~u) = fieldZ0 w &&& ~~~fieldZ0 u
      ∧ fieldV (w &&& ~~~u) = fieldV w &&& ~~~fieldV u
      ∧ fieldN (w &&& ~~~u) = fieldN w &&& ~~~fieldN u
      ∧ fieldZ1 (w &&& ~~~u) = fieldZ1 w &&& ~~~fieldZ1 u
      ∧ fieldR (w &&& ~~~u) = fieldR w &&& ~~~fieldR u
      ∧ fieldA (w &&& ~~~u) = fieldA w &&& ~~~fieldA u := by
  refine ⟨?_, ?_, ?_, ?_, ?_, ?_, ?_⟩ <;> exact extractLsb'_and_not ..

theorem and_not_zero {k : Nat} (x : BitVec k) : x &&& ~~~0 = x := by simp

theorem and_not_allOnes {k : Nat} (x : BitVec k) : x &&& ~~~BitVec.allOnes k = 0 := by simp

/-- A row accepts a word iff, beside the bits that hold an operand, the word's code is the row's and the
rest is zero. -/
theorem fieldRow_accepts {name : String} {o : BitVec 4} {v r : Half} {n a : Word} {w : OpWord} :
    (fieldRow name o v n r a).accepts w = true ↔
      fieldOpc w = o ∧ fieldZ0 w = 0 ∧ fieldV w &&& ~~~v = 0 ∧ fieldN w &&& ~~~n = 0
        ∧ fieldZ1 w = 0 ∧ fieldR w &&& ~~~r = 0 ∧ fieldA w &&& ~~~a = 0 := by
  simp only [Row.accepts, fieldRow, beq_iff_eq, word_eq_iff_fields, fields_and_not, packWord_fields,
    and_not_zero]

/-- Of a byte operand's `V` the mask compares the high byte. -/
theorem and_not_byteInV_eq_zero {v : Half} : v &&& ~~~byteInV (.allOnes 8) = 0 ↔ hi v = 0 := by
  have hhi : hi (v &&& ~~~byteInV (.allOnes 8)) = hi v &&& ~~~hi (byteInV (.allOnes 8)) :=
    extractLsb'_and_not ..
  have hlo : lo (v &&& ~~~byteInV (.allOnes 8)) = lo v &&& ~~~lo (byteInV (.allOnes 8)) :=
    extractLsb'_and_not ..
  rw [hi_byteInV, and_not_zero] at hhi
  rw [lo_byteInV, and_not_allOnes] at hlo
  constructor
  · intro h
    rw [← hhi, h]
    rfl
  · intro h
    rw [← hi_append_lo (v &&& _), hhi, hlo, h]
    rfl

/-- A word that a row accepts is the word of an operation of that name. -/
theorem exists_encode_of_accepts {row : Row} {w : OpWord} (hrow : row ∈ opcodeTable)
    (h : row.accepts w = true) : ∃ i, encode i = w ∧ i.mnemonic = row.mnemonic := by
  simp only [opcodeTable_eq, List.mem_cons, List.not_mem_nil, or_false] at hrow
  obtain rfl | rfl | rfl | rfl | rfl | rfl | rfl := hrow <;>
    simp only [Instr.row, fieldRow_accepts, and_not_zero, and_not_allOnes,
      and_not_byteInV_eq_zero] at h <;>
    obtain ⟨hopc, hz0, hv, hn, hz1, hr, ha⟩ := h
  · exact ⟨.select, encode_eq_of_fields hz0 hz1 hopc hv hn hr ha, rfl⟩
  · exact ⟨.deselect, encode_eq_of_fields hz0 hz1 hopc hv hn hr ha, rfl⟩
  · exact ⟨.sendCommand (lo (fieldV w)),
      encode_eq_of_fields hz0 hz1 hopc (eq_byteInV_lo hv) hn hr ha, rfl⟩
  · exact ⟨.sendData8 (lo (fieldV w)),
      encode_eq_of_fields hz0 hz1 hopc (eq_byteInV_lo hv) hn hr ha, rfl⟩
  · exact ⟨.sendData16 (fieldV w), encode_eq_of_fields hz0 hz1 hopc rfl hn hr ha, rfl⟩
  · exact ⟨.sendBlock (fieldA w) (fieldN w) (fieldR w),
      encode_eq_of_fields hz0 hz1 hopc hv rfl rfl rfl, rfl⟩
  · exact ⟨.fillSpan (fieldV w) (fieldN w), encode_eq_of_fields hz0 hz1 hopc rfl rfl hr ha, rfl⟩

/-- The row of an operation accepts its word. -/
theorem Instr.row_accepts_encode (i : Instr) : i.row.accepts (encode i) = true := by
  cases i <;>
    simp only [Instr.row, fieldRow_accepts, fieldOpc_encode, fieldZ0_encode, fieldV_encode,
      fieldN_encode, fieldZ1_encode, fieldR_encode, fieldA_encode, Instr.value, Instr.count,
      Instr.repeats, Instr.address, and_not_zero, and_not_allOnes, and_not_byteInV_eq_zero,
      hi_byteInV, and_self]

/-- Settles O3: what a row accepts are the words of the operations of its name, and such a word's
fields are the operation's. -/
theorem decodeFollowsMatchAndMask : Obligations.DecodeFollowsMatchAndMask := by
  unfold Obligations.DecodeFollowsMatchAndMask
  refine ⟨fun row hrow w => ⟨fun h => ?decodes, fun h => ?accepted⟩, fun w i h => ?operands⟩
  case decodes =>
    obtain ⟨i, rfl, hname⟩ := exists_encode_of_accepts hrow h
    rw [decodeInvertsEncode i, Option.map_some, hname]
  case accepted =>
    obtain ⟨i, hw, hname⟩ := Option.map_eq_some_iff.1 h
    rw [eq_row_of_mnemonic hrow hname, ← decode_eq_some.1 hw]
    exact i.row_accepts_encode
  case operands =>
    obtain rfl := decode_eq_some.1 h
    cases i <;> simp [Instr.value, Instr.count, Instr.repeats, Instr.address]

/-- A word that no row accepts decodes to nothing. -/
theorem decode_eq_none_of_rejected {w : OpWord} (h : ∀ row ∈ opcodeTable, row.accepts w = false) :
    decode w = none := by
  cases hw : decode w with
  | none => rfl
  | some i =>
    have haccepts := i.row_accepts_encode
    rw [decode_eq_some.1 hw, h _ i.row_mem_opcodeTable] at haccepts
    cases haccepts

/-- A word with a code outside R66, or with `Z0` or `Z1` not zero, is no operation's. -/
theorem encode_not_reserved (i : Instr) :
    ¬ (fieldOpc (encode i) = 0 ∨ 8 ≤ fieldOpc (encode i) ∨ fieldZ0 (encode i) ≠ 0
        ∨ fieldZ1 (encode i) ≠ 0) := by
  simp only [fieldOpc_encode, fieldZ0_encode, fieldZ1_encode, ne_eq, not_true, or_false]
  cases i <;> simp only [Instr.opc] <;> decide

/-- Settles O5: each word's fields, by computing. -/
theorem specWordsDecode : Obligations.SpecWordsDecode := by
  unfold Obligations.SpecWordsDecode
  decide

end Sys2Proof
end

section
/-! PROOFS. The operation port (30_encoding.md R64, R69, R70, R73): what the step makes of a word that it
is presented, at either pace, and that the host waits while an operation is in progress. -/

namespace Sys2Proof.Machine

/-! ### A word is presented -/

/-- The host's next action presents `w`, held or completed by the kept result, and `rest` comes after. -/
abbrev State.Presents (w : OpWord) (rest : List HostAct) (s : State) : Prop :=
  s.host = .present w :: rest ∨ ∃ v, s.host = .presentKept v :: rest ∧ withN v s.kept = w

/-- On a ready port the step that is presented a word is the port's taking it. -/
theorem step_presents {s : State} {w : OpWord} {rest : List HostAct} (ho : s.op = none)
    (h : s.Presents w rest) : step s = presentWord w { s with host := rest, done := false } := by
  obtain hact | ⟨v, hact, rfl⟩ := h
  · exact step_hostAct ho hact
  · exact step_hostAct ho hact

theorem presentWord_some {w : OpWord} {i : Instr} (h : decode w = some i) (s : State) :
    presentWord w s = runInstr i s := by
  simp only [presentWord, h]

theorem runInstr_operation {s : State} (i : Instr) (h : s.pace = .operation) :
    runInstr i s = exec i s := by
  simp only [runInstr, h]

theorem runInstr_accepts {s : State} {i : Instr} (h : s.pace = .agent)
    (hdef : operandRefusal s.params i = none) : runInstr i s = .next (State.accept i s) := by
  simp only [runInstr, h, hdef]

theorem runInstr_refused {s : State} {i : Instr} {why : Refusal} (h : s.pace = .agent)
    (hres : operandRefusal s.params i = some why) : runInstr i s = .refused why := by
  simp only [runInstr, h, hres]

/-- On a ready port an operation with reserved operands is refused. -/
theorem exec_refused {s : State} {i : Instr} {why : Refusal} (ho : s.op = none)
    (h : operandRefusal s.params i = some why) : exec i s = .refused why := by
  cases i with
  | sendBlock a n r =>
    replace h : blockRefusal s.params a n r = some why := h
    rw [exec, execSendBlock_eq, ho, h]
  | select | deselect | sendCommand _ | sendData8 _ | sendData16 _ | fillSpan _ _ => cases h

/-- On a busy port every operation waits. -/
theorem exec_busy {s : State} (i : Instr) (ho : s.op.isSome = true) : exec i s = .next s := by
  cases i with
  | sendBlock a n r =>
    obtain ⟨o, hsome⟩ := Option.isSome_iff_exists.1 ho
    rw [exec, execSendBlock_eq, hsome]
    exact State.perform_busy _ _ ho
  | select | deselect | sendCommand _ | sendData8 _ | sendData16 _ | fillSpan _ _ =>
    simp only [exec, execSelect, execDeselect, execSendCommand, execSendData8, execSendData16,
      execFillSpan, State.perform_busy _ _ ho]

/-- Settles O4: a row accepts only operations' words; and a word that no row accepts decodes to
nothing, so the port refuses it. -/
theorem reservedWordsAreRefused : Obligations.ReservedWordsAreRefused := by
  unfold Obligations.ReservedWordsAreRefused
  refine ⟨fun w hreserved row hrow => ?rejected, fun s w rest ho hpresents hrejected => ?refused⟩
  case rejected =>
    refine Bool.eq_false_iff.2 fun haccepts => ?_
    obtain ⟨i, rfl, -⟩ := exists_encode_of_accepts hrow haccepts
    exact encode_not_reserved i hreserved
  case refused =>
    rw [step_presents ho hpresents]
    simp only [presentWord, decode_eq_none_of_rejected hrejected]

/-- Settles O6: the step takes the word at the port, and at pace `operation` runs its operation. -/
theorem stepRunsTheDecodedOperation : Obligations.StepRunsTheDecodedOperation := by
  unfold Obligations.StepRunsTheDecodedOperation
  intro s w i ho hw
  have hruns : ∀ (u : State) (rest : List HostAct), u.op = none → u.pace = .operation →
      u.Presents w rest → step u = exec i { u with host := rest, done := false } := by
    intro u rest hu hpace hpresents
    rw [step_presents hu hpresents, presentWord_some hw]
    exact runInstr_operation i hpace
  refine ⟨fun hpace rest hpresents => hruns s rest ho hpace hpresents, ?_⟩
  refine hruns (s.withFetchWord 128 w.toNat) s.host ho rfl (.inl ?_)
  simp [State.withFetchWord, Nat.mod_eq_of_lt w.isLt]

/-- Settles O7: the step takes the word at the port, which at pace `agent` accepts defined operands
alone. -/
theorem stepAcceptsAtAgentPace : Obligations.StepAcceptsAtAgentPace := by
  unfold Obligations.StepAcceptsAtAgentPace
  intro s w rest i ho hpace hpresents hw
  have hstep : step s = runInstr i { s with host := rest, done := false } := by
    rw [step_presents ho hpresents, presentWord_some hw]
  rw [hstep]
  exact ⟨fun hdef => runInstr_accepts hpace hdef,
    fun why hres => ⟨runInstr_refused hpace hres, exec_refused ho hres⟩⟩

/-! ### The host waits (R64; log 22) -/

/-- What is the host's own: its list, its kept value, its last read, its settle markers. -/
def State.hostSide (s : State) : List HostAct × Word × Byte × List (Nat × Settle) :=
  (s.host, s.kept, s.seen, s.settles)

@[simp] theorem State.assertCs_hostSide (s : State) : (State.assertCs s).hostSide = s.hostSide := by
  rw [State.assertCs_eq]
  rfl

@[simp] theorem State.releaseCs_hostSide (s : State) : (State.releaseCs s).hostSide = s.hostSide := by
  rw [State.releaseCs_eq]
  rfl

@[simp] theorem sendUnit_hostSide (i : Instr) (p : Pos) (d : Bit) (u : Byte) (s : State) :
    (sendUnit i p d u s).hostSide = s.hostSide :=
  State.assertCs_hostSide (State.setDc d s)

@[simp] theorem blockNext_hostSide (i : Instr) (s : State) :
    (blockNext i s).hostSide = s.hostSide := by
  by_cases hrep : s.rep = 0
  · rw [blockNext_done hrep]
    split <;> rfl
  · rw [blockNext_more hrep]
    rfl

theorem engineStart_hostSide (i : Instr) (s : State) : (engineStart i s).hostSide = s.hostSide := by
  cases i with
  | select => exact State.assertCs_hostSide s
  | deselect => exact State.releaseCs_hostSide s
  | sendCommand _ | sendData8 _ | sendData16 _ => exact sendUnit_hostSide ..
  | sendBlock a n r =>
    exact (blockNext_hostSide _ _).trans (State.assertCs_hostSide (State.setDc 1 s))
  | fillSpan c n => rfl

/-- Everything an Engine step can do. -/
theorem engineFrom_cases {i : Instr} {p : Pos} {s t : State} (h : engineFrom i p s = some t) :
    t = engineStart i s ∨ (∃ w, t = sendLow w s) ∨ t = State.complete 0 s
      ∨ t = blockNext i (endRepeat s) := by
  cases p with
  | start => exact .inl (Option.some.inj h).symm
  | highSent =>
    cases i with
    | sendData16 w =>
      obtain ⟨-, rfl⟩ : _ ∧ sendLow w s = t := by simpa [engineFrom] using h
      exact .inr (.inl ⟨w, rfl⟩)
    | select | deselect | sendCommand _ | sendData8 _ | sendBlock _ _ _ | fillSpan _ _ => cases h
  | unitSent | drain =>
    rw [engineFrom_last (by decide)] at h
    obtain ⟨-, rfl⟩ : _ ∧ State.complete 0 s = t := by simpa using h
    exact .inr (.inr (.inl rfl))
  | waitTc =>
    obtain ⟨-, rfl⟩ : _ ∧ blockNext i (endRepeat s) = t := by simpa [engineFrom] using h
    exact .inr (.inr (.inr rfl))

theorem engineStep_hostSide {s t : State} (h : State.engineStep s = some t) :
    t.hostSide = s.hostSide := by
  cases ho : s.op with
  | none => simp [State.engineStep, ho] at h
  | some o =>
    rw [State.engineStep_at (i := o.instr) (p := o.pos) ho] at h
    obtain rfl | ⟨w, rfl⟩ | rfl | rfl := engineFrom_cases h
    · exact engineStart_hostSide o.instr s
    · rfl
    · rfl
    · exact blockNext_hostSide o.instr (endRepeat s)

/-- No agent of the block touches what is the host's own. -/
theorem agentStep_hostSide {s t : State} (h : State.agentStep s = some t) :
    t.hostSide = s.hostSide := by
  obtain ⟨h, -⟩ | ⟨h, -⟩ | ⟨-, -, h⟩ := State.agentStep_eq_some.1 h
  · obtain ⟨-, q, -, rfl⟩ := State.linkStep_eq_some.1 h
    rfl
  · exact engineStep_hostSide h
  · obtain ⟨-, rfl⟩ := State.channelStep_eq_some.1 h
    rfl

theorem busyStep_hostSide (s : State) : (busyStep s).hostSide = s.hostSide := by
  unfold busyStep
  split
  · next h => exact agentStep_hostSide (s := State.endPulse s) h
  · rfl

/-- Settles O8: the ports follow from the operation in progress, and the step is an agent's, which
touches nothing of the host's. -/
theorem hostWaitsWhileBusy : Obligations.HostWaitsWhileBusy := by
  unfold Obligations.HostWaitsWhileBusy
  intro s ho
  have hside := busyStep_hostSide s
  simp only [State.hostSide, Prod.mk.injEq] at hside
  refine ⟨?ready, ?valid, fun i => exec_busy i ho, busyStep s, step_busy ho, hside⟩
  all_goals obtain ⟨o, hsome⟩ := Option.isSome_iff_exists.1 ho
  case ready => simp [State.opReady, hsome, flagBit]
  case valid => simp [State.opValid, State.presented, hsome, flagBit]

end Sys2Proof.Machine
end

section
/-! PROOFS. The framing operations (40_framing_ops.md R81 to R93): their words, what a send ends in on a
live link and where the Link step never comes, what they leave alone, and when a unit goes out. -/

namespace Sys2Proof.Machine

/-! ### An operation's word in lanes (30_encoding.md R65) -/

theorem packWord_eq_ofLanes (o : BitVec 4) (v : Half) (n : Word) (r : Half) (a : Word) :
    packWord o v n r a
      = ofLanes ((o.setWidth 32 <<< 28) ||| v.setWidth 32) n (r.setWidth 32) a := by
  apply BitVec.eq_of_toNat_eq
  have hcode : o.toNat <<< 28 < 2 ^ 32 := by
    rw [Nat.shiftLeft_eq]
    omega
  have ho : o.toNat < 2 ^ 32 := by omega
  have hv : v.toNat < 2 ^ 32 := by omega
  have hr : r.toNat < 2 ^ 32 := by omega
  simp only [packWord, ofLanes, BitVec.toNat_append, BitVec.toNat_or, BitVec.toNat_shiftLeft,
    BitVec.toNat_setWidth, Nat.mod_eq_of_lt, hcode, ho, hv, hr, Nat.shiftLeft_or_distrib,
    ← Nat.shiftLeft_add]
  simp

theorem encode_eq_ofLanes (i : Instr) :
    encode i = ofLanes ((i.opc.setWidth 32 <<< 28) ||| i.value.setWidth 32) i.count
      (i.repeats.setWidth 32) i.address := by
  rw [encode_eq_packWord, packWord_eq_ofLanes]

@[simp] theorem setWidth_byteInV (b : Byte) : (byteInV b).setWidth 32 = b.setWidth 32 := by
  apply BitVec.eq_of_toNat_eq
  simp only [byteInV, BitVec.toNat_setWidth, BitVec.toNat_append]
  simp

/-! ### The Link step (R83) -/

/-- A wait that the Link step lifts goes on from there. -/
theorem State.awaitLink_taken {s t : State} (k : State → State) (h : State.linkStep s = some t) :
    State.awaitLink k s = k t := by
  obtain ⟨hbusy, -⟩ := State.linkStep_eq_some.1 h
  simp [State.awaitLink, hbusy, h]

/-- A wait stays where the link is busy and the Link step never comes (60_exceptions.md R167). -/
theorem State.awaitLink_hangs {s : State} (k : State → State) (hbusy : s.link.busy = true)
    (h : State.linkStep s = none) : State.awaitLink k s = s := by
  simp [State.awaitLink, hbusy, h]

/-- Settles O32: the Link step by its cases; on a busy live link it is enabled, and an agent that is
enabled and goes first steps. -/
theorem linkStepRule : Obligations.LinkStepRule := by
  unfold Obligations.LinkStepRule
  refine fun s => ⟨State.linkStep_idle, fun t h => ?taken, fun hbusy hlive => ?live⟩
  case taken =>
    obtain ⟨-, q, -, rfl⟩ := State.linkStep_eq_some.1 h
    rfl
  case live =>
    have hstep := State.linkStep_live hbusy hlive
    exact ⟨_, hstep, rfl, fun hfirst => State.agentStep_eq_some.2 (.inl ⟨hstep, .inl hfirst⟩)⟩

/-! ### Chip-select (R86, R87) -/

/-- Settles O9: the lanes of the word, and `assert_cs` followed by completion. -/
theorem selectCompletes : Obligations.SelectCompletes := by
  unfold Obligations.SelectCompletes
  refine ⟨encode_eq_ofLanes .select, fun s ho => ?_⟩
  rw [exec, execSelect, State.perform_ready _ _ ho, selectBody, State.assertCs_eq]
  obtain ⟨⟩ := s
  subst ho
  rfl

/-- Settles O10: the lanes of the word, and `release_cs` followed by completion. -/
theorem deselectCompletes : Obligations.DeselectCompletes := by
  unfold Obligations.DeselectCompletes
  refine ⟨encode_eq_ofLanes .deselect, fun s ho => ?_⟩
  rw [exec, execDeselect, State.perform_ready _ _ ho, deselectBody, State.releaseCs_eq]
  obtain ⟨⟩ := s
  subst ho
  rfl

/-! ### The sends (R82, R88 to R90) -/

/-- Where a send stands at its first wait: lines driven, `S?` on the wire, the unit in the shifter. -/
theorem sendUnit_accept (i : Instr) (p : Pos) (d : Bit) (u : Byte) (s : State) :
    sendUnit i p d u (State.accept i s) = { s with
      dc := d, cs := true, link := { busy := true, shift := u },
      wire := s.wire ++ selectMark s.cs, done := false, op := some { instr := i, pos := p } } := by
  rw [sendUnit, State.assertCs_eq]
  rfl

/-- A send of one unit, the selector line at `d`: what `send_command` and `send_data8` share. -/
def performOne (i : Instr) (d : Bit) (u : Byte) (s : State) : Host.Outcome State Fault Refusal :=
  State.perform i (fun t => State.awaitLink (State.complete 0) (sendUnit i .unitSent d u t)) s

theorem exec_sendCommand (b : Byte) : exec (.sendCommand b) = performOne (.sendCommand b) 0 b := rfl

theorem exec_sendData8 (b : Byte) : exec (.sendData8 b) = performOne (.sendData8 b) 1 b := rfl

theorem exec_sendData16 {s : State} (w : Half) (ho : s.op = none) :
    exec (.sendData16 w) s = .next (State.awaitLink
      (fun u => State.awaitLink (State.complete 0) (sendLow w u)) { s with
        dc := 1, cs := true, link := { busy := true, shift := hi w },
        wire := s.wire ++ selectMark s.cs, done := false,
        op := some { instr := .sendData16 w, pos := .highSent } }) := by
  rw [exec, execSendData16, State.perform_ready _ _ ho, sendUnit_accept]

section
variable {s : State} (i : Instr) (d : Bit) (u : Byte)

theorem performOne_live (ho : s.op = none) (hlive : s.Live) :
    performOne i d u s = .next { s with
      dc := d, cs := true, link := { busy := false, shift := u },
      wire := s.wire ++ selectMark s.cs ++ [.unit d u], done := true, result := 0 } := by
  rw [performOne, State.perform_ready _ _ ho, sendUnit_accept,
    State.awaitLink_live _ (by rfl) (by exact hlive)]
  obtain ⟨⟩ := s
  subst ho hlive
  rfl

theorem performOne_hangs (ho : s.op = none) {t : State} (ht : t = { s with
      dc := d, cs := true, link := { busy := true, shift := u },
      wire := s.wire ++ selectMark s.cs, done := false, op := some { instr := i, pos := .unitSent } })
    (hlink : State.linkStep t = none) : performOne i d u s = .next t := by
  subst ht
  rw [performOne, State.perform_ready _ _ ho, sendUnit_accept, State.awaitLink_hangs _ rfl hlink]

end

/-- Settles O11: the lanes of the word, and a send of one unit with the selector line low. -/
theorem sendCommandCompletes : Obligations.SendCommandCompletes := by
  unfold Obligations.SendCommandCompletes
  intro s b ho
  rw [exec_sendCommand]
  refine ⟨?word, performOne_live _ 0 b ho, fun u => performOne_hangs _ 0 b ho⟩
  case word =>
    rw [encode_eq_ofLanes]
    simp [Instr.opc, Instr.value, Instr.count, Instr.repeats, Instr.address]

/-- Settles O12: the lanes of the word, and a send of one unit with the selector line high. -/
theorem sendDataByteCompletes : Obligations.SendDataByteCompletes := by
  unfold Obligations.SendDataByteCompletes
  intro s b ho
  rw [exec_sendData8]
  refine ⟨?word, performOne_live _ 1 b ho, fun u => performOne_hangs _ 1 b ho⟩
  case word =>
    rw [encode_eq_ofLanes]
    simp [Instr.opc, Instr.value, Instr.count, Instr.repeats, Instr.address]

/-- Settles O13: the lanes of the word, and the two waits, both lifted or one of them not. -/
theorem sendDataWordCompletes : Obligations.SendDataWordCompletes := by
  unfold Obligations.SendDataWordCompletes
  intro s w ho
  rw [exec_sendData16 w ho]
  refine ⟨?word, fun hlive => ?live, ?hangs⟩
  case word =>
    rw [encode_eq_ofLanes]
    simp [Instr.opc, Instr.value, Instr.count, Instr.repeats, Instr.address]
  case live =>
    rw [State.awaitLink_live _ (by rfl) (by exact hlive), State.awaitLink_live _ (by rfl) (by rfl)]
    obtain ⟨⟩ := s
    subst ho hlive
    simp [State.complete, sendLow, State.linkFinish, State.emit, State.linkTx, State.setOp]
  case hangs =>
    rintro u rfl
    refine ⟨fun hfirst => by rw [State.awaitLink_hangs _ rfl hfirst], ?_⟩
    rintro v z hfirst rfl hsecond
    rw [State.awaitLink_taken _ hfirst]
    exact congrArg Host.Outcome.next (State.awaitLink_hangs _ rfl hsecond)

/-- Settles O14: both ends in closed form; after the first byte chip-select is active, so the second
puts no `Select` on the wire. -/
theorem sendDataWordIsTwoBytes : Obligations.SendDataWordIsTwoBytes := by
  unfold Obligations.SendDataWordIsTwoBytes
  intro s w ho hlive
  obtain ⟨-, hword, -⟩ := sendDataWordCompletes s w ho
  simp only [exec_sendData8]
  refine ⟨_, _, performOne_live _ 1 (hi w) ho hlive, performOne_live _ 1 (lo w) ho hlive, ?_⟩
  simp [hword hlive, selectMark]

/-! ### What the framing operations leave alone (R92) -/

/-- The channel, the repeat counter and the host's own: beside memory and the parameters, what no
framing operation touches. -/
def State.besideFraming (s : State) :
    Channel × Half × (List HostAct × Word × Byte × List (Nat × Settle)) :=
  (s.ch, s.rep, s.hostSide)

@[simp] theorem State.assertCs_besideFraming (s : State) :
    (State.assertCs s).besideFraming = s.besideFraming := by
  rw [State.assertCs_eq]
  rfl

@[simp] theorem State.releaseCs_besideFraming (s : State) :
    (State.releaseCs s).besideFraming = s.besideFraming := by
  rw [State.releaseCs_eq]
  rfl

@[simp] theorem sendUnit_besideFraming (i : Instr) (p : Pos) (d : Bit) (u : Byte) (s : State) :
    (sendUnit i p d u s).besideFraming = s.besideFraming :=
  State.assertCs_besideFraming (State.setDc d s)

theorem awaitLink_besideFraming {k : State → State}
    (hk : ∀ u, (k u).besideFraming = u.besideFraming) (s : State) :
    (State.awaitLink k s).besideFraming = s.besideFraming :=
  State.awaitLink_keeps (·.besideFraming = s.besideFraming) k s rfl (hk s) fun _ => hk _

theorem perform_besideFraming {i : Instr} {body : State → State}
    (hbody : ∀ u, (body u).besideFraming = u.besideFraming) {s t : State}
    (h : State.perform i body s = .next t) : t.besideFraming = s.besideFraming := by
  obtain ⟨-, rfl⟩ | ⟨-, rfl⟩ := State.perform_eq_next.1 h
  · rfl
  · exact hbody (State.accept i s)

/-- The five operations of 40_framing_ops.md. -/
abbrev IsFraming (i : Instr) : Prop :=
  i = .select ∨ i = .deselect ∨ (∃ b, i = .sendCommand b) ∨ (∃ b, i = .sendData8 b)
    ∨ ∃ w, i = .sendData16 w

theorem exec_besideFraming {i : Instr} {s t : State} (hi : IsFraming i) (h : exec i s = .next t) :
    t.besideFraming = s.besideFraming := by
  have hlast : ∀ u, (State.awaitLink (State.complete 0) u).besideFraming = u.besideFraming :=
    awaitLink_besideFraming fun _ => rfl
  obtain rfl | rfl | ⟨b, rfl⟩ | ⟨b, rfl⟩ | ⟨w, rfl⟩ := hi
  · exact perform_besideFraming (body := selectBody) State.assertCs_besideFraming h
  · exact perform_besideFraming (body := deselectBody) State.releaseCs_besideFraming h
  · exact perform_besideFraming (fun u => (hlast _).trans (sendUnit_besideFraming _ _ _ _ u)) h
  · exact perform_besideFraming (fun u => (hlast _).trans (sendUnit_besideFraming _ _ _ _ u)) h
  · have hlow : ∀ u, (State.awaitLink (State.complete 0) (sendLow w u)).besideFraming
        = u.besideFraming := fun u => hlast (sendLow w u)
    exact perform_besideFraming
      (fun u => (awaitLink_besideFraming hlow _).trans (sendUnit_besideFraming _ _ _ _ u)) h

theorem exec_framing_mem {i : Instr} {s t : State} (hi : IsFraming i) (h : exec i s = .next t) :
    t.mem = s.mem := by
  refine (exec_writes h).mem_eq ?_
  rintro c n rfl
  simp [IsFraming] at hi

/-- `select` and `deselect` touch neither the selector line nor the link, on a ready port or a busy
one. -/
theorem exec_chipSelect_link {i : Instr} {s t : State} (hi : i = .select ∨ i = .deselect)
    (h : exec i s = .next t) : t.dc = s.dc ∧ t.link = s.link ∧ t.linkPlan = s.linkPlan := by
  cases ho : s.op with
  | some o =>
    rw [exec_busy i (by simp [ho])] at h
    obtain rfl := Host.Outcome.next.inj h
    exact ⟨rfl, rfl, rfl⟩
  | none =>
    obtain rfl | rfl := hi
    · rw [selectCompletes.2 s ho] at h
      obtain rfl := Host.Outcome.next.inj h
      exact ⟨rfl, rfl, rfl⟩
    · rw [deselectCompletes.2 s ho] at h
      obtain rfl := Host.Outcome.next.inj h
      exact ⟨rfl, rfl, rfl⟩

/-- Settles O15: no statement of the five touches the rest of the state, and the Link step that lifts a
wait only the link and the wire. -/
theorem framingOperationsFrame : Obligations.FramingOperationsFrame := by
  unfold Obligations.FramingOperationsFrame
  intro i s t hi h
  have hmem := exec_framing_mem hi h
  have hon := exec_onward h
  have hrest := exec_besideFraming hi h
  simp only [State.besideFraming, State.hostSide, Prod.mk.injEq] at hrest
  obtain ⟨hch, hrep, hhost, hkept, hseen, hsettles⟩ := hrest
  exact ⟨fun x => by rw [hmem], hmem, hch, hrep, hhost, hkept, hseen, hsettles, hon.params, hon.pace,
    fun hcs => exec_chipSelect_link hcs h⟩

/-! ### Units and chip-select (R93) -/

/-- The level of chip-select counts the `Select` events over the `Deselect` events. -/
theorem count_of_selectedAfter {b c : Bool} {es : List WireEvent} (h : selectedAfter b es = some c) :
    es.count .select + b.toNat = es.count .deselect + c.toNat := by
  induction es generalizing b with
  | nil =>
    obtain rfl := Option.some.inj h
    rfl
  | cons e es ih =>
    cases e with
    | select =>
      obtain ⟨rfl, h⟩ : b = false ∧ selectedAfter true es = some c := by simpa [selectedAfter] using h
      simpa using ih h
    | deselect =>
      obtain ⟨rfl, h⟩ : b = true ∧ selectedAfter false es = some c := by simpa [selectedAfter] using h
      have hrest : es.count .select = es.count .deselect + c.toNat := by simpa using ih h
      simp [hrest, Nat.add_right_comm]
    | unit d v =>
      obtain ⟨rfl, h⟩ : b = true ∧ selectedAfter true es = some c := by simpa [selectedAfter] using h
      simpa using ih h

/-- A unit is framed only where the events before it leave chip-select active, and it leaves it so. -/
theorem selectedAfter_unit {b c : Bool} {before after : List WireEvent} {d : Bit} {v : Byte}
    (h : selectedAfter b (before ++ .unit d v :: after) = some c) :
    selectedAfter b before = some true ∧ selectedAfter true after = some c := by
  rw [selectedAfter_append] at h
  obtain ⟨level, hbefore, hunit⟩ := Option.bind_eq_some_iff.1 h
  cases level with
  | false => cases hunit
  | true => exact ⟨hbefore, hunit⟩

/-- Settles O41: the step leaves the trace framed, and a framed trace has every unit where chip-select
is active. -/
theorem unitsOnlyWhileSelected : Obligations.UnitsOnlyWhileSelected := by
  unfold Obligations.UnitsOnlyWhileSelected
  intro s t hs h
  have hframed : selectedAfter false t.wire = some t.cs := (stepKeepsInv s t hs h).framed
  refine ⟨fun before after d v hwire => ?before, fun es d v hwire => ?last⟩
  all_goals rw [hwire] at hframed
  case before =>
    obtain ⟨hbefore, -⟩ := selectedAfter_unit hframed
    simpa using count_of_selectedAfter hbefore
  case last =>
    obtain ⟨-, hafter⟩ := selectedAfter_unit hframed
    exact (Option.some.inj hafter).symm

/-! ### A unit in the shifter (R84) -/

/-- The selector line, the link and the wire trace: how a unit goes out. -/
def State.shifting (s : State) : Bit × Link × List WireEvent := (s.dc, s.link, s.wire)

theorem blockNext_shifting {i : Instr} {s : State} (hbusy : s.link.busy = true) :
    (blockNext i s).shifting = s.shifting := by
  by_cases hrep : s.rep = 0
  · rw [blockNext_done hrep, if_pos hbusy]
    rfl
  · rw [blockNext_more hrep]
    rfl

/-- While the link is busy the Engine has a step only at the start and between two repeats. -/
theorem engineFrom_busy {i : Instr} {p : Pos} {s t : State} (hbusy : s.link.busy = true)
    (h : engineFrom i p s = some t) : p = .start ∨ t = blockNext i (endRepeat s) := by
  cases p with
  | start => exact .inl rfl
  | highSent => cases i <;> simp [engineFrom, hbusy] at h
  | unitSent | drain =>
    rw [engineFrom_last (by decide), if_pos hbusy] at h
    cases h
  | waitTc =>
    obtain ⟨-, rfl⟩ : _ ∧ blockNext i (endRepeat s) = t := by simpa [engineFrom] using h
    exact .inr rfl

/-- In a well-placed block the link is idle at the start of an operation, so that no Engine step meets
a unit in the shifter but between two repeats. -/
theorem engineStep_shifting {s t : State} (hs : s.OpInv) (hbusy : s.link.busy = true)
    (h : State.engineStep s = some t) : t.shifting = s.shifting := by
  cases ho : s.op with
  | none => simp [State.engineStep, ho] at h
  | some o =>
    obtain ⟨i, p⟩ := o
    rw [State.opInv_at ho] at hs
    rw [State.engineStep_at ho] at h
    obtain rfl | rfl := engineFrom_busy hbusy h
    · obtain ⟨⟨hidle, -⟩, -⟩ := hs
      simp [hidle] at hbusy
    · exact blockNext_shifting (s := endRepeat s) hbusy

/-- On a busy link an agent's step leaves the unit in the shifter, or is the Link's. -/
theorem agentStep_shifting {s t : State} (hs : s.OpInv) (hbusy : s.link.busy = true)
    (h : State.agentStep s = some t) :
    t.shifting = s.shifting ∨ ∃ q, t = State.linkFinish q s := by
  obtain ⟨h, -⟩ | ⟨h, -⟩ | ⟨-, -, h⟩ := State.agentStep_eq_some.1 h
  · obtain ⟨-, q, -, rfl⟩ := State.linkStep_eq_some.1 h
    exact .inr ⟨q, rfl⟩
  · exact .inl (engineStep_shifting hs hbusy h)
  · obtain ⟨⟨-, -, hidle⟩, -⟩ := State.channelStep_eq_some.1 h
    simp [hidle] at hbusy

/-- Settles O42: a busy link means an operation in progress, whose agents leave the unit in the shifter
alone but for the Link, which puts it on the wire. -/
theorem selectorHoldsWhileShifting : Obligations.SelectorHoldsWhileShifting := by
  unfold Obligations.SelectorHoldsWhileShifting
  intro s t hs hbusy h
  have hplaced := hs.placed
  have hagent : t.shifting = s.shifting ∨ ∃ q, t = State.linkFinish q (State.endPulse s) := by
    obtain ⟨ho, -⟩ | ⟨-, rfl⟩ := step_cases h
    · obtain ⟨hidle, -⟩ := (State.opInv_ready ho).1 hplaced
      simp [hidle] at hbusy
    · unfold busyStep
      split
      · next hstep => exact agentStep_shifting (s := State.endPulse s) hplaced hbusy hstep
      · exact .inl rfl
  obtain hsame | ⟨q, rfl⟩ := hagent
  · simp only [State.shifting, Prod.mk.injEq] at hsame
    obtain ⟨hdc, hlink, hwire⟩ := hsame
    exact ⟨hdc, by rw [hlink], .inl ⟨by rw [hlink, hbusy], hwire⟩⟩
  · exact ⟨rfl, rfl, .inr ⟨rfl, rfl⟩⟩

end Sys2Proof.Machine
end

section
/-! PROOFS. The block transfer (41_block_transfer.md R98 to R108): the Channel's step, what a
`send_block` ends in on a live link, which ones are refused, what they leave alone, and the frame that
reaches a refused one. -/

namespace Sys2Proof.Machine

/-! ### The Channel step (R100) -/

theorem word_ne_zero_iff {w : Word} : w ≠ 0 ↔ 0 < w.toNat := by
  bv_omega

/-- The unit that leaves none to send is the one handed over while one was left. -/
theorem lastUnit_flag (rem : Word) (tc : Bool) :
    (if rem - 1 = 0 then true else tc) = (tc || rem == 1) := by
  have hlast : rem - 1 = 0 ↔ rem = 1 := by bv_omega
  simp only [hlast]
  by_cases h : rem = 1
  · simp [h]
  · simp only [if_neg h, beq_eq_false_iff_ne.2 h, Bool.or_false]

/-- Settles O33: the step's guard, and the fields of its effect. -/
theorem channelStepRule : Obligations.ChannelStepRule := by
  unfold Obligations.ChannelStepRule
  refine fun s => ⟨?guard, fun t h => ?effect⟩
  case guard =>
    simp only [Option.isSome_iff_exists, State.channelStep_eq_some, exists_and_left,
      exists_eq, and_true, word_ne_zero_iff]
  case effect =>
    obtain ⟨-, rfl⟩ := State.channelStep_eq_some.1 h
    simp only [State.channelMove, lastUnit_flag]
    rfl

/-! ### Reserved operands (R98, R103, R104) -/

section
variable {p : Params} {a n : Word} {r : Half}

theorem blockRefusal_zeroCount (hr : r ≠ 0) : blockRefusal p a 0 r = some .zeroCount := by
  rw [blockRefusal, if_neg hr, if_pos rfl]

theorem blockRefusal_pastTop (hr : r ≠ 0) (hn : n ≠ 0) (htop : 2 ^ 32 < a.toNat + n.toNat) :
    blockRefusal p a n r = some .pastTop := by
  rw [blockRefusal, if_neg hr, if_neg hn, if_pos (by exact htop)]

theorem blockRefusal_notPlainMemory (hr : r ≠ 0) (hn : n ≠ 0) (hfit : a.toNat + n.toNat ≤ 2 ^ 32)
    (hdev : p.touchesDevice a.toNat n.toNat = true) :
    blockRefusal p a n r = some .notPlainMemory := by
  rw [blockRefusal, if_neg hr, if_neg hn, if_neg (by exact Nat.not_lt.2 hfit), if_pos hdev]

end

/-- Settles O18: each reserved operand's reason is what the ready port answers, and an operation
without a reason is performed. -/
theorem sendBlockReservedOperands : Obligations.SendBlockReservedOperands := by
  unfold Obligations.SendBlockReservedOperands
  refine fun s a n r ho => ⟨?zero, ?top, ?device, fun hdef => ?taken⟩
  case zero =>
    rintro hr rfl
    exact exec_refused ho (blockRefusal_zeroCount hr)
  case top => exact fun hr hn htop => exec_refused ho (blockRefusal_pastTop hr hn htop)
  case device =>
    exact fun hr hn hfit hdev => exec_refused ho (blockRefusal_notPlainMemory hr hn hfit hdev)
  case taken => exact ⟨_, execSendBlock_defined ho (blockRefusal_eq_none.2 hdef)⟩

/-! ### The frame -/

/-- A property that every statement of the loop of R99, and the Link's step, keeps while the operation
is in progress holds of where the loop is left, completed or hung. -/
theorem runRepeats_keeps {P Q : State → Prop} (hhung : ∀ u, P u → Q u)
    (hdone : ∀ u, P u → Q (State.complete 0 u)) (hlink : ∀ q u, P u → P (State.linkFinish q u))
    (hmove : ∀ u, P u → P (State.channelMove u)) (i : Instr)
    (hstart : ∀ u, P u → P (startRepeat i u)) (hend : ∀ u, P u → P (endRepeat u))
    (hleave : ∀ u, P u → P (leaveLoop i u)) (n r : Nat) {s : State} (hs : P s) :
    Q (runRepeats i n r s) := by
  have hwait : ∀ {k : State → State}, (∀ u, P u → Q (k u)) → ∀ u, P u → Q (State.awaitLink k u) :=
    fun {k} hk u hu => State.awaitLink_keeps Q k u (hhung u hu) (hk u hu)
      fun q => hk _ (hlink q u hu)
  have hstream : ∀ {k : State → State}, (∀ u, P u → Q (k u)) →
      ∀ m u, P u → Q (streamUnits m k u) := by
    intro k hk m
    induction m with
    | zero => exact hk
    | succ m ih => exact hwait fun u hu => ih _ (hmove u hu)
  induction r generalizing s with
  | zero => exact hwait hdone _ (hleave s hs)
  | succ r ih => exact hstream (fun u hu => ih (hend u hu)) n _ (hstart s hs)

/-- What is the host's own, and the port's result and pulse while an operation is in progress, are as
an acceptance in `s` leaves them. -/
abbrev State.UnderwayFrom (s t : State) : Prop :=
  t.hostSide = s.hostSide ∧ t.result = s.result ∧ t.done = false

/-- What a `send_block` that was taken in `s` leaves of the host's own and of the port. -/
abbrev State.LeftFrom (s t : State) : Prop :=
  t.hostSide = s.hostSide ∧ (t.op.isSome = true → t.result = s.result ∧ t.done = false)

theorem blockSetup_underway (i : Instr) (a n : Word) (r : Half) (s : State) :
    s.UnderwayFrom (blockSetup a n r (State.accept i s)) := by
  rw [blockSetup_eq]
  exact ⟨rfl, rfl, rfl⟩

theorem runRepeats_left {s t : State} (i : Instr) (n r : Nat) (ht : s.UnderwayFrom t) :
    s.LeftFrom (runRepeats i n r t) :=
  runRepeats_keeps (P := s.UnderwayFrom) (Q := s.LeftFrom)
    (hhung := fun _ ⟨hside, hport⟩ => ⟨hside, fun _ => hport⟩)
    (hdone := fun _ ⟨hside, _⟩ => ⟨hside, fun hop => by cases hop⟩)
    (hlink := fun _ _ hu => hu) (hmove := fun _ hu => hu) i (hstart := fun _ hu => hu)
    (hend := fun _ hu => hu) (hleave := fun _ hu => hu) n r ht

/-- Settles O19: memory by what an operation may write, the parameters and the pace by what any
operation keeps, the host's own and the port by what the loop keeps. -/
theorem sendBlockFrame : Obligations.SendBlockFrame := by
  unfold Obligations.SendBlockFrame
  intro s t a n r h
  have hmem : t.mem = s.mem := (exec_writes h).mem_eq (by simp)
  have hon := exec_onward h
  have hleft : t.hostSide = s.hostSide
      ∧ (s.op = none → t.op.isSome = true → t.result = s.result ∧ t.done = false) := by
    obtain ⟨hbusy, rfl⟩ | ⟨-, rfl⟩ := State.perform_eq_next.1 (perform_of_execSendBlock h)
    · exact ⟨rfl, fun ho => by simp [ho] at hbusy⟩
    · obtain ⟨hside, hport⟩ :=
        runRepeats_left (.sendBlock a n r) n.toNat r.toNat (blockSetup_underway _ a n r s)
      exact ⟨hside, fun _ => hport⟩
  obtain ⟨hside, hport⟩ := hleft
  simp only [State.hostSide, Prod.mk.injEq] at hside
  obtain ⟨hhost, hkept, hseen, hsettles⟩ := hside
  exact ⟨fun x => by rw [hmem], hmem, hhost, hkept, hseen, hsettles, hon.params, hon.pace, hport⟩

/-! ### The end on a live link (R101, R103) -/

/-- The loop without a repeat is its last wait, over at once on an idle link. -/
theorem runRepeats_none {s : State} (i : Instr) (n : Nat) (hidle : s.link.busy = false) :
    runRepeats i n 0 s = State.complete 0 (leaveLoop i s) :=
  State.awaitLink_idle (State.complete 0) (s := leaveLoop i s) hidle

/-- Settles O17: past its setup the operation is at its last wait, on an idle link. -/
theorem sendBlockZeroRepeats : Obligations.SendBlockZeroRepeats := by
  unfold Obligations.SendBlockZeroRepeats
  intro s a n ⟨ho, hidle, hen, _⟩
  have hdef : blockRefusal s.params a n 0 = none := blockRefusal_eq_none.2 (.inl rfl)
  rw [exec, execSendBlock_defined ho hdef, blockSetup_eq]
  refine congrArg Host.Outcome.next ((runRepeats_none _ _ (by exact hidle)).trans ?_)
  simp only [State.complete, leaveLoop, State.setOp, State.accept, ← hen, ← ho]

/-- The state in which `send_block a, n, r` leaves a resting block on a live link. -/
def blockSent (a n : Word) (r : Half) (s : State) : State :=
  { s with
    dc := 1, cs := true,
    wire := s.wire ++ selectMark s.cs ++ copies r.toNat (blockUnits s.mem a n.toNat),
    link := { busy := false,
              shift := if r = 0 then s.link.shift else Memory.read s.mem (a + n - 1).toNat },
    ch := { en := false, tc := false, src := a, cnt := n,
            ptr := if r = 0 then s.ch.ptr else a + n, rem := 0 },
    rep := 0, done := true, result := 0 }

theorem exec_sendBlock_live {s : State} {a n : Word} {r : Half} (hs : s.Ready) (hlive : s.Live)
    (hdef : blockRefusal s.params a n r = none) :
    exec (.sendBlock a n r) s = .next (blockSent a n r s) := by
  obtain ⟨ho, hidle, hen, htc, hrem, -⟩ := id hs
  by_cases hr : r = 0
  · subst hr
    rw [sendBlockZeroRepeats s a n hs]
    simp [blockSent, copies, hen, htc, hrem, ← hidle]
  · obtain ⟨hn, -⟩ := (blockRefusal_eq_none.1 hdef).resolve_left hr
    have hunits : n.toNat ≠ 0 := by bv_omega
    have hrepeats : r.toNat ≠ 0 := by bv_omega
    rw [exec, execSendBlock_defined ho hdef, blockSetup_eq,
      runRepeats_live _ hunits r.toNat (by exact hlive) (by exact hidle) rfl (by exact htc) rfl]
    simp only [blockSent, if_neg hr, if_neg hrepeats]
    simp [htc, ho]

/-- Settles O16, from the closed form of the loop. -/
theorem sendBlockCompletes : Obligations.SendBlockCompletes := by
  unfold Obligations.SendBlockCompletes
  exact fun s a n r hs hlive hdef => exec_sendBlock_live hs hlive hdef

/-! ### Repeats add up (R99, R101) -/

theorem copies_add (j k : Nat) (es : List WireEvent) :
    copies (j + k) es = copies j es ++ copies k es := by
  simp only [copies, List.replicate_add, List.flatten_append]

theorem blockSent_ready {s : State} (a n : Word) (r : Half) (ho : s.op = none) :
    (blockSent a n r s).Ready :=
  ⟨ho, rfl, rfl, rfl, rfl, rfl⟩

/-- A block that is not refused at one count of repeats is refused at no other count, unless the one
is 0. -/
theorem blockRefusal_of_repeats {p : Params} {a n : Word} {r q : Half}
    (h : blockRefusal p a n r = none) (hq : r = 0 → q = 0) : blockRefusal p a n q = none :=
  blockRefusal_eq_none.2 ((blockRefusal_eq_none.1 h).imp_left hq)

/-- After the first send chip-select is active, so that the second puts no `Select` on the wire. -/
theorem blockSent_blockSent (s : State) (a n : Word) {r1 r2 : Half}
    (hsum : r1.toNat + r2.toNat < 2 ^ 16) :
    blockSent a n r2 (blockSent a n r1 s) = blockSent a n (r1 + r2) s := by
  have hcount : (r1 + r2).toNat = r1.toNat + r2.toNat := BitVec.toNat_add_of_lt hsum
  have hzero : r1 + r2 = 0 ↔ r2 = 0 ∧ r1 = 0 := by bv_omega
  have hmark : selectMark true = [] := rfl
  simp only [blockSent, hcount, copies_add, hzero, ite_and, hmark, List.append_nil,
    List.append_assoc]

/-- Settles O20: each send ends in closed form, and the two ends compose. -/
theorem sendBlockRepeatsAdd : Obligations.SendBlockRepeatsAdd := by
  unfold Obligations.SendBlockRepeatsAdd
  intro s a n r1 r2 hs hlive hsum hdef
  have hdef1 : blockRefusal s.params a n r1 = none :=
    blockRefusal_of_repeats hdef fun _ => by bv_omega
  have hdef2 : blockRefusal s.params a n r2 = none :=
    blockRefusal_of_repeats hdef fun _ => by bv_omega
  refine ⟨_, _, exec_sendBlock_live hs hlive hdef1,
    exec_sendBlock_live (blockSent_ready a n r1 hs.1) hlive hdef2, ?_⟩
  rw [blockSent_blockSent s a n hsum]
  exact exec_sendBlock_live hs hlive hdef

/-! ### A frame that reaches a reserved operand (R104; 70_reset_and_hazards.md R201) -/

/-- On a ready port at pace `operation` the step that is presented an operation takes it whole. -/
theorem step_presents_exec {s : State} {i : Instr} {rest : List HostAct} (hs : s.CanRun)
    (h : s.Presents (encode i) rest) : step s = exec i { s with host := rest, done := false } := by
  obtain ⟨⟨ho, -⟩, -, hpace⟩ := hs
  exact (stepRunsTheDecodedOperation s (encode i) i ho (decodeInvertsEncode i)).1 hpace rest h

/-- A framing operation on a live link completes, and leaves the machine as ready to run. -/
theorem exec_framing_canRun {i : Instr} {s : State} (hi : IsFraming i) (hs : s.CanRun) :
    ∃ t, exec i s = .next t ∧ t.CanRun := by
  obtain ⟨⟨ho, hidle, hrest⟩, hlive, hpace⟩ := hs
  obtain rfl | rfl | ⟨b, rfl⟩ | ⟨b, rfl⟩ | ⟨w, rfl⟩ := hi
  · exact ⟨_, selectCompletes.2 s ho, ⟨ho, hidle, hrest⟩, hlive, hpace⟩
  · exact ⟨_, deselectCompletes.2 s ho, ⟨ho, hidle, hrest⟩, hlive, hpace⟩
  · exact ⟨_, (sendCommandCompletes s b ho).2.1 hlive, ⟨ho, rfl, hrest⟩, hlive, hpace⟩
  · exact ⟨_, (sendDataByteCompletes s b ho).2.1 hlive, ⟨ho, rfl, hrest⟩, hlive, hpace⟩
  · exact ⟨_, (sendDataWordCompletes s w ho).2.1 hlive, ⟨ho, rfl, hrest⟩, hlive, hpace⟩

section
variable {s : State} {rest : List HostAct}

/-- One framing operation of a frame on a live link. -/
theorem step_framing {i : Instr} (hi : IsFraming i) (hs : s.CanRun)
    (hact : s.host = present i :: rest) :
    ∃ t, step s = .next t ∧ t.CanRun ∧ t.host = rest ∧ t.kept = s.kept := by
  obtain ⟨t, ht, hrun⟩ := exec_framing_canRun hi (s := { s with host := rest, done := false }) hs
  obtain ⟨-, -, -, -, hhost, hkept, -⟩ := framingOperationsFrame i _ t hi ht
  exact ⟨t, (step_presents_exec hs (.inl hact)).trans ht, hrun, hhost, hkept⟩

/-- A frame's framing operations on a live link. -/
theorem run_framing {is : List Instr} (his : ∀ i ∈ is, IsFraming i) (hs : s.CanRun)
    (hact : s.host = is.map present ++ rest) :
    ∃ t, run is.length s = .next t ∧ t.CanRun ∧ t.host = rest ∧ t.kept = s.kept := by
  induction is generalizing s with
  | nil => exact ⟨s, rfl, hs, hact, rfl⟩
  | cons i is ih =>
    obtain ⟨hi, his⟩ := List.forall_mem_cons.1 his
    obtain ⟨u, hstep, hu, hhost, hkept⟩ := step_framing hi hs hact
    obtain ⟨t, hrun, ht, hrest, hkept'⟩ := ih his hu hhost
    exact ⟨t, (run_succ _ hstep).trans hrun, ht, hrest, hkept'.trans hkept⟩

/-- The head of a frame: select, the window, begin memory write (43_frame_sequences.md R125). -/
theorem run_openFrame {p : Params} {x0 y0 x1 y1 : Half} (hs : s.CanRun)
    (hact : s.host = openFrame p x0 y0 x1 y1 ++ rest) :
    ∃ t, run 8 s = .next t ∧ t.CanRun ∧ t.host = rest ∧ t.kept = s.kept := by
  have his : ∀ i ∈ [Instr.select] ++ setWindow p x0 y0 x1 y1 ++ beginMemoryWrite p, IsFraming i := by
    simp [IsFraming, setWindow, beginMemoryWrite]
  exact run_framing his hs hact

/-- A fill of a frame answers the bytes it filled (42_fill_engine.md R117). -/
theorem step_fillSpan {c : Half} {n : Word} (hs : s.CanRun)
    (hact : s.host = present (.fillSpan c n) :: rest) :
    ∃ t, step s = .next t ∧ t.CanRun ∧ t.host = rest ∧ t.result = filledBytes n := by
  obtain ⟨⟨ho, hrest⟩, hlive, hpace⟩ := id hs
  rw [step_presents_exec hs (.inl hact), exec, execFillSpan, State.perform_ready _ _ (by exact ho)]
  exact ⟨_, rfl, ⟨⟨rfl, hrest⟩, hlive, hpace⟩, rfl, rfl⟩

/-- The host carries a result (30_encoding.md R73). -/
theorem step_keepResult (hs : s.CanRun) (hact : s.host = .keepResult :: rest) :
    ∃ t, step s = .next t ∧ t.CanRun ∧ t.host = rest ∧ t.kept = s.result := by
  obtain ⟨ready, hlive, hpace⟩ := hs
  exact ⟨_, step_hostAct ready.1 hact, ⟨ready, hlive, hpace⟩, rfl, rfl⟩

/-- The kept value stands in for the count of a block. -/
theorem step_presentKept_block {a : Word} {r : Half} (hs : s.CanRun)
    (hact : s.host = .presentKept (encode (.sendBlock a 0 r)) :: rest) :
    step s = exec (.sendBlock a s.kept r) { s with host := rest, done := false } :=
  step_presents_exec hs (.inr ⟨_, hact, withN_encode a s.kept r⟩)

end

/-- A run whose first step is refused is refused. -/
theorem run_refused {s : State} {why : Refusal} (k : Nat) (h : step s = .refused why) :
    run (k + 1) s = .refused why := by
  have hcore : core.step s = .refused why := h
  simp only [run, Host.Core.run, hcore]
  rfl

/-- Settles O48: the fill of no pair answers 0, which the host carries past the frame's head to the
block's count. -/
theorem fillRectZeroWidthIsRefused : Obligations.FillRectZeroWidthIsRefused := by
  unfold Obligations.FillRectZeroWidthIsRefused
  intro s x y h c hs hheight
  obtain ⟨t1, hfill, hs1, hhost1, hresult⟩ :=
    step_fillSpan (s := s.program (fillRect s.params x y 0 h c)) hs rfl
  obtain ⟨t2, hkeep, hs2, hhost2, hkept2⟩ := step_keepResult hs1 hhost1
  obtain ⟨t3, hhead, hs3, hhost3, hkept3⟩ := run_openFrame hs2 hhost2
  have hzero : t3.kept = 0 := by
    rw [hkept3, hkept2, hresult]
    rfl
  have hrefused : step t3 = .refused .zeroCount := by
    rw [step_presentKept_block hs3 hhost3, hzero]
    exact exec_refused hs3.1.1 (blockRefusal_zeroCount hheight)
  calc run 12 (s.program (fillRect s.params x y 0 h c))
    _ = run 11 t1 := run_succ 11 hfill
    _ = run 10 t2 := run_succ 10 hkeep
    _ = run 2 t3 := run_add (k := 8) (l := 2) hhead
    _ = .refused .zeroCount := run_refused 1 hrefused

end Sys2Proof.Machine
end

section
/-! PROOFS. The fill engine (42_fill_engine.md R115 to R122): scratch addresses, what a fill leaves in
buffer space and beside it, and the colour arithmetic. -/

namespace Sys2Proof.Machine

/-! ### Scratch addresses (R122, 20_memory.md R47) -/

/-- Scratch bytes have distinct addresses, also where the scratch region wraps. -/
theorem scratchAddr_inj {p : Params} {off1 off2 : Nat} (h1 : off1 < 640) (h2 : off2 < 640)
    (h : scratchAddr p off1 = scratchAddr p off2) : off1 = off2 := by
  simp only [scratchAddr, BitVec.toNat_add, BitVec.toNat_ofNat] at h
  omega

theorem scratchAddr_eq_add {p : Params} (hfit : p.scratchBase.toNat + 640 ≤ 2 ^ 32) {off : Nat}
    (hoff : off < 640) : scratchAddr p off = p.scratchBase.toNat + off := by
  simp only [scratchAddr, BitVec.toNat_add, BitVec.toNat_ofNat]
  omega

/-- Settles O24: below the top of buffer space the 32-bit sum is the sum, and modulo 2^32 distinct
offsets below 640 stay distinct. -/
theorem scratchAddressesDoNotWrap : Obligations.ScratchAddressesDoNotWrap := by
  unfold Obligations.ScratchAddressesDoNotWrap
  exact fun p hfit => ⟨fun off hoff => ⟨scratchAddr_eq_add hfit hoff, scratchAddr_inScratch hfit hoff⟩,
    fun _ _ => scratchAddr_inj⟩

/-! ### What the fill leaves in buffer space (R117, R118) -/

/-- A pair reads as its two bytes, whichever pairs were written before it. -/
theorem read_writePair_same {p : Params} {c : Half} {i : Nat} (hi320 : i < 320) (m : Memory) :
    Memory.read (writePair p c i m) (scratchAddr p (2 * i)) = hi c
      ∧ Memory.read (writePair p c i m) (scratchAddr p (2 * i + 1)) = lo c := by
  have hne : scratchAddr p (2 * i) ≠ scratchAddr p (2 * i + 1) := fun h => by
    have := scratchAddr_inj (by omega) (by omega) h
    omega
  exact ⟨(Memory.read_write_other _ _ hne).trans (Memory.read_write_same _ _ _),
    Memory.read_write_same _ _ _⟩

/-- A pair leaves the scratch bytes of the pairs before it alone. -/
theorem read_writePair_below {p : Params} {c : Half} {i off : Nat} (hi320 : i < 320)
    (hoff : off < 2 * i) (m : Memory) :
    Memory.read (writePair p c i m) (scratchAddr p off) = Memory.read m (scratchAddr p off) := by
  have hne : ∀ off', 2 * i ≤ off' → off' < 640 → scratchAddr p off ≠ scratchAddr p off' :=
    fun off' hle hlt h => by
      have := scratchAddr_inj (by omega) hlt h
      omega
  exact (Memory.read_write_other _ _ (hne _ (by omega) (by omega))).trans
    (Memory.read_write_other _ _ (hne _ (by omega) (by omega)))

/-- Every pair filled reads as the colour's high byte, then its low byte. -/
theorem read_fillPairs_pair {p : Params} {c : Half} {k i : Nat} (hk : k ≤ 320) (hik : i < k)
    (m : Memory) :
    Memory.read (fillPairs p c k m) (scratchAddr p (2 * i)) = hi c
      ∧ Memory.read (fillPairs p c k m) (scratchAddr p (2 * i + 1)) = lo c := by
  induction k with
  | zero => omega
  | succ k ih =>
    simp only [fillPairs]
    obtain rfl | hlt : i = k ∨ i < k := by omega
    · exact read_writePair_same (by omega) _
    · rw [read_writePair_below (by omega) (by omega), read_writePair_below (by omega) (by omega)]
      exact ih (by omega) hlt

/-! ### The operation (R117 to R121) -/

theorem fillCount_le (n : Word) : fillCount n ≤ 320 := Nat.min_le_right ..

theorem fillCount_clamped {n : Word} (h : 320 < n.toNat) : fillCount n = 320 :=
  Nat.min_eq_right (Nat.le_of_lt h)

theorem filledBytes_toNat (n : Word) : (filledBytes n).toNat = 2 * fillCount n := by
  have := fillCount_le n
  simp only [filledBytes, BitVec.toNat_ofNat]
  omega

/-- On a ready port a fill completes at once, whatever the link does; beside memory and the completion
the state is as it was (R119, R121). -/
theorem exec_fillSpan_ready {s : State} (c : Half) (n : Word) (ho : s.op = none) :
    exec (.fillSpan c n) s = .next { s with
      mem := fillPairs s.params c (fillCount n) s.mem, done := true, result := filledBytes n } := by
  rw [exec, execFillSpan, State.perform_ready _ _ ho]
  obtain ⟨⟩ := s
  subst ho
  rfl

/-- Everything a fill can answer: it waits at a busy port, or it has filled. -/
theorem exec_fillSpan_eq_next {s t : State} {c : Half} {n : Word}
    (h : exec (.fillSpan c n) s = .next t) :
    t = s ∨ t = { s with
      mem := fillPairs s.params c (fillCount n) s.mem, done := true, result := filledBytes n } := by
  obtain ⟨-, rfl⟩ | ⟨ho, -⟩ := State.perform_eq_next.1 h
  · exact .inl rfl
  · rw [exec_fillSpan_ready c n ho] at h
    exact .inr (Host.Outcome.next.inj h).symm

/-- Settles O21: the lanes of the word, and the fill's own pairs and every other byte in the closed form
of its end. -/
theorem fillSpanCompletes : Obligations.FillSpanCompletes := by
  unfold Obligations.FillSpanCompletes
  intro s c n ho
  refine ⟨?word, _, exec_fillSpan_ready c n ho, ho, rfl, filledBytes_toNat n,
    fun i hik => read_fillPairs_pair (fillCount_le n) hik s.mem,
    fun x hx => read_fillPairs_other s.mem s.params c (fillCount n) hx⟩
  case word =>
    rw [encode_eq_ofLanes]
    simp [Instr.opc, Instr.value, Instr.count, Instr.repeats, Instr.address]

/-- Settles O22: the operation reads its count through the clamp alone. -/
theorem fillSpanClamps : Obligations.FillSpanClamps := by
  unfold Obligations.FillSpanClamps
  intro s c n ho hn
  have hcount : fillCount n = fillCount 320 := fillCount_clamped hn
  have hbytes : filledBytes n = filledBytes 320 := by rw [filledBytes, hcount, filledBytes]
  have hexec : exec (.fillSpan c n) s = exec (.fillSpan c 320) s := by
    rw [exec_fillSpan_ready c n ho, exec_fillSpan_ready c 320 ho, hcount, hbytes]
  rw [hexec]
  exact ⟨rfl, _, exec_fillSpan_ready c 320 ho, rfl,
    fun i hi320 => read_fillPairs_pair (Nat.le_refl 320) hi320 s.mem,
    fun hfit x hx => read_fillPairs_outside hfit s.mem c 320 hx⟩

/-- Settles O23: a fill that waits changes nothing, and one that completes is in closed form. -/
theorem fillSpanFrame : Obligations.FillSpanFrame := by
  unfold Obligations.FillSpanFrame
  intro s t c n h
  obtain rfl | rfl := exec_fillSpan_eq_next h
  case inl => exact ⟨fun _ _ => rfl, fun _ _ _ => rfl, rfl⟩
  case inr =>
    exact ⟨fun x hx => read_fillPairs_other s.mem s.params c (fillCount n) hx,
      fun hfit x hx => read_fillPairs_outside hfit s.mem c n hx, rfl⟩

/-! ### Colours (R115, R116, 95_test_vectors.md S1) -/

/-- `pack` keeps the high bits of each channel in its field (R115, R116), bit by bit. -/
theorem pack_fields (r g b : Byte) :
    red (pack r g b) = r.extractLsb' 3 5 ∧ green (pack r g b) = g.extractLsb' 2 6
      ∧ blue (pack r g b) = b.extractLsb' 3 5 := by
  refine ⟨?red, ?green, ?blue⟩ <;> apply BitVec.eq_of_getLsbD_eq <;> intro i hbit <;>
    interval_cases i <;> simp [red, green, blue, pack]

/-- The truncating unpack gives each field back in the high bits of its channel, zeros below (S1). -/
theorem unpack_eq_fields (c : Half) :
    unpack c = ((red c).setWidth 8 <<< 3, (green c).setWidth 8 <<< 2, (blue c).setWidth 8 <<< 3) := by
  rw [unpack, Prod.mk.injEq, Prod.mk.injEq]
  refine ⟨?red, ?green, ?blue⟩ <;> apply BitVec.eq_of_getLsbD_eq <;> intro i hbit <;>
    interval_cases i <;> simp [red, green, blue]

/-- A channel given back from its high bits alone has lost what its low `k` bits held. -/
theorem toNat_sub_highBits {k l : Nat} (hwidth : k + l = 8) (x : Byte) :
    x.toNat - ((x.extractLsb' k l).setWidth 8 <<< k).toNat = x.toNat % 2 ^ k := by
  have hx : x.toNat < 2 ^ k * 2 ^ l := by
    rw [← Nat.pow_add, hwidth]
    exact x.isLt
  have hhigh : x.toNat / 2 ^ k < 2 ^ l := Nat.div_lt_of_lt_mul hx
  have hle : x.toNat / 2 ^ k * 2 ^ k < 2 ^ 8 := Nat.lt_of_le_of_lt (Nat.div_mul_le_self _ _) x.isLt
  have hbyte : x.toNat / 2 ^ k < 2 ^ 8 := Nat.lt_of_le_of_lt (Nat.div_le_self _ _) x.isLt
  have hback : ((x.extractLsb' k l).setWidth 8 <<< k).toNat = x.toNat / 2 ^ k * 2 ^ k := by
    simp only [BitVec.toNat_shiftLeft, BitVec.toNat_setWidth, BitVec.extractLsb'_toNat,
      Nat.shiftRight_eq_div_pow, Nat.shiftLeft_eq, Nat.mod_eq_of_lt, hhigh, hbyte, hle]
  rw [hback, Nat.mod_eq_sub_div_mul]

/-- Settles O25: the fields of the packed colour, each put back over zeros. -/
theorem packKeepsTheHighBits : Obligations.PackKeepsTheHighBits := by
  unfold Obligations.PackKeepsTheHighBits
  intro r g b
  obtain ⟨hred, hgreen, hblue⟩ := pack_fields r g b
  refine ⟨hred, hgreen, hblue, ?_⟩
  rw [unpack_eq_fields, hred, hgreen, hblue]
  exact ⟨toNat_sub_highBits rfl r, toNat_sub_highBits rfl g, toNat_sub_highBits rfl b⟩

end Sys2Proof.Machine
end

section
/-! PROOFS. The documented frames (43_frame_sequences.md R125 to R136) on the wire: framing operations
and a block on a live link put their events on the wire one after the other. -/

namespace Sys2Proof.Machine

/-! ### A part of a frame -/

/-- `k` steps from `s` come to `t`, the machine as ready to run and `rest` still to come, and put the
events `es` on the wire; memory, the host's kept value, the parameters and the settle markers stay. -/
structure Transmits (k : Nat) (es : List WireEvent) (rest : List HostAct) (s t : State) : Prop where
  run : run k s = .next t
  canRun : t.CanRun
  host : t.host = rest
  wire : t.wire = s.wire ++ es
  mem : t.mem = s.mem
  kept : t.kept = s.kept
  params : t.params = s.params
  settles : t.settles = s.settles

/-- `Transmits`, with the channel left alone. -/
structure FramingTransmits (k : Nat) (es : List WireEvent) (rest : List HostAct) (s t : State) : Prop
    extends Transmits k es rest s t where
  ch : t.ch = s.ch

section
variable {k l : Nat} {es fs : List WireEvent} {rest rest' : List HostAct} {s t u : State}

theorem Transmits.trans (h : Transmits k es rest s t) (h' : Transmits l fs rest' t u) :
    Transmits (k + l) (es ++ fs) rest' s u where
  run := (run_add h.run).trans h'.run
  canRun := h'.canRun
  host := h'.host
  wire := by rw [h'.wire, h.wire, List.append_assoc]
  mem := h'.mem.trans h.mem
  kept := h'.kept.trans h.kept
  params := h'.params.trans h.params
  settles := h'.settles.trans h.settles

theorem FramingTransmits.refl (hs : s.CanRun) : FramingTransmits 0 [] s.host s s where
  run := rfl
  canRun := hs
  host := rfl
  wire := by simp
  mem := rfl
  kept := rfl
  params := rfl
  settles := rfl
  ch := rfl

theorem FramingTransmits.trans (h : FramingTransmits k es rest s t)
    (h' : FramingTransmits l fs rest' t u) : FramingTransmits (k + l) (es ++ fs) rest' s u where
  toTransmits := h.toTransmits.trans h'.toTransmits
  ch := h'.ch.trans h.ch

/-- Where nothing is to come the run is over. -/
theorem Transmits.over (h : Transmits k es [] s t) : t.Over := ⟨h.host, h.canRun.1.1⟩

end

/-! ### Framing operations in a row (40_framing_ops.md R86 to R92) -/

/-- The events of a framing operation, chip-select at `cs` before it. -/
def framingEvents (cs : Bool) : Instr → List WireEvent
  | .select => selectMark cs
  | .deselect => if cs then [.deselect] else []
  | .sendCommand b => selectMark cs ++ [.unit 0 b]
  | .sendData8 b => selectMark cs ++ [.unit 1 b]
  | .sendData16 w => selectMark cs ++ [.unit 1 (hi w), .unit 1 (lo w)]
  | .sendBlock _ _ _ | .fillSpan _ _ => []

/-- Chip-select and the selector line after a framing operation, from their levels before it. -/
def linesAfter (lines : Bool × Bit) : Instr → Bool × Bit
  | .select => (true, lines.2)
  | .deselect => (false, lines.2)
  | .sendCommand _ => (true, 0)
  | .sendData8 _ | .sendData16 _ => (true, 1)
  | .sendBlock _ _ _ | .fillSpan _ _ => lines

/-- The events of framing operations in a row. -/
def framingTrace (lines : Bool × Bit) : List Instr → List WireEvent
  | [] => []
  | i :: is => framingEvents lines.1 i ++ framingTrace (linesAfter lines i) is

/-- The levels of chip-select and the selector line. -/
def State.lines (s : State) : Bool × Bit := (s.cs, s.dc)

/-- A framing operation on a live link: its events, and the lines after it. -/
theorem exec_framing_events {i : Instr} {s : State} (hi : IsFraming i) (hs : s.CanRun) :
    ∃ t, exec i s = .next t ∧ t.CanRun ∧ t.wire = s.wire ++ framingEvents s.cs i
      ∧ t.lines = linesAfter s.lines i := by
  obtain ⟨⟨ho, hidle, hrest⟩, hlive, hpace⟩ := hs
  obtain rfl | rfl | ⟨b, rfl⟩ | ⟨b, rfl⟩ | ⟨w, rfl⟩ := hi
  · exact ⟨_, selectCompletes.2 s ho, ⟨⟨ho, hidle, hrest⟩, hlive, hpace⟩, rfl, rfl⟩
  · exact ⟨_, deselectCompletes.2 s ho, ⟨⟨ho, hidle, hrest⟩, hlive, hpace⟩, rfl, rfl⟩
  · exact ⟨_, (sendCommandCompletes s b ho).2.1 hlive, ⟨⟨ho, rfl, hrest⟩, hlive, hpace⟩,
      List.append_assoc .., rfl⟩
  · exact ⟨_, (sendDataByteCompletes s b ho).2.1 hlive, ⟨⟨ho, rfl, hrest⟩, hlive, hpace⟩,
      List.append_assoc .., rfl⟩
  · exact ⟨_, (sendDataWordCompletes s w ho).2.1 hlive, ⟨⟨ho, rfl, hrest⟩, hlive, hpace⟩,
      List.append_assoc .., rfl⟩

section
variable {s : State} {rest : List HostAct}

theorem step_framing_transmits {i : Instr} (hi : IsFraming i) (hs : s.CanRun)
    (hact : s.host = present i :: rest) :
    ∃ t, FramingTransmits 1 (framingEvents s.cs i) rest s t ∧ t.lines = linesAfter s.lines i := by
  obtain ⟨t, hexec, hrun, hwire, hlines⟩ :=
    exec_framing_events hi (s := { s with host := rest, done := false }) hs
  obtain ⟨-, hmem, hch, -, hhost, hkept, -, hsettles, hparams, -⟩ :=
    framingOperationsFrame i _ t hi hexec
  have hstep : step s = .next t := (step_presents_exec hs (.inl hact)).trans hexec
  exact ⟨t, ⟨⟨run_succ 0 hstep, hrun, hhost, hwire, hmem, hkept, hparams, hsettles⟩, hch⟩, hlines⟩

/-- A frame's framing operations: their events one after the other. -/
theorem run_framing_transmits {is : List Instr} (his : ∀ i ∈ is, IsFraming i) (hs : s.CanRun)
    (hact : s.host = is.map present ++ rest) :
    ∃ t, FramingTransmits is.length (framingTrace s.lines is) rest s t
      ∧ t.lines = is.foldl linesAfter s.lines := by
  induction is generalizing s with
  | nil =>
    obtain rfl : s.host = rest := hact
    exact ⟨s, .refl hs, rfl⟩
  | cons i is ih =>
    obtain ⟨hi, his⟩ := List.forall_mem_cons.1 his
    obtain ⟨u, hu, hlines⟩ := step_framing_transmits hi hs hact
    obtain ⟨t, ht, hlast⟩ := ih his hu.canRun hu.host
    rw [hlines] at ht hlast
    exact ⟨t, by simpa [framingTrace, State.lines, Nat.add_comm] using hu.trans ht, hlast⟩

/-- The events of a frame's head (43_frame_sequences.md R125 to R127). -/
def headEvents (p : Params) (cs : Bool) (x0 y0 x1 y1 : Half) : List WireEvent :=
  selectMark cs ++ windowUnits p x0 y0 x1 y1 ++ [.unit 0 p.cmdMemoryWrite]

/-- The head of a frame puts its events on the wire and leaves chip-select active. -/
theorem run_openFrame_transmits {p : Params} {x0 y0 x1 y1 : Half} (hs : s.CanRun)
    (hact : s.host = openFrame p x0 y0 x1 y1 ++ rest) :
    ∃ t, FramingTransmits 8 (headEvents p s.cs x0 y0 x1 y1) rest s t ∧ t.cs = true := by
  have his : ∀ i ∈ [Instr.select] ++ setWindow p x0 y0 x1 y1 ++ beginMemoryWrite p, IsFraming i := by
    simp [IsFraming, setWindow, beginMemoryWrite]
  obtain ⟨t, ht, hlines⟩ := run_framing_transmits his hs hact
  refine ⟨t, ?_, congrArg Prod.fst hlines⟩
  simpa [headEvents, windowUnits, setWindow, beginMemoryWrite, framingTrace, framingEvents, linesAfter,
    selectMark, State.lines] using ht

/-- The deselect that ends a frame. -/
theorem step_deselect_transmits (hs : s.CanRun) (hcs : s.cs = true)
    (hact : s.host = present .deselect :: rest) : ∃ t, FramingTransmits 1 [.deselect] rest s t := by
  obtain ⟨t, ht, -⟩ := step_framing_transmits (i := .deselect) (by simp [IsFraming]) hs hact
  rw [hcs] at ht
  exact ⟨t, ht⟩

end

/-- Settles O45: the six operations are framing operations, and the last drives the selector line to
1. -/
theorem setWindowWire : Obligations.SetWindowWire := by
  unfold Obligations.SetWindowWire
  intro s x0 y0 x1 y1 hs hcs
  have his : ∀ i ∈ setWindow s.params x0 y0 x1 y1, IsFraming i := by simp [IsFraming, setWindow]
  obtain ⟨t, ht, hlines⟩ := run_framing_transmits (rest := []) his
    (s := s.program ((setWindow s.params x0 y0 x1 y1).map present)) hs (List.append_nil _).symm
  have htrace : framingTrace (s.cs, s.dc) (setWindow s.params x0 y0 x1 y1)
      = windowUnits s.params x0 y0 x1 y1 := by
    rw [hcs]
    rfl
  exact ⟨t, ht.run, ht.over, ht.wire.trans (congrArg (s.wire ++ ·) htrace), congrArg Prod.snd hlines⟩

/-- The events of `draw_pixel` (43_frame_sequences.md R130). -/
def pixelEvents (p : Params) (cs : Bool) (x y c : Half) : List WireEvent :=
  headEvents p cs x y x y ++ [.unit 1 (hi c), .unit 1 (lo c)] ++ [.deselect]

/-- `draw_pixel` from a resting block on a live link. -/
theorem run_drawPixel_transmits {s : State} (x y c : Half) (hs : s.CanRun) :
    ∃ t, FramingTransmits 10 (pixelEvents s.params s.cs x y c) []
      (s.program (drawPixel s.params x y c)) t := by
  obtain ⟨t1, h1, hcs1⟩ := run_openFrame_transmits (s := s.program (drawPixel s.params x y c)) hs rfl
  obtain ⟨t2, h2, hlines⟩ :=
    step_framing_transmits (i := .sendData16 c) (by simp [IsFraming]) h1.canRun h1.host
  obtain ⟨t3, h3⟩ := step_deselect_transmits h2.canRun (congrArg Prod.fst hlines) h2.host
  rw [hcs1] at h2
  exact ⟨t3, (h1.trans h2).trans h3⟩

/-- Settles O46: the head, one data word and the deselect, framing operations all ten. -/
theorem drawPixelWire : Obligations.DrawPixelWire := by
  unfold Obligations.DrawPixelWire
  intro s x y c hs
  obtain ⟨t, ht⟩ := run_drawPixel_transmits x y c hs
  refine ⟨rfl, t, ht.run, ht.over, ht.ch, ht.mem, ht.wire.trans ?_⟩
  simp [pixelEvents, headEvents, State.program]

/-! ### A frame with one block (41_block_transfer.md R101) -/

theorem State.Presents.of_same {s t : State} {w : OpWord} {rest : List HostAct}
    (h : s.Presents w rest) (hhost : t.host = s.host) (hkept : t.kept = s.kept) :
    t.Presents w rest := by
  simpa only [State.Presents, hhost, hkept] using h

section
variable {s : State} {rest : List HostAct} {a n : Word} {r : Half}

/-- A block of a frame on a live link. -/
theorem step_block_transmits (hs : s.CanRun) (hact : s.Presents (encode (.sendBlock a n r)) rest)
    (hdef : blockRefusal s.params a n r = none) :
    ∃ t, Transmits 1 (selectMark s.cs ++ copies r.toNat (blockUnits s.mem a n.toNat)) rest s t
      ∧ t.cs = true := by
  obtain ⟨hready, hlive, hpace⟩ := id hs
  have hstep : step s = .next (blockSent a n r { s with host := rest, done := false }) :=
    (step_presents_exec hs hact).trans (exec_sendBlock_live (by exact hready) hlive hdef)
  exact ⟨_, ⟨run_succ 0 hstep, ⟨blockSent_ready a n r hready.1, hlive, hpace⟩, rfl,
    List.append_assoc .., rfl, rfl, rfl, rfl⟩, rfl⟩

/-- A frame whose pixels are one block, presented at once or completed by the kept value. -/
theorem run_blockFrame {p : Params} {x0 y0 x1 y1 : Half} {acts : List HostAct} (hs : s.CanRun)
    (hact : s.host = openFrame p x0 y0 x1 y1 ++ acts)
    (hblock : (s.program acts).Presents (encode (.sendBlock a n r)) [present .deselect])
    (hdef : blockRefusal s.params a n r = none) :
    ∃ t, Transmits 10 (headEvents p s.cs x0 y0 x1 y1
      ++ copies r.toNat (blockUnits s.mem a n.toNat) ++ [.deselect]) [] s t := by
  obtain ⟨t1, h1, hcs1⟩ := run_openFrame_transmits hs hact
  obtain ⟨t2, h2, hcs2⟩ := step_block_transmits h1.canRun (hblock.of_same h1.host h1.kept)
    (h1.params ▸ hdef)
  obtain ⟨t3, h3⟩ := step_deselect_transmits h2.canRun hcs2 h2.host
  rw [hcs1, h1.mem] at h2
  exact ⟨t3, (h1.toTransmits.trans h2).trans h3.toTransmits⟩

end

/-- Settles O50: one repeat of the caller's block, read from memory that the head leaves alone. -/
theorem drawBitmapWire : Obligations.DrawBitmapWire := by
  unfold Obligations.DrawBitmapWire
  intro s x y w h pixels hs hdef
  obtain ⟨t, ht⟩ := run_blockFrame (s := s.program (drawBitmap s.params x y w h pixels)) hs rfl
    (.inl rfl) hdef
  refine ⟨t, ht.run, ht.over, ht.wire.trans ?_⟩
  simp [headEvents, copies, farCorner, State.program]

/-! ### A block of colour pairs in the scratch region (42_fill_engine.md R117, R122) -/

/-- Any run of bytes that starts with the scratch region and stays inside may be sent. -/
theorem blockRefusal_scratch {p : Params} (hok : p.Ok) {n : Word} {r : Half} (hcap : n.toNat ≤ 640)
    (hn : n ≠ 0 ∨ r = 0) : blockRefusal p p.scratchBase n r = none := by
  have hfits := hok.scratchFits
  have hsize : Config.scratchCap = 640 ∧ Config.spaceSize = 2 ^ 32 := ⟨rfl, rfl⟩
  refine blockRefusal_eq_none.2 (hn.symm.imp_right fun hpos => ⟨hpos, by omega, ?_⟩)
  exact hok.plain (Nat.le_refl _) (by omega)

/-- Two data units for each colour, high byte first (20_memory.md R50). -/
def colourUnits (cs : List Half) : List WireEvent :=
  cs.flatMap fun c => [.unit 1 (hi c), .unit 1 (lo c)]

/-- Colour pair `i` of the scratch region is `c`. -/
def HoldsPair (p : Params) (m : Memory) (i : Nat) (c : Half) : Prop :=
  Memory.read m (scratchAddr p (2 * i)) = hi c ∧ Memory.read m (scratchAddr p (2 * i + 1)) = lo c

/-- The bytes of colour pairs from the start of the scratch region. -/
theorem blockUnits_scratch {p : Params} {m : Memory} {cs : List Half}
    (h : ∀ i c, cs[i]? = some c → HoldsPair p m i c) :
    blockUnits m p.scratchBase (2 * cs.length) = colourUnits cs := by
  induction cs using List.reverseRecOn with
  | nil => rfl
  | append_singleton cs c ih =>
    obtain ⟨hhigh, hlow⟩ := h cs.length c (by simp)
    have hprefix := ih fun i d hi => h i d (by
      rw [List.getElem?_append_left (List.getElem?_eq_some_iff.1 hi).1, hi])
    have hunits : ∀ n, blockUnits m p.scratchBase (n + 1)
        = blockUnits m p.scratchBase n ++ [.unit 1 (Memory.read m (scratchAddr p n))] := fun n => by
      simp [blockUnits, List.range_succ, blockAddr, scratchAddr]
    rw [List.length_append, List.length_singleton, Nat.mul_add, hunits, hunits, hprefix, hhigh, hlow]
    simp [colourUnits]

theorem colourUnits_replicate (c : Half) (k : Nat) :
    colourUnits (List.replicate k c) = pairUnits c k := by
  simp [colourUnits, pairUnits, copies, List.flatMap_replicate]

theorem copies_pairUnits (c : Half) (k r : Nat) :
    copies r (pairUnits c k) = pairUnits c (k * r) := by
  induction r with
  | zero => rfl
  | succ r ih =>
    rw [copies_add, ih, Nat.mul_succ, pairUnits, pairUnits, pairUnits, copies_add (k * r)]
    simp [copies]

/-! ### The fill frames (R131 to R133) -/

/-- The state after a fill whose result the host has kept. -/
def filledAndKept (c : Half) (n : Word) (rest : List HostAct) (s : State) : State :=
  { s with
    host := rest, mem := fillPairs s.params c (fillCount n) s.mem, done := false,
    result := filledBytes n, kept := filledBytes n }

theorem run_fillAndKeep {s : State} {c : Half} {n : Word} {rest : List HostAct} (hs : s.CanRun)
    (hact : s.host = present (.fillSpan c n) :: .keepResult :: rest) :
    run 2 s = .next (filledAndKept c n rest s) := by
  have hfill := (step_presents_exec hs (.inl hact)).trans (exec_fillSpan_ready c n hs.1.1)
  have hkeep := step_hostAct (act := .keepResult) (rest := rest) (s := { s with
    host := .keepResult :: rest, mem := fillPairs s.params c (fillCount n) s.mem, done := true,
    result := filledBytes n }) hs.1.1 rfl
  exact (run_succ 1 hfill).trans (run_succ 0 hkeep)

/-- The block of a filled span: its pairs, over and over. -/
theorem copies_blockUnits_filled (p : Params) (c : Half) (n : Word) (r : Nat) (m : Memory) :
    copies r (blockUnits (fillPairs p c (fillCount n) m) p.scratchBase (filledBytes n).toNat)
      = pairUnits c (fillCount n * r) := by
  have hpairs : ∀ i d, (List.replicate (fillCount n) c)[i]? = some d →
      HoldsPair p (fillPairs p c (fillCount n) m) i d := fun i d hd => by
    obtain ⟨hi, rfl⟩ := by simpa [List.getElem?_replicate] using hd
    exact read_fillPairs_pair (fillCount_le n) hi m
  have hunits := blockUnits_scratch hpairs
  rw [List.length_replicate, colourUnits_replicate] at hunits
  rw [filledBytes_toNat, hunits, copies_pairUnits]

/-- A frame that fills a span and sends it `r` times. -/
def fillFrame (p : Params) (x0 y0 x1 y1 c : Half) (n : Word) (r : Half) : List HostAct :=
  [present (.fillSpan c n), .keepResult] ++ openFrame p x0 y0 x1 y1
    ++ [.presentKept (encode (.sendBlock p.scratchBase 0 r)), present .deselect]

/-- The filled span goes out `r` times, unless it is empty. -/
theorem run_fillFrame {s : State} (x0 y0 x1 y1 c : Half) {n : Word} {r : Half} (hs : s.CanRun)
    (hok : s.params.Ok) (hn : n ≠ 0 ∨ r = 0) :
    ∃ t, run 12 (s.program (fillFrame s.params x0 y0 x1 y1 c n r)) = .next t ∧ t.Over
      ∧ t.wire = s.wire ++ selectMark s.cs ++ windowUnits s.params x0 y0 x1 y1
          ++ [.unit 0 s.params.cmdMemoryWrite] ++ pairUnits c (fillCount n * r.toNat)
          ++ [.deselect] := by
  have hbytes := filledBytes_toNat n
  have hcount := fillCount_eq_min n
  have hdef : blockRefusal s.params s.params.scratchBase (filledBytes n) r = none :=
    blockRefusal_scratch hok (by omega) (hn.imp_left fun hpos => by bv_omega)
  have hfill := run_fillAndKeep (s := s.program (fillFrame s.params x0 y0 x1 y1 c n r)) hs rfl
  obtain ⟨t, ht⟩ := run_blockFrame (s := filledAndKept c n _ (s.program _)) (by exact hs) rfl
    (.inr ⟨_, rfl, withN_encode _ _ r⟩) hdef
  refine ⟨t, (run_add hfill).trans ht.run, ht.over, ht.wire.trans ?_⟩
  simp only [filledAndKept, State.program, copies_blockUnits_filled, headEvents, List.append_assoc]

/-- The pairs of a span whose length is a `u16`. -/
theorem fillCount_setWidth (w : Half) : fillCount (w.setWidth 32) = min w.toNat 320 := by
  rw [fillCount_eq_min, BitVec.toNat_setWidth_of_le (by decide)]

/-- Settles O47: a filled span of `w` pairs, sent `h` times. -/
theorem fillRectWire : Obligations.FillRectWire := by
  unfold Obligations.FillRectWire
  intro s x y w h c hs hok hw
  rw [← fillCount_setWidth w]
  exact run_fillFrame x y _ _ c hs hok (hw.imp_left fun hpos => by bv_omega)

/-- Settles O49: the horizontal line sends its span once, the vertical one a span of one pair as often
as it is long. -/
theorem fastLinesWire : Obligations.FastLinesWire := by
  unfold Obligations.FastLinesWire
  intro s x y len c hs hok
  refine ⟨fun hlen => ?horizontal, ?vertical⟩
  case horizontal =>
    have hrun := run_fillFrame x y (farCorner x len) y c (n := len.setWidth 32) (r := 1) hs hok
      (.inl (by bv_omega))
    rwa [fillCount_setWidth, show (1 : Half).toNat = 1 from rfl, Nat.mul_one] at hrun
  case vertical =>
    have hrun := run_fillFrame x y x (farCorner y len) c (n := 1) (r := len) hs hok (.inl (by decide))
    rwa [show fillCount 1 = 1 from rfl, Nat.one_mul] at hrun

/-! ### A glyph that the host stores (R136) -/

/-- Memory after the host's stores of `cs` from scratch pair `i` on. -/
def storedPairs (p : Params) : Nat → List Half → Memory → Memory
  | _, [], m => m
  | i, c :: cs, m => storedPairs p (i + 1) cs (writePair p c i m)

/-- The state after the host's stores of `cs` from scratch pair `i` on, the `done` pulse at `d`. -/
def pairsStored (i : Nat) (cs : List Half) (rest : List HostAct) (d : Bool) (s : State) : State :=
  { s with host := rest, mem := storedPairs s.params i cs s.mem, done := d }

/-- The two stores of one pair. -/
theorem run_storePair {s : State} {c : Half} {i : Nat} {rest : List HostAct} (ho : s.op = none)
    (hact : s.host = storePairs s.params i [c] ++ rest) :
    run 2 s = .next (pairsStored i [c] rest false s) := by
  have hhigh := step_hostAct ho hact
  have hlow := step_hostAct (act := .store (s.params.scratchBase + BitVec.ofNat 32 (2 * i + 1)) (lo c))
    (rest := rest) (s := { s with
      host := .store _ _ :: rest, mem := Memory.write s.mem (scratchAddr s.params (2 * i)) (hi c)
      done := false }) ho rfl
  exact (run_succ 1 hhigh).trans (run_succ 0 hlow)

/-- The host's stores, two for each pair. -/
theorem run_storePairs {s : State} {cs : List Half} {i : Nat} {rest : List HostAct} (ho : s.op = none)
    (hact : s.host = storePairs s.params i cs ++ rest) :
    ∃ d, run (2 * cs.length) s = .next (pairsStored i cs rest d s) := by
  induction cs generalizing s i with
  | nil =>
    obtain rfl : s.host = rest := hact
    exact ⟨s.done, rfl⟩
  | cons c cs ih =>
    have hpair := run_storePair (rest := storePairs s.params (i + 1) cs ++ rest) ho hact
    obtain ⟨d, hrest⟩ := ih (s := pairsStored i [c] (storePairs s.params (i + 1) cs ++ rest) false s)
      ho rfl
    refine ⟨d, ?_⟩
    rw [List.length_cons, Nat.mul_succ, Nat.add_comm]
    exact (run_add hpair).trans hrest

section
variable {p : Params} {cs : List Half} {i : Nat}

/-- Stores from pair `i` on leave the pairs below alone. -/
theorem HoldsPair.storedPairs {m : Memory} {j : Nat} {d : Half} (h : HoldsPair p m j d) (hj : j < i)
    (hcap : i + cs.length ≤ 320) : HoldsPair p (storedPairs p i cs m) j d := by
  induction cs generalizing i m with
  | nil => exact h
  | cons c cs ih =>
    rw [List.length_cons] at hcap
    refine ih ⟨?_, ?_⟩ (by omega) (by omega)
    · rw [read_writePair_below (by omega) (by omega), h.1]
    · rw [read_writePair_below (by omega) (by omega), h.2]

theorem holdsPair_storedPairs (hcap : i + cs.length ≤ 320) (m : Memory) {j : Nat} {d : Half}
    (hd : cs[j]? = some d) : HoldsPair p (storedPairs p i cs m) (i + j) d := by
  induction cs generalizing i j m with
  | nil => simp at hd
  | cons c cs ih =>
    rw [List.length_cons] at hcap
    cases j with
    | zero =>
      obtain rfl : c = d := by simpa using hd
      have hpair : HoldsPair p (writePair p c i m) i c := read_writePair_same (by omega) m
      exact hpair.storedPairs (by omega) (by omega)
    | succ j =>
      rw [show i + (j + 1) = i + 1 + j by omega]
      exact ih (by omega) _ hd

end

/-- The bytes of a glyph that fits are no more than the scratch buffer holds, and wrap nowhere. -/
theorem bitmapBytes_toNat {w h : Half} (hcap : 2 * (w.toNat * h.toNat) ≤ 640) :
    (bitmapBytes w h).toNat = 2 * (w.toNat * h.toNat) := by
  have hw : (w.setWidth 32).toNat = w.toNat := BitVec.toNat_setWidth_of_le (by decide)
  have hh : (h.setWidth 32).toNat = h.toNat := BitVec.toNat_setWidth_of_le (by decide)
  rw [bitmapBytes, BitVec.mul_assoc, BitVec.toNat_mul, BitVec.toNat_mul, hw, hh,
    show (2 : Word).toNat = 2 from rfl, Nat.mod_eq_of_lt (a := w.toNat * h.toNat) (by omega)]
  exact Nat.mod_eq_of_lt (by omega)

/-- Settles O51: the host's stores leave the glyph's pairs in the scratch region, from which one block
sends them. -/
theorem printCharWire : Obligations.PrintCharWire := by
  unfold Obligations.PrintCharWire
  intro s cx cy gw gh glyph hs hok hgw hgh hcap
  have hbytes := bitmapBytes_toNat hcap
  have hlen : glyph.toList.length = gw.toNat * gh.toNat := glyph.length_toList
  have hpos : 0 < gw.toNat * gh.toNat := Nat.mul_pos (by bv_omega) (by bv_omega)
  have hdef : blockRefusal s.params s.params.scratchBase (bitmapBytes gw gh) 1 = none :=
    blockRefusal_scratch hok (by omega) (.inl fun h => by
      rw [h, show (0 : Word).toNat = 0 from rfl] at hbytes
      omega)
  obtain ⟨d, hstores⟩ := run_storePairs (s := s.program (printChar s.params cx cy gw gh glyph))
    (i := 0) (cs := glyph.toList) hs.1.1 (List.append_assoc ..)
  obtain ⟨t, ht⟩ := run_blockFrame (s := pairsStored 0 glyph.toList _ d (s.program _)) (by exact hs)
    rfl (.inl rfl) hdef
  have hunits := blockUnits_scratch fun j c hj => Nat.zero_add j ▸
    holdsPair_storedPairs (p := s.params) (i := 0) (cs := glyph.toList) (by omega) s.mem hj
  rw [hlen] at hstores hunits
  refine ⟨t, (run_add hstores).trans ht.run, ht.over, ht.wire.trans ?_⟩
  simp only [pairsStored, State.program, hbytes, hunits, headEvents, List.append_assoc]
  simp [copies, colourUnits, farCorner]

end Sys2Proof.Machine
end

section
/-! PROOFS. What the receiver makes of a frame (44_receiver_protocol.md R149 to R160), wherever settle
markers stand, and `draw_pixel` end to end. -/

namespace Sys2Proof.Machine

/-! ### Events that leave no settle delay owed -/

/-- The receiver takes the events `es` from `rx` to `t`, at whatever place of a trace they stand and
wherever settle markers do. -/
def Receives (p : Params) (rx : Rx) (es : List WireEvent) (t : Rx) : Prop :=
  ∀ ds i, rxFold p ds i rx es = .ok t

section
variable {p : Params} {rx t u : Rx} {e : WireEvent} {es fs : List WireEvent}

theorem Receives.nil (h : rx.owed = none) : Receives p rx [] rx := fun ds i =>
  congrArg Except.ok (rxSettles_of_none ds i h)

/-- One event, and then what comes after it: no marker has a delay to lift before the event. -/
theorem Receives.cons (h : rx.owed = none) (hstep : rxStep p rx e = .ok t)
    (hrest : Receives p t es u) : Receives p rx (e :: es) u := fun ds i => by
  rw [rxFold, rxSettles_of_none ds i h, hstep]
  exact hrest ds (i + 1)

theorem Receives.append (h : Receives p rx es t) (hrest : Receives p t fs u) :
    Receives p rx (es ++ fs) u := fun ds i =>
  (rxFold_append p ds es fs i (h ds i)).trans (hrest ds _)

/-- A trace that goes on with events the receiver takes. -/
theorem Receives.rx_eq {s s' : State} (hrx : s.rx = .ok rx) (h : Receives s.params rx es t)
    (hwire : s'.wire = s.wire ++ es) (hparams : s'.params = s.params)
    (hsettles : s'.settles = s.settles) : s'.rx = .ok t := by
  rw [State.rx, hwire, hparams, hsettles, rxFold_append _ _ _ es 0 hrx]
  exact h _ _

/-- `S?` changes nothing. -/
theorem receives_selectMark (cs : Bool) (h : rx.owed = none) : Receives p rx (selectMark cs) rx := by
  cases cs with
  | true => exact .nil h
  | false => exact .cons h (rxStep_select p h) (.nil h)

/-- A release between two items. -/
theorem receives_deselect (h : rx.owed = none) (hmid : rx.midItem p = false) :
    Receives p rx [.deselect] { rx with released := true } :=
  .cons h (by rw [rxStep_deselect p h, hmid]; rfl) (.nil h)

end

/-! ### Commands and parameters (R149 to R153) -/

/-- A command that asks for no settle delay. -/
theorem settleAfter_of_notMem {p : Params} {c : Byte} (h : c ∉ p.initCommands) (n : Nat) :
    p.settleAfter c n = none := by
  simp only [Params.initCommands, List.mem_append, List.mem_cons, not_or] at h
  simp [Params.settleAfter, Params.isGamma, h]

/-- The three commands of a frame are distinct and none of them is an initialisation command. -/
structure FrameCommandsApart (p : Params) : Prop where
  column_ne_write : p.cmdColumnRange ≠ p.cmdMemoryWrite
  row_ne_column : p.cmdRowRange ≠ p.cmdColumnRange
  row_ne_write : p.cmdRowRange ≠ p.cmdMemoryWrite
  column_notMem : p.cmdColumnRange ∉ p.initCommands
  row_notMem : p.cmdRowRange ∉ p.initCommands
  write_notMem : p.cmdMemoryWrite ∉ p.initCommands

theorem frameCommandsApart {p : Params} (h : p.allCommands.Nodup) : FrameCommandsApart p := by
  simp only [Params.allCommands, List.cons_append, List.nil_append, List.nodup_cons, List.mem_cons,
    not_or] at h
  obtain ⟨⟨hcr, hcw, hci⟩, ⟨hrw, hri⟩, hwi, -⟩ := h
  exact ⟨hcw, Ne.symm hcr, hrw, hci, hri, hwi⟩

/-- The receiver after a command other than begin memory write. -/
def Rx.commanded (c : Byte) (rx : Rx) : Rx :=
  { rx with mode := .idle, cmd := some c, params := [], half := none, owed := none, released := false }

theorem rxStep_command {p : Params} {rx : Rx} {c : Byte} (hrx : rx.Clear) (hc : c ∉ p.initCommands) :
    rxStep p rx (.unit 0 c)
      = .ok (if c = p.cmdMemoryWrite then (rx.commanded c).beginStream else rx.commanded c) := by
  simp [rxStep, rxCommand, hrx, settleAfter_of_notMem hc, Rx.commanded]

/-- One more parameter of a range command. -/
theorem rxStep_rangeParam {p : Params} {rx : Rx} {c b : Byte} (howed : rx.owed = none)
    (hmode : rx.mode = .idle) (hcmd : rx.cmd = some c) (hc : p.isRange c = true)
    (hlen : rx.params.length < 4) :
    rxStep p rx (.unit 1 b) = .ok (rxRange p c { rx with params := rx.params ++ [b] }) := by
  simp [rxStep, rxParam, howed, hmode, hcmd, hc, hlen]

/-- The fourth parameter of the column range sets the window's columns, high bytes first. -/
theorem rxRange_column {p : Params} {rx : Rx} {w0 w1 : Half}
    (h : rx.params = [hi w0, lo w0, hi w1, lo w1]) :
    rxRange p p.cmdColumnRange rx = { rx with x0 := w0, x1 := w1 } := by
  simp [rxRange, h, hi_append_lo]

/-- The fourth parameter of the row range sets the window's rows. -/
theorem rxRange_row {p : Params} {rx : Rx} {w0 w1 : Half} (hne : p.cmdRowRange ≠ p.cmdColumnRange)
    (h : rx.params = [hi w0, lo w0, hi w1, lo w1]) :
    rxRange p p.cmdRowRange rx = { rx with y0 := w0, y1 := w1 } := by
  simp [rxRange, h, hi_append_lo, hne]

@[simp] theorem rxRange_owed (p : Params) (c : Byte) (rx : Rx) : (rxRange p c rx).owed = rx.owed := by
  unfold rxRange
  repeat' split
  all_goals rfl

/-- A range command with its four parameters. -/
theorem receives_range {p : Params} {rx : Rx} {c : Byte} (hrx : rx.Clear) (hc : p.isRange c = true)
    (hne : c ≠ p.cmdMemoryWrite) (hinit : c ∉ p.initCommands) (b0 b1 b2 b3 : Byte) :
    Receives p rx [.unit 0 c, .unit 1 b0, .unit 1 b1, .unit 1 b2, .unit 1 b3]
      (rxRange p c { rx.commanded c with params := [b0, b1, b2, b3] }) := by
  have hcommand := rxStep_command hrx hinit
  rw [if_neg hne] at hcommand
  have hparam : ∀ bs b, bs.length < 4 →
      rxStep p { rx.commanded c with params := bs } (.unit 1 b)
        = .ok (rxRange p c { rx.commanded c with params := bs ++ [b] }) := fun bs b hlen =>
    rxStep_rangeParam rfl rfl rfl hc hlen
  have hlast := Receives.cons rfl (hparam [b0, b1, b2] b3 (by simp))
    (.nil (rxRange_owed ..))
  exact .cons hrx.2 hcommand (.cons rfl (hparam [] b0 (by simp))
    (.cons rfl (hparam [b0] b1 (by simp)) (.cons rfl (hparam [b0, b1] b2 (by simp)) hlast)))

/-- The receiver after the units of a window. -/
def Rx.windowed (p : Params) (x0 y0 x1 y1 : Half) (rx : Rx) : Rx :=
  { rx.commanded p.cmdRowRange with
    params := [hi y0, lo y0, hi y1, lo y1], x0 := x0, x1 := x1, y0 := y0, y1 := y1 }

theorem receives_window {p : Params} {rx : Rx} (hp : FrameCommandsApart p) (hrx : rx.Clear)
    (x0 y0 x1 y1 : Half) :
    Receives p rx (windowUnits p x0 y0 x1 y1) (rx.windowed p x0 y0 x1 y1) := by
  have hcolumns := receives_range hrx (by simp [Params.isRange]) hp.column_ne_write hp.column_notMem
    (hi x0) (lo x0) (hi x1) (lo x1)
  rw [rxRange_column rfl] at hcolumns
  refine hcolumns.append ?_
  have hrows := receives_range (rx := { rx.commanded p.cmdColumnRange with
      params := [hi x0, lo x0, hi x1, lo x1], x0 := x0, x1 := x1 }) ⟨rfl, rfl⟩
    (by simp [Params.isRange]) hp.row_ne_write hp.row_notMem (hi y0) (lo y0) (hi y1) (lo y1)
  rwa [rxRange_row hp.row_ne_column rfl] at hrows

/-- Begin memory write under a window inside the frame (R152). -/
theorem receives_memoryWrite {p : Params} {rx : Rx} (hp : FrameCommandsApart p) (hrx : rx.Clear)
    (hw : rx.windowOk = true) :
    Receives p rx [.unit 0 p.cmdMemoryWrite] { rx.commanded p.cmdMemoryWrite with
      mode := .streaming, col := rx.x0, row := rx.y0, past := false } := by
  have hok : (rx.commanded p.cmdMemoryWrite).windowOk = true := hw
  have hbegin : (rx.commanded p.cmdMemoryWrite).beginStream = { rx.commanded p.cmdMemoryWrite with
      mode := .streaming, col := rx.x0, row := rx.y0, past := false } := if_pos hok
  refine .cons hrx.2 ?_ (.nil rfl)
  rw [rxStep_command hrx hp.write_notMem, if_pos rfl, hbegin]

/-! ### A streamed pixel (R155) -/

/-- The pointer's going on leaves the mode, the half pixel and the delay owed alone. -/
@[simp] theorem Rx.advance_keeps (p : Params) (rx : Rx) :
    (Rx.advance p rx).mode = rx.mode ∧ (Rx.advance p rx).half = rx.half
      ∧ (Rx.advance p rx).owed = rx.owed := by
  unfold Rx.advance
  repeat' split
  all_goals exact ⟨rfl, rfl, rfl⟩

/-- The first byte of a pixel is kept as its high byte. -/
theorem rxStep_highByte {p : Params} {rx : Rx} (hmode : rx.mode = .streaming) (hrx : rx.Clear)
    (b : Byte) : rxStep p rx (.unit 1 b) = .ok { rx with half := some b } := by
  simp [rxStep, rxStream, hmode, hrx]

/-- The second byte completes the pixel. -/
theorem rxStep_lowByte {p : Params} {rx : Rx} {h : Byte} (hmode : rx.mode = .streaming)
    (howed : rx.owed = none) (hhalf : rx.half = some h) (b : Byte) :
    rxStep p rx (.unit 1 b) = .ok (rxPixelIn p (h ++ b) { rx with half := none }) := by
  simp [rxStep, rxStream, hmode, howed, hhalf]

/-- The pointer is where a pixel of the window may be put. -/
structure Rx.AtPixel (rx : Rx) : Prop where
  streaming : rx.mode = .streaming
  clear : rx.Clear
  past : rx.past = false
  windowOk : rx.windowOk = true
  col : rx.col.toNat < 320
  row : rx.row.toNat < 240

section
variable {p : Params} {rx : Rx} {c : Half}

theorem Rx.AtPixel.rxPixelIn_eq (h : rx.AtPixel) (c : Half) :
    rxPixelIn p c rx = Rx.advance p
      { rx with gram := gramInsert rx.gram (pixelKey rx.col.toNat rx.row.toNat) c } :=
  (if_neg (by simp [h.past])).trans
    (congrArg (Rx.advance p) (Rx.putPixel_inside c h.windowOk h.col h.row))

/-- The pixel is put at the pointer and nowhere else. -/
theorem Rx.AtPixel.pixel_rxPixelIn (h : rx.AtPixel) (c : Half) {col row : Nat} (hcol : col < 320) :
    (rxPixelIn p c rx).pixel col row
      = if col = rx.col.toNat ∧ row = rx.row.toNat then c else rx.pixel col row := by
  rw [h.rxPixelIn_eq, Rx.pixel_advance]
  simp only [Rx.pixel, gramFind_insert, pixelKey_inj hcol h.col]
  split <;> rfl

/-- Between the pixel's two bytes its high byte is kept. -/
theorem Rx.AtPixel.receives (h : rx.AtPixel) (c : Half) :
    Receives p rx [.unit 1 (hi c), .unit 1 (lo c)] (rxPixelIn p c rx) := by
  obtain ⟨hhalf, howed⟩ := h.clear
  have hback : { rx with half := none } = rx := by rw [← hhalf]
  have hlow : rxStep p { rx with half := some (hi c) } (.unit 1 (lo c))
      = .ok (rxPixelIn p c rx) := by
    rw [rxStep_lowByte (h := hi c) (by exact h.streaming) (by exact howed) rfl, hi_append_lo, hback]
  exact .cons howed (rxStep_highByte h.streaming h.clear (hi c))
    (.cons howed hlow (.nil (by simp [h.rxPixelIn_eq, howed])))

/-- After the pixel a release is in the middle of nothing. -/
theorem Rx.AtPixel.midItem_eq_false (h : rx.AtPixel) (c : Half) :
    (rxPixelIn p c rx).midItem p = false := by
  simp [Rx.midItem, h.rxPixelIn_eq, h.streaming, h.clear]

end

/-! ### `draw_pixel` (43_frame_sequences.md R130) -/

/-- The receiver after the head of a frame. -/
def Rx.opened (p : Params) (x0 y0 x1 y1 : Half) (rx : Rx) : Rx :=
  { rx.commanded p.cmdMemoryWrite with
    mode := .streaming, col := x0, row := y0, past := false, x0 := x0, x1 := x1, y0 := y0, y1 := y1 }

/-- The head of a frame whose window lies inside the receiver's frame. -/
theorem receives_head {p : Params} {rx : Rx} (hp : FrameCommandsApart p) (hrx : rx.Clear) (cs : Bool)
    {x0 y0 x1 y1 : Half} (hw : (rx.windowed p x0 y0 x1 y1).windowOk = true) :
    Receives p rx (headEvents p cs x0 y0 x1 y1) (rx.opened p x0 y0 x1 y1) :=
  ((receives_selectMark cs hrx.2).append (receives_window hp hrx x0 y0 x1 y1)).append
    (receives_memoryWrite hp ⟨rfl, rfl⟩ hw)

/-- Settles O59: the frame's events take the receiver to a pointer at `(x, y)`, where the one pixel is
put; no delay is owed on the way, so that settle markers change nothing. -/
theorem drawPixelShowsOnePixel : Obligations.DrawPixelShowsOnePixel := by
  unfold Obligations.DrawPixelShowsOnePixel
  intro s rx x y c hs hok hrx hclear hx hy
  obtain ⟨t, ht⟩ := run_drawPixel_transmits x y c hs
  have hw : (rx.windowed s.params x y x y).windowOk = true := by
    simp [Rx.windowOk, Rx.windowed, Config.rxWidth, Config.rxHeight, hx, hy]
  have hat : (rx.opened s.params x y x y).AtPixel := ⟨rfl, ⟨rfl, rfl⟩, rfl, hw, hx, hy⟩
  have hevents := ((receives_head (frameCommandsApart hok.distinct) hclear s.cs hw).append
    (hat.receives c)).append
      (receives_deselect (by simp [hat.rxPixelIn_eq, hat.clear]) (hat.midItem_eq_false c))
  refine ⟨t, _, ht.run, hevents.rx_eq hrx ht.wire ht.params ht.settles, ?here, ?elsewhere⟩
  case here => exact (hat.pixel_rxPixelIn c hx).trans (if_pos ⟨rfl, rfl⟩)
  case elsewhere =>
    intro col row hcol hrow hne
    exact (hat.pixel_rxPixelIn c hcol).trans (if_neg fun h => hne.elim (· h.1) (· h.2))

end Sys2Proof.Machine
end

section
/-! PROOFS. The receiver's rules (44_receiver_protocol.md R147 to R162): one unit at a time, then a range
command and a frame. -/

namespace Sys2Proof.Machine

/-! ### The start of the trace (R147, R162) -/

/-- Settles O56: the fold over the empty trace. -/
theorem receiverReset : Obligations.ReceiverReset := by
  unfold Obligations.ReceiverReset
  exact ⟨rfl, rfl, rfl, rfl, rfl⟩

/-! ### A command unit (R149, R152, R157) -/

theorem Rx.beginStream_inside {rx : Rx} (h : rx.windowOk = true) :
    rx.beginStream = { rx with mode := .streaming, col := rx.x0, row := rx.y0, past := false } :=
  if_pos h

theorem Rx.beginStream_outside {rx : Rx} (h : rx.windowOk = false) :
    rx.beginStream = { rx.freeGram with
      mode := .streaming, col := rx.x0, row := rx.y0, past := false } :=
  if_neg (Bool.not_eq_true _ ▸ h)

/-- The receiver after any command, before begin memory write makes it stream. -/
def Rx.afterCommand (p : Params) (c : Byte) (rx : Rx) : Rx :=
  { rx with mode := .idle, cmd := some c, params := [], half := none, owed := p.settleAfter c 0,
            released := false }

/-- A command other than begin memory write. -/
theorem rxStep_otherCommand {p : Params} {rx : Rx} {c : Byte} (hrx : rx.Clear)
    (hc : c ≠ p.cmdMemoryWrite) : rxStep p rx (.unit 0 c) = .ok (rx.afterCommand p c) := by
  simp [rxStep, rxCommand, hrx, hc, Rx.afterCommand]

/-- Begin memory write. -/
theorem rxStep_memoryWrite {p : Params} {rx : Rx} (hrx : rx.Clear) :
    rxStep p rx (.unit 0 p.cmdMemoryWrite) = .ok (rx.afterCommand p p.cmdMemoryWrite).beginStream := by
  simp [rxStep, rxCommand, hrx, Rx.afterCommand]

/-- Settles O53: another command, or begin memory write under a window inside the frame or not. -/
theorem commandUnitRule : Obligations.CommandUnitRule := by
  unfold Obligations.CommandUnitRule
  intro p rx c hrx
  by_cases hc : c = p.cmdMemoryWrite
  · subst hc
    refine ⟨_, rxStep_memoryWrite hrx, ?_⟩
    cases hw : rx.windowOk with
    | true =>
      rw [Rx.beginStream_inside (rx := rx.afterCommand p _) hw]
      simp [Rx.afterCommand]
    | false =>
      rw [Rx.beginStream_outside (rx := rx.afterCommand p _) hw]
      simp [Rx.afterCommand, Rx.freeGram, Rx.pixel, gramFind]
  · refine ⟨_, rxStep_otherCommand hrx hc, ?_⟩
    simp [Rx.afterCommand, hc]

/-! ### The range commands (R150, R151) -/

/-- A range command with three of its parameters: no coordinate has changed. -/
theorem receives_threeParams {p : Params} {rx : Rx} {c : Byte} (hrx : rx.Clear)
    (hc : p.isRange c = true) (hne : c ≠ p.cmdMemoryWrite) (hinit : c ∉ p.initCommands)
    (b0 b1 b2 : Byte) :
    Receives p rx [.unit 0 c, .unit 1 b0, .unit 1 b1, .unit 1 b2]
      { rx.commanded c with params := [b0, b1, b2] } := by
  have hcommand := (rxStep_command hrx hinit).trans (congrArg Except.ok (if_neg hne))
  have hparam : ∀ bs b, bs.length < 3 →
      rxStep p { rx.commanded c with params := bs } (.unit 1 b)
        = .ok (rxRange p c { rx.commanded c with params := bs ++ [b] }) := fun bs b hlen =>
    rxStep_rangeParam rfl rfl rfl hc (Nat.lt_succ_of_lt hlen)
  exact .cons hrx.2 hcommand (.cons rfl (hparam [] b0 (by simp))
    (.cons rfl (hparam [b0] b1 (by simp)) (.cons rfl (hparam [b0, b1] b2 (by simp)) (.nil rfl))))

/-- Settles O54: the receiver after all four parameters of either command, and after three. -/
theorem rangeCommandsSetTheWindow : Obligations.RangeCommandsSetTheWindow := by
  unfold Obligations.RangeCommandsSetTheWindow
  intro p rx w0 w1 hdistinct hrx
  have hp := frameCommandsApart hdistinct
  have hcol : p.isRange p.cmdColumnRange = true := by simp [Params.isRange]
  have hrow : p.isRange p.cmdRowRange = true := by simp [Params.isRange]
  refine ⟨?columns, ?rows, ?three⟩
  case columns =>
    refine ⟨_, receives_range hrx hcol hp.column_ne_write hp.column_notMem _ _ _ _ [] 0, ?_⟩
    rw [rxRange_column rfl]
    exact ⟨rfl, rfl, rfl, rfl⟩
  case rows =>
    refine ⟨_, receives_range hrx hrow hp.row_ne_write hp.row_notMem _ _ _ _ [] 0, ?_⟩
    rw [rxRange_row hp.row_ne_column rfl]
    exact ⟨rfl, rfl, rfl, rfl⟩
  case three =>
    rintro c (rfl | rfl)
    · exact ⟨_, receives_threeParams hrx hcol hp.column_ne_write hp.column_notMem _ _ _ [] 0, rfl⟩
    · exact ⟨_, receives_threeParams hrx hrow hp.row_ne_write hp.row_notMem _ _ _ [] 0, rfl⟩

/-! ### A pixel is put, and the pointer goes on (R155) -/

section
variable {p : Params} {rx : Rx}

theorem Rx.advance_inRow (h : rx.col ≠ rx.x1) : rx.advance p = { rx with col := rx.col + 1 } :=
  if_neg h

theorem Rx.advance_rowEnd (hcol : rx.col = rx.x1) (hrow : rx.row ≠ rx.y1) :
    rx.advance p = { rx with col := rx.x0, row := rx.row + 1 } :=
  (if_pos hcol).trans (if_neg hrow)

theorem Rx.advance_windowEnd (hcol : rx.col = rx.x1) (hrow : rx.row = rx.y1) :
    rx.advance p = if p.rxWrapAtEnd then { rx with col := rx.x0, row := rx.y0 }
      else { rx with col := rx.x0, row := rx.row + 1, past := true } :=
  (if_pos hcol).trans (if_pos hrow)

/-- The pointer's going on keeps the window and the frame memory's generation. -/
@[simp] theorem Rx.advance_keepsWindow (p : Params) (rx : Rx) :
    (rx.advance p).x0 = rx.x0 ∧ (rx.advance p).x1 = rx.x1 ∧ (rx.advance p).y0 = rx.y0
      ∧ (rx.advance p).y1 = rx.y1 ∧ (rx.advance p).gen = rx.gen := by
  unfold Rx.advance
  repeat' split
  all_goals exact ⟨rfl, rfl, rfl, rfl, rfl⟩

/-- The receiver with `v` put at the pointer and no half pixel. -/
def Rx.painted (v : Half) (rx : Rx) : Rx :=
  { rx with half := none, gram := gramInsert rx.gram (pixelKey rx.col.toNat rx.row.toNat) v }

@[simp] theorem Rx.painted_keeps (v : Half) (rx : Rx) :
    (rx.painted v).mode = rx.mode ∧ (rx.painted v).half = none ∧ (rx.painted v).owed = rx.owed
      ∧ (rx.painted v).x0 = rx.x0 ∧ (rx.painted v).x1 = rx.x1 ∧ (rx.painted v).y0 = rx.y0
      ∧ (rx.painted v).y1 = rx.y1 ∧ (rx.painted v).gen = rx.gen :=
  ⟨rfl, rfl, rfl, rfl, rfl, rfl, rfl, rfl⟩

/-- The pixel is put at the pointer. -/
theorem Rx.pixel_painted_here (v : Half) (rx : Rx) :
    (rx.painted v).pixel rx.col.toNat rx.row.toNat = v := by
  simp [Rx.pixel, Rx.painted, gramFind_insert]

/-- The pixel is put nowhere else. -/
theorem Rx.pixel_painted_elsewhere (v : Half) (hin : rx.col.toNat < 320) {col row : Nat}
    (hcol : col < 320) (hne : col ≠ rx.col.toNat ∨ row ≠ rx.row.toNat) :
    (rx.painted v).pixel col row = rx.pixel col row := by
  have hkey : pixelKey col row ≠ pixelKey rx.col.toNat rx.row.toNat := fun h =>
    have ⟨hc, hr⟩ := (pixelKey_inj hcol hin).1 h
    hne.elim (· hc) (· hr)
  simp [Rx.pixel, Rx.painted, gramFind_insert, hkey]

/-- A whole pixel at a place where one may be put. -/
theorem Rx.AtPixel.rxPixelIn_eq_advance (h : rx.AtPixel) (v : Half) :
    rxPixelIn p v rx = (rx.painted v).advance p := by
  rw [h.rxPixelIn_eq, Rx.painted, ← h.clear.1]

/-- The low byte of a pixel at a place where one may be put. -/
theorem rxStep_lowByte_inside {h : Byte} (hmode : rx.mode = .streaming) (hhalf : rx.half = some h)
    (howed : rx.owed = none) (hw : rx.windowOk = true) (hpast : rx.past = false)
    (hcol : rx.col.toNat < 320) (hrow : rx.row.toNat < 240) (b : Byte) :
    rxStep p rx (.unit 1 b) = .ok ((rx.painted (h ++ b)).advance p) := by
  have hat : { rx with half := none }.AtPixel := ⟨hmode, ⟨rfl, howed⟩, hpast, hw, hcol, hrow⟩
  rw [rxStep_lowByte hmode howed hhalf, hat.rxPixelIn_eq_advance]
  rfl

end

/-- Settles O55: the two bytes of a pixel; the pointer goes along the row or to the next one. -/
theorem streamingUnitRule : Obligations.StreamingUnitRule := by
  unfold Obligations.StreamingUnitRule
  intro p rx b hmode howed
  refine ⟨fun hhalf => rxStep_highByte hmode ⟨hhalf, howed⟩ b, ?_⟩
  intro h hhalf hw hcol hrow hpast
  refine ⟨_, rxStep_lowByte_inside hmode hhalf howed hw hpast hcol hrow b, by simp,
    by simp [hmode], by simp, ?here, ?elsewhere, ?rowEnd, ?inRow⟩
  case here => rw [Rx.pixel_advance, Rx.pixel_painted_here]
  case elsewhere =>
    intro col row hc _ hne
    rw [Rx.pixel_advance, Rx.pixel_painted_elsewhere _ hcol hc hne]
  case rowEnd =>
    intro hx hy
    rw [Rx.advance_rowEnd (rx := rx.painted _) hx hy]
    exact ⟨rfl, rfl⟩
  case inRow =>
    intro hx
    rw [Rx.advance_inRow (rx := rx.painted _) hx]
    exact ⟨rfl, rfl⟩

/-! ### The window's last position (R156) -/

/-- A window inside the frame, in numbers. -/
theorem Rx.windowOk_iff (rx : Rx) : rx.windowOk = true ↔
    (rx.x0.toNat ≤ rx.x1.toNat ∧ rx.x1.toNat < 320) ∧ rx.y0.toNat ≤ rx.y1.toNat ∧ rx.y1.toNat < 240 := by
  simp only [Rx.windowOk, Bool.and_eq_true, decide_eq_true_eq, BitVec.le_def, and_assoc]
  exact Iff.rfl

/-- A pixel past the window's end leaves the frame memory unspecified. -/
theorem receives_pixelPast {p : Params} {rx : Rx} (hmode : rx.mode = .streaming) (hrx : rx.Clear)
    (hpast : rx.past = true) (h b : Byte) :
    Receives p rx [.unit 1 h, .unit 1 b] rx.freeGram := by
  obtain ⟨hhalf, howed⟩ := hrx
  have hback : { rx with half := none } = rx := by rw [← hhalf]
  have hlow : rxStep p { rx with half := some h } (.unit 1 b) = .ok rx.freeGram := by
    rw [rxStep_lowByte (h := h) (by exact hmode) (by exact howed) rfl, hback, rxPixelIn, if_pos hpast]
  exact .cons howed (rxStep_highByte hmode ⟨hhalf, howed⟩ h) (.cons howed hlow (.nil howed))

/-- Settles O60: the last pixel is put as any other; then the pointer is back at the window's first
position, or past the end, where the next pixel frees the frame memory. -/
theorem windowEndRule : Obligations.WindowEndRule := by
  unfold Obligations.WindowEndRule
  intro p rx h b hmode hhalf howed hw hpast hx hy
  obtain ⟨⟨-, hcol⟩, -, hrow⟩ := rx.windowOk_iff.1 hw
  rw [← hx] at hcol
  rw [← hy] at hrow
  have hend := Rx.advance_windowEnd (p := p) (rx := rx.painted (h ++ b)) hx hy
  refine ⟨_, rxStep_lowByte_inside hmode hhalf howed hw hpast hcol hrow b, by simp,
    ?here, ?elsewhere, ?wraps, ?stays⟩
  case here => rw [Rx.pixel_advance, ← hx, ← hy, Rx.pixel_painted_here]
  case elsewhere =>
    intro col row hc hne
    rw [← hx, ← hy] at hne
    rw [Rx.pixel_advance, Rx.pixel_painted_elsewhere _ hcol hc hne]
  case wraps =>
    intro hwrap
    rw [hend, if_pos hwrap]
    exact ⟨rfl, rfl, hpast⟩
  case stays =>
    intro hwrap h' b'
    have hpassed : ((rx.painted (h ++ b)).advance p).past = true := by
      rw [hend, hwrap]
      rfl
    exact ⟨_, receives_pixelPast (by simp [hmode]) (by simp [Rx.Clear, howed]) hpassed h' b' [] 0,
      by simp [Rx.freeGram, hmode], by simp [Rx.freeGram], by simp⟩

/-! ### A frame paints its window (R161) -/

/-- The columns of the window. -/
def Rx.windowWidth (rx : Rx) : Nat := rx.x1.toNat - rx.x0.toNat + 1

/-- The positions of the window. -/
def Rx.windowArea (rx : Rx) : Nat := rx.windowWidth * (rx.y1.toNat - rx.y0.toNat + 1)

/-- The column of the window's `k`-th position, row-major. -/
def Rx.nthCol (rx : Rx) (k : Nat) : Nat := rx.x0.toNat + k % rx.windowWidth

/-- The row of the window's `k`-th position. -/
def Rx.nthRow (rx : Rx) (k : Nat) : Nat := rx.y0.toNat + k / rx.windowWidth

theorem Rx.nth_inj {rx : Rx} {j k : Nat} (hcol : rx.nthCol j = rx.nthCol k)
    (hrow : rx.nthRow j = rx.nthRow k) : j = k :=
  Nat.ext_div_mod (Nat.add_left_cancel hrow) (Nat.add_left_cancel hcol)

/-- Inside its row the next position is one column on. -/
theorem Rx.nth_succ_inRow {rx : Rx} {k : Nat} (h : k % rx.windowWidth + 1 < rx.windowWidth) :
    rx.nthCol (k + 1) = rx.nthCol k + 1 ∧ rx.nthRow (k + 1) = rx.nthRow k := by
  have hk := Nat.mod_add_div k rx.windowWidth
  obtain ⟨hdiv, hmod⟩ := (Nat.div_mod_unique (a := k + 1) (d := k / rx.windowWidth)
    (Nat.zero_lt_of_lt h)).2 ⟨by omega, h⟩
  exact ⟨congrArg (rx.x0.toNat + ·) hmod, congrArg (rx.y0.toNat + ·) hdiv⟩

/-- From the last column the next position is the first one of the next row. -/
theorem Rx.nth_succ_rowEnd {rx : Rx} {k : Nat} (h : k % rx.windowWidth + 1 = rx.windowWidth) :
    rx.nthCol (k + 1) = rx.x0.toNat ∧ rx.nthRow (k + 1) = rx.nthRow k + 1 := by
  have hk := Nat.mod_add_div k rx.windowWidth
  obtain ⟨hdiv, hmod⟩ := (Nat.div_mod_unique (a := k + 1) (d := k / rx.windowWidth + 1) (c := 0)
    (b := rx.windowWidth) (by omega)).2 ⟨by rw [Nat.mul_add]; omega, by omega⟩
  exact ⟨congrArg (rx.x0.toNat + ·) hmod, congrArg (rx.y0.toNat + ·) hdiv⟩

/-- The receiver streams under a window inside the frame, `k` of whose positions have been painted. -/
structure Rx.PaintsNext (rx : Rx) (k : Nat) : Prop where
  streaming : rx.mode = .streaming
  clear : rx.Clear
  windowOk : rx.windowOk = true
  pointer : k < rx.windowArea →
    rx.past = false ∧ rx.col.toNat = rx.nthCol k ∧ rx.row.toNat = rx.nthRow k

section
variable {p : Params} {rx : Rx} {k : Nat}

theorem Rx.nth_inside (hw : rx.windowOk = true) (hk : k < rx.windowArea) :
    rx.nthCol k ≤ rx.x1.toNat ∧ rx.nthRow k ≤ rx.y1.toNat := by
  obtain ⟨⟨hx, -⟩, hy, -⟩ := rx.windowOk_iff.1 hw
  have hmod : k % rx.windowWidth < rx.windowWidth := Nat.mod_lt _ (Nat.succ_pos _)
  have hdiv : k / rx.windowWidth < rx.y1.toNat - rx.y0.toNat + 1 := Nat.div_lt_of_lt_mul hk
  simp only [Rx.nthCol, Rx.nthRow, Rx.windowWidth] at *
  omega

theorem Rx.PaintsNext.atPixel (h : rx.PaintsNext k) (hk : k < rx.windowArea) : rx.AtPixel := by
  obtain ⟨⟨-, hx⟩, -, hy⟩ := rx.windowOk_iff.1 h.windowOk
  obtain ⟨hcolIn, hrowIn⟩ := Rx.nth_inside h.windowOk hk
  obtain ⟨hpast, hcol, hrow⟩ := h.pointer hk
  exact ⟨h.streaming, h.clear, hpast, h.windowOk, by omega, by omega⟩

/-- The pointer goes from a position of the window that is not the last to the next one. -/
theorem Rx.advance_nth (hw : rx.windowOk = true) (hk : k + 1 < rx.windowArea)
    (hcol : rx.col.toNat = rx.nthCol k) (hrow : rx.row.toNat = rx.nthRow k) :
    (rx.advance p).past = rx.past ∧ (rx.advance p).col.toNat = rx.nthCol (k + 1)
      ∧ (rx.advance p).row.toNat = rx.nthRow (k + 1) := by
  obtain ⟨⟨hx, hx320⟩, hy, hy240⟩ := rx.windowOk_iff.1 hw
  obtain ⟨hcolIn, -⟩ := Rx.nth_inside hw (Nat.lt_of_succ_lt hk)
  have hmod : rx.nthCol k = rx.x0.toNat + k % rx.windowWidth := rfl
  have hwidth : rx.windowWidth = rx.x1.toNat - rx.x0.toNat + 1 := rfl
  by_cases hend : rx.col = rx.x1
  · have hnat : rx.col.toNat = rx.x1.toNat := congrArg _ hend
    obtain ⟨hnextCol, hnextRow⟩ := Rx.nth_succ_rowEnd (rx := rx) (k := k) (by omega)
    have hnextIn := (Rx.nth_inside hw hk).2
    have hne : rx.row ≠ rx.y1 := fun e => by
      have : rx.row.toNat = rx.y1.toNat := congrArg _ e
      omega
    rw [Rx.advance_rowEnd hend hne, hnextCol, hnextRow, ← hrow]
    exact ⟨rfl, rfl, BitVec.toNat_add_of_lt (by simp; omega)⟩
  · have hnat : rx.col.toNat ≠ rx.x1.toNat := fun e => hend (BitVec.eq_of_toNat_eq e)
    obtain ⟨hnextCol, hnextRow⟩ := Rx.nth_succ_inRow (rx := rx) (k := k) (by omega)
    rw [Rx.advance_inRow hend, hnextCol, hnextRow, ← hcol]
    exact ⟨rfl, BitVec.toNat_add_of_lt (by simp; omega), hrow⟩

/-- The pointer's going on keeps the window's positions. -/
theorem Rx.advance_painted_nth (v : Half) :
    ((rx.painted v).advance p).windowArea = rx.windowArea
      ∧ ((rx.painted v).advance p).nthCol = rx.nthCol ∧ ((rx.painted v).advance p).nthRow = rx.nthRow := by
  simp [Rx.windowArea, funext_iff, Rx.nthCol, Rx.nthRow, Rx.windowWidth]

/-- One more position painted. -/
theorem Rx.PaintsNext.advance (h : rx.PaintsNext k) (hk : k < rx.windowArea) (v : Half) :
    ((rx.painted v).advance p).PaintsNext (k + 1) := by
  obtain ⟨harea, hnthCol, hnthRow⟩ := rx.advance_painted_nth (p := p) v
  obtain ⟨hpast, hcol, hrow⟩ := h.pointer hk
  have hok : ((rx.painted v).advance p).windowOk = rx.windowOk := by simp [Rx.windowOk]
  refine ⟨by simp [h.streaming], by simp [Rx.Clear, h.clear.2], hok.trans h.windowOk, fun hlt => ?_⟩
  rw [harea] at hlt
  rw [hnthCol, hnthRow, ← hpast]
  exact Rx.advance_nth (rx := rx.painted v) h.windowOk hlt hcol hrow

/-- The pixels of a frame go to the window's positions from the `k`-th on, and nowhere else. -/
theorem receives_pixels (pixels : List Half) (h : rx.PaintsNext k)
    (hlen : k + pixels.length ≤ rx.windowArea) :
    ∃ t, Receives p rx (pixels.flatMap fun c => [.unit 1 (hi c), .unit 1 (lo c)]) t
      ∧ t.mode = .streaming ∧ t.half = none
      ∧ (∀ j c, pixels[j]? = some c → t.pixel (rx.nthCol (k + j)) (rx.nthRow (k + j)) = c)
      ∧ ∀ col row, col < 320 →
          (∀ j < pixels.length, ¬ (col = rx.nthCol (k + j) ∧ row = rx.nthRow (k + j))) →
          t.pixel col row = rx.pixel col row := by
  induction pixels generalizing rx k with
  | nil => exact ⟨rx, .nil h.clear.2, h.streaming, h.clear.1, by simp, fun _ _ _ _ => rfl⟩
  | cons v pixels ih =>
    rw [List.length_cons] at hlen
    have hk : k < rx.windowArea := by omega
    have hat := h.atPixel hk
    obtain ⟨-, hcolHere, hrowHere⟩ := h.pointer hk
    obtain ⟨harea, hnthCol, hnthRow⟩ := rx.advance_painted_nth (p := p) v
    obtain ⟨t, hreceives, hmode, hhalf, hin, hout⟩ :=
      ih (h.advance (p := p) hk v) (by rw [harea]; omega)
    rw [hnthCol, hnthRow] at hin hout
    have hfirst := hat.receives (p := p) v
    rw [hat.rxPixelIn_eq_advance] at hfirst
    have hcol320 : ∀ j, j < rx.windowArea → rx.nthCol j < 320 := fun j hj =>
      (Rx.nth_inside h.windowOk hj).1.trans_lt (rx.windowOk_iff.1 h.windowOk).1.2
    refine ⟨t, hfirst.append hreceives, hmode, hhalf, ?painted, ?kept⟩
    case painted =>
      intro j c hj
      cases j with
      | zero =>
        obtain rfl : v = c := by simpa using hj
        have hlater : ∀ i < pixels.length, ¬ (rx.nthCol k = rx.nthCol (k + 1 + i)
            ∧ rx.nthRow k = rx.nthRow (k + 1 + i)) := fun i _ e => by
          have := Rx.nth_inj e.1 e.2
          omega
        rw [Nat.add_zero, hout _ _ (hcol320 k hk) hlater, Rx.pixel_advance, ← hcolHere, ← hrowHere,
          Rx.pixel_painted_here]
      | succ j =>
        rw [Nat.add_comm j, ← Nat.add_assoc]
        exact hin j c (by simpa using hj)
    case kept =>
      intro col row hcol hnot
      have hlater : ∀ i < pixels.length, ¬ (col = rx.nthCol (k + 1 + i)
          ∧ row = rx.nthRow (k + 1 + i)) := fun i hi => by
        have := hnot (1 + i) (by simp; omega)
        rwa [← Nat.add_assoc] at this
      have hhere : col ≠ rx.col.toNat ∨ row ≠ rx.row.toNat := by
        rw [hcolHere, hrowHere, ← not_and_or]
        exact hnot 0 (by simp)
      rw [hout col row hcol hlater, Rx.pixel_advance, Rx.pixel_painted_elsewhere v hat.col hcol hhere]

end

/-- The head of a frame leaves the receiver before its window's first position. -/
theorem Rx.paintsNext_opened {p : Params} {rx : Rx} {x0 y0 x1 y1 : Half}
    (hw : (rx.windowed p x0 y0 x1 y1).windowOk = true) : (rx.opened p x0 y0 x1 y1).PaintsNext 0 :=
  ⟨rfl, ⟨rfl, rfl⟩, hw, fun _ =>
    ⟨rfl, by simp [Rx.nthCol, Rx.opened], by simp [Rx.nthRow, Rx.opened]⟩⟩

/-- Settles O58: the window, begin memory write, and the pixels one after the other. -/
theorem framePaintsTheWindow : Obligations.FramePaintsTheWindow := by
  unfold Obligations.FramePaintsTheWindow
  intro p rx x0 y0 x1 y1 pixels hdistinct hrx hx hx320 hy hy240 hlen
  have hw : (rx.windowed p x0 y0 x1 y1).windowOk = true :=
    (Rx.windowOk_iff _).2 ⟨⟨hx, hx320⟩, hy, hy240⟩
  have hhead := receives_head (frameCommandsApart hdistinct) hrx true hw
  obtain ⟨t, hpixels, hmode, hhalf, hin, hout⟩ := receives_pixels (p := p) pixels
    (Rx.paintsNext_opened hw) ((Nat.zero_add _).trans_le hlen)
  simp only [Nat.zero_add] at hin hout
  exact ⟨t, hhead.append hpixels [] 0, hmode, hhalf, hin,
    fun col row hcol _ hnot => hout col row hcol hnot⟩

/-! ### Where the receiver's answer ends, and when a delay is owed (R153, R158 to R160, R203) -/

section
variable {p : Params} {rx : Rx} {c : Byte}

/-- A command unit with half a pixel received. -/
theorem rxStep_command_midPixel (howed : rx.owed = none) (hhalf : rx.half.isSome = true) (b : Byte) :
    rxStep p rx (.unit 0 b) = .error .halfPixel := by
  simp [rxStep, rxCommand, howed, hhalf]

/-- A release in the middle of an item. -/
theorem rxStep_deselect_midItem (howed : rx.owed = none) (hmid : rx.midItem p = true) :
    rxStep p rx .deselect = .error .releasedMidItem :=
  (rxStep_deselect p howed).trans (if_pos hmid)

theorem Rx.midItem_of_half (hhalf : rx.half.isSome = true) : rx.midItem p = true := by
  simp [Rx.midItem, hhalf]

theorem Rx.midItem_of_params (hmode : rx.mode = .idle) (hcmd : rx.cmd = some c)
    (hlen : rx.params.length < p.leastParams c) : rx.midItem p = true := by
  simp [Rx.midItem, hmode, hcmd, hlen]

/-- A data unit in `Idle` is a parameter. -/
theorem rxStep_param (howed : rx.owed = none) (hmode : rx.mode = .idle) (b : Byte) :
    rxStep p rx (.unit 1 b) = rxParam p b rx := by
  simp [rxStep, howed, hmode]

/-- No initialisation command is a range command. -/
theorem isRange_eq_false_of_mem (hp : FrameCommandsApart p) (hc : c ∈ p.initCommands) :
    p.isRange c = false := by
  have hcol : c ≠ p.cmdColumnRange := fun e => hp.column_notMem (e ▸ hc)
  have hrow : c ≠ p.cmdRowRange := fun e => hp.row_notMem (e ▸ hc)
  simp [Params.isRange, hcol, hrow]

/-- No initialisation command begins a memory write. -/
theorem ne_memoryWrite_of_mem (hp : FrameCommandsApart p) (hc : c ∈ p.initCommands) :
    c ≠ p.cmdMemoryWrite := fun e => hp.write_notMem (e ▸ hc)

/-- A parameter of an initialisation command that no release stands before. -/
theorem rxStep_initParam (hp : FrameCommandsApart p) (hc : c ∈ p.initCommands) (howed : rx.owed = none)
    (hmode : rx.mode = .idle) (hcmd : rx.cmd = some c) (hrel : rx.released = false) (b : Byte) :
    rxStep p rx (.unit 1 b) = .ok { rx with
      params := rx.params ++ [b], owed := p.settleAfter c (rx.params.length + 1) } := by
  rw [rxStep_param howed hmode]
  simp [rxParam, hcmd, isRange_eq_false_of_mem hp hc, hc, hrel]

end

/-! #### Initialisation commands, pairwise distinct -/

theorem gamma_mem_initCommands {p : Params} {c : Byte} (hc : c = p.cmdGammaPos ∨ c = p.cmdGammaNeg) :
    c ∈ p.initCommands := by
  rcases hc with rfl | rfl <;> simp [Params.initCommands]

theorem isGamma_eq_true {p : Params} {c : Byte} (hc : c = p.cmdGammaPos ∨ c = p.cmdGammaNeg) :
    p.isGamma c = true := by
  simpa [Params.isGamma] using hc

theorem settleAfter_gamma {p : Params} {c : Byte} (hc : c = p.cmdGammaPos ∨ c = p.cmdGammaNeg) (n : Nat) :
    p.settleAfter c n = if n = 16 then some .gamma else none :=
  if_pos (isGamma_eq_true hc)

/-- The commands that ask for a delay are distinct (with the one that stands among them in the order of
70_reset_and_hazards.md R190). -/
theorem delayCommands_nodup {p : Params} (h : p.allCommands.Nodup) :
    [p.cmdSleepOut, p.cmdGammaPos, p.cmdGammaNeg, p.cmdInversionOff, p.cmdNormalOn,
      p.cmdDisplayOn].Nodup := by
  have hinit : p.initCommands.Nodup := h.sublist (List.sublist_append_right _ _)
  have hfront : [p.cmdSleepOut].Sublist ([p.cmdSleepOut] ++ p.cmdPowerCtrl ++ p.cmdVcomCtrl) :=
    (List.sublist_append_left _ _).trans (List.sublist_append_left _ _)
  exact hinit.sublist (hfront.append (List.sublist_append_right
    [p.cmdMemAccessCtrl, p.cmdPixelFormat, p.cmdFrameRate] _))

/-- The delay after sleep out, and the one after each "on" command. -/
theorem settleAfter_zero {p : Params} (h : p.allCommands.Nodup) :
    p.settleAfter p.cmdSleepOut 0 = some .sleepOut ∧ p.settleAfter p.cmdNormalOn 0 = some .on
      ∧ p.settleAfter p.cmdDisplayOn 0 = some .on := by
  have hapart := delayCommands_nodup h
  simp only [List.nodup_cons, List.mem_cons, not_or] at hapart
  obtain ⟨⟨hsp, hsn, -, hso, hsd, -⟩, ⟨-, -, hpo, hpd, -⟩, ⟨-, hno, hnd, -⟩, -⟩ := hapart
  refine ⟨?sleepOut, ?normalOn, ?displayOn⟩
  case sleepOut => simp [Params.settleAfter, Params.isGamma, hsp, hsn]
  case normalOn => simp [Params.settleAfter, Params.isGamma, Ne.symm hpo, Ne.symm hno, Ne.symm hso]
  case displayOn => simp [Params.settleAfter, Params.isGamma, Ne.symm hpd, Ne.symm hnd, Ne.symm hsd]

theorem leastParams_gamma {p : Params} {c : Byte} (hp : FrameCommandsApart p)
    (hc : c = p.cmdGammaPos ∨ c = p.cmdGammaNeg) : p.leastParams c = 16 := by
  simp [Params.leastParams, isRange_eq_false_of_mem hp (gamma_mem_initCommands hc),
    isGamma_eq_true hc, gammaLength]

/-- A command that has a byte or "P" (70_reset_and_hazards.md R190) waits for its first parameter. -/
theorem leastParams_pos {p : Params} {c : Byte} (hc : c ∈ p.cmdPowerCtrl ++ p.cmdVcomCtrl
      ++ [p.cmdMemAccessCtrl, p.cmdPixelFormat, p.cmdFrameRate]) : 0 < p.leastParams c := by
  rw [Params.leastParams, if_pos (List.contains_iff_mem.2 hc)]
  repeat' split
  all_goals decide

/-- The bytes of a gamma table, up to the 16th: a delay is owed after that one and no sooner. -/
theorem rxFold_gammaTable {p : Params} {rx : Rx} {c : Byte} (hp : FrameCommandsApart p)
    (hc : c = p.cmdGammaPos ∨ c = p.cmdGammaNeg) (bs : List Byte) (i : Nat)
    (hmode : rx.mode = .idle) (hcmd : rx.cmd = some c) (hrel : rx.released = false)
    (howed : rx.owed = p.settleAfter c rx.params.length) (hlen : rx.params.length + bs.length ≤ 16) :
    ∃ t, rxFold p [] i rx (bs.map (.unit 1)) = .ok t
      ∧ t.owed = if rx.params.length + bs.length = 16 then some .gamma else none := by
  induction bs generalizing rx i with
  | nil => exact ⟨rx, rfl, howed.trans (settleAfter_gamma hc _)⟩
  | cons b bs ih =>
    rw [List.length_cons] at hlen
    have hnone : rx.owed = none := by rw [howed, settleAfter_gamma hc, if_neg (by omega)]
    have hstep := rxStep_initParam hp (gamma_mem_initCommands hc) hnone hmode hcmd hrel b
    have hparams : (rx.params ++ [b]).length = rx.params.length + 1 := List.length_append
    obtain ⟨t, hfold, howes⟩ := ih (i + 1)
      (rx := { rx with params := rx.params ++ [b], owed := p.settleAfter c (rx.params.length + 1) })
      hmode hcmd hrel (congrArg (p.settleAfter c) hparams.symm) (by simp only [hparams]; omega)
    refine ⟨t, ?_, howes.trans ?_⟩
    · rw [List.map_cons, rxFold, rxSettles_nil, hstep]
      exact hfold
    · rw [List.length_cons, Nat.add_comm bs.length, ← Nat.add_assoc, ← hparams]

/-- A gamma command with up to 16 bytes of its table. -/
theorem rxFold_gammaCommand {p : Params} {rx : Rx} {c : Byte} (hp : FrameCommandsApart p)
    (hrx : rx.Clear) (hc : c = p.cmdGammaPos ∨ c = p.cmdGammaNeg) (bs : List Byte)
    (hlen : bs.length ≤ 16) :
    ∃ t, rxFold p [] 0 rx (.unit 0 c :: bs.map (.unit 1)) = .ok t
      ∧ t.owed = if bs.length = 16 then some .gamma else none := by
  have hne := ne_memoryWrite_of_mem hp (gamma_mem_initCommands hc)
  have htable := rxFold_gammaTable (rx := rx.afterCommand p c) hp hc bs 1 rfl rfl rfl rfl
    ((Nat.zero_add _).trans_le hlen)
  rw [rxFold, rxSettles_nil, rxStep_otherCommand hrx hne]
  simpa [Rx.afterCommand] using htable

/-- Settles O57: each stop by the branch of the step it stands in; each delay by the command that asks
for it. -/
theorem receiverViolations : Obligations.ReceiverViolations := by
  unfold Obligations.ReceiverViolations
  intro p rx b c hdistinct
  have hp := frameCommandsApart hdistinct
  refine ⟨fun howed e => rxStep_of_owed p howed e, fun howed => ?stops, fun hrx => ?delays⟩
  case stops =>
    refine ⟨rxStep_select p howed, fun hmid => (rxStep_deselect p howed).trans (by rw [hmid]; rfl),
      fun hhalf => rxStep_command_midPixel howed hhalf b,
      fun hhalf => rxStep_deselect_midItem howed (Rx.midItem_of_half hhalf), ?noCommand, ?pending⟩
    case noCommand =>
      intro hmode hcmd
      rw [rxStep_param howed hmode]
      simp [rxParam, hcmd]
    case pending =>
      intro hmode hcmd
      rw [rxStep_param howed hmode]
      have hrelease (hlen : rx.params.length < p.leastParams c) :=
        rxStep_deselect_midItem howed (Rx.midItem_of_params hmode hcmd hlen)
      refine ⟨?extra, ?unknown, ?released, ?range, ?gamma, ?first⟩
      case extra =>
        intro hc hlen
        simp [rxParam, hcmd, hc, hlen]
      case unknown =>
        intro hrange hc
        simp [rxParam, hcmd, hrange, hc]
      case released =>
        intro hc hrel
        simp [rxParam, hcmd, isRange_eq_false_of_mem hp hc, hc, hrel]
      case range =>
        intro hc hlen
        exact hrelease (by rwa [Params.leastParams, if_pos hc])
      case gamma =>
        intro hc hlen
        exact hrelease (by rwa [leastParams_gamma hp hc])
      case first =>
        intro hc hparams
        exact hrelease (by rw [hparams]; exact leastParams_pos hc)
  case delays =>
    obtain ⟨hsleep, hnormal, hdisplay⟩ := settleAfter_zero hdistinct
    have hcommand {k : Byte} (hk : k ∈ p.initCommands) :=
      rxStep_otherCommand hrx (ne_memoryWrite_of_mem hp hk)
    exact ⟨⟨_, hcommand (by simp [Params.initCommands]), hsleep⟩,
      ⟨_, hcommand (by simp [Params.initCommands]), hnormal⟩,
      ⟨_, hcommand (by simp [Params.initCommands]), hdisplay⟩,
      fun bs hlen hc => rxFold_gammaCommand hp hrx hc bs hlen⟩

end Sys2Proof.Machine
end

section
/-! PROOFS. Exceptions, hangs and the order of the agents (60_exceptions.md R163 to R171): what a step
refuses, that an operation completes or hangs on a stuck link and then for ever, and that the Link and
the Engine commute. -/

namespace Sys2Proof.Machine

/-! ### Completion on a live link (R167) -/

/-- Settles O28: each operation by the closed form of its end on a live link. -/
theorem liveOperationsComplete : Obligations.LiveOperationsComplete := by
  unfold Obligations.LiveOperationsComplete
  intro i s hs hlive hdef
  obtain ⟨ho, hidle, hquiet⟩ := id hs
  cases i with
  | select => exact ⟨_, selectCompletes.2 s ho, ⟨ho, hidle, hquiet⟩, hlive, rfl, rfl⟩
  | deselect => exact ⟨_, deselectCompletes.2 s ho, ⟨ho, hidle, hquiet⟩, hlive, rfl, rfl⟩
  | sendCommand b =>
    exact ⟨_, (sendCommandCompletes s b ho).2.1 hlive, ⟨ho, rfl, hquiet⟩, hlive, rfl, rfl⟩
  | sendData8 b =>
    exact ⟨_, (sendDataByteCompletes s b ho).2.1 hlive, ⟨ho, rfl, hquiet⟩, hlive, rfl, rfl⟩
  | sendData16 w =>
    exact ⟨_, (sendDataWordCompletes s w ho).2.1 hlive, ⟨ho, rfl, hquiet⟩, hlive, rfl, rfl⟩
  | sendBlock a n r =>
    exact ⟨_, exec_sendBlock_live hs hlive hdef, blockSent_ready a n r ho, hlive, rfl, rfl⟩
  | fillSpan c n =>
    exact ⟨_, exec_fillSpan_ready c n ho, ⟨ho, hidle, hquiet⟩, hlive, rfl, rfl⟩

/-! ### An operation completes, or hangs on a stuck link (R167) -/

/-- An operation in progress waits on a link that finishes nothing more, and no agent can step. -/
structure State.HangsOnLink (s : State) : Prop where
  busy : s.link.busy = true
  stuck : s.linkPlan = .stopAfter 0
  hung : s.Hung
  done : s.done = false

/-- What an operation taken whole comes to. -/
abbrev State.CompletedOrHung (s : State) : Prop := s.op = none ∨ s.HangsOnLink

theorem State.linkStep_eq_none {s : State} :
    State.linkStep s = none ↔ (s.link.busy = true → State.nextPlan s.linkPlan = none) := by
  simp [State.linkStep]

theorem State.channelStep_eq_none {s : State} :
    State.channelStep s = none ↔ (s.ch.en = true → s.ch.rem ≠ 0 → s.link.busy = true) := by
  simp [State.channelStep]

/-- Where the link is stuck and the Engine waits no agent can step: the Channel wants an idle link. -/
theorem State.Running.hangsOnLink {s : State} (hs : s.Running) (hbusy : s.link.busy = true)
    (hstuck : s.linkPlan = .stopAfter 0) (hwait : State.engineStep s = none) : s.HangsOnLink := by
  have hchannel : State.channelStep s = none := State.channelStep_eq_none.2 fun _ _ => hbusy
  exact ⟨hbusy, hstuck,
    ⟨hs.1, State.agentStep_eq_none.2 ⟨State.linkStep_stuck hstuck, hwait, hchannel⟩⟩, hs.2⟩

/-- A wait on the link hangs there where the Engine waits while the link is busy, or is lifted. -/
theorem awaitLink_completedOrHung {k : State → State} {s : State} (hs : s.Running)
    (hwait : s.link.busy = true → State.engineStep s = none)
    (hk : ∀ u, Lifted s u → (k u).CompletedOrHung) : (State.awaitLink k s).CompletedOrHung := by
  obtain ⟨hbusy, hstuck, e⟩ | ⟨hidle, e⟩ | ⟨q, -, -, e⟩ := State.awaitLink_cases k s <;> rw [e]
  · exact .inr (hs.hangsOnLink hbusy hstuck (hwait hbusy))
  · exact hk s ⟨hidle, rfl, rfl, rfl, rfl⟩
  · exact hk _ ⟨rfl, rfl, rfl, rfl, rfl⟩

/-- The last wait of an operation, after which it completes. -/
theorem lastWait_completedOrHung {s : State} {i : Instr} {p : Pos} (hp : p.IsLast)
    (ho : s.op = some ⟨i, p⟩) (hd : s.done = false) :
    (State.awaitLink (State.complete 0) s).CompletedOrHung := by
  refine awaitLink_completedOrHung ⟨by simp [ho], hd⟩ (fun hbusy => ?_) (fun _ _ => .inl rfl)
  rw [State.engineStep_at ho, engineFrom_last hp, if_pos hbusy]

/-- `send_data16` from its first wait on. -/
theorem highSent_completedOrHung {s : State} {w : Half}
    (ho : s.op = some ⟨.sendData16 w, .highSent⟩) (hd : s.done = false) :
    State.CompletedOrHung
      (State.awaitLink (fun u => State.awaitLink (State.complete 0) (sendLow w u)) s) := by
  refine awaitLink_completedOrHung ⟨by simp [ho], hd⟩ (fun hbusy => ?_) (fun u hu => ?_)
  · simp [State.engineStep_at ho, engineFrom, hbusy]
  · exact lastWait_completedOrHung (i := .sendData16 w) (.inl rfl) rfl (hu.done.trans hd)

/-- The units of a repeat that are still to come: while one is, the completion flag is clear, on which
the Engine waits. -/
theorem streamUnits_completedOrHung {i : Instr} {n : Word} {r : Half} {k : State → State}
    (hk : ∀ u, Repeating i n r u → (k u).CompletedOrHung) (c : Nat) {s : State}
    (hs : Repeating i n r s) (hclear : c ≠ 0 → s.ch.tc = false) (hrem : s.ch.rem.toNat = c) :
    (streamUnits c k s).CompletedOrHung := by
  induction c generalizing s with
  | zero => exact hk s hs
  | succ c ih =>
    have htc := hclear (Nat.succ_ne_zero c)
    refine awaitLink_completedOrHung hs.running (fun _ => by simp [hs.engineStep, htc])
      (fun u hu => ih (hs.lifted hu).channelMove (fun hmore => ?flag) ?left)
    all_goals simp only [State.channelMove_ch, hu.ch]
    case flag =>
      have hnotLast : s.ch.rem - 1 ≠ 0 := by bv_omega
      rw [if_neg hnotLast, htc]
    case left => bv_omega

/-- The loop of 41_block_transfer.md R99: each repeat begins with the completion flag clear. -/
theorem runRepeats_completedOrHung (i : Instr) (n : Word) (r : Nat) {s : State}
    (hd : s.done = false) (htc : s.ch.tc = false) (hcnt : s.ch.cnt = n) :
    (runRepeats i n.toNat r s).CompletedOrHung := by
  induction r generalizing s with
  | zero => exact lastWait_completedOrHung (s := leaveLoop i s) (.inr rfl) rfl hd
  | succ r ih =>
    have hfull : (startRepeat i s).ch.rem = n := hcnt
    exact streamUnits_completedOrHung (fun u hu => ih (s := endRepeat u) hu.done rfl hu.cnt) n.toNat
      (startRepeat_repeating hd hcnt rfl) (fun _ => htc) (by rw [hfull])

/-- What an operation on a resting block comes to, whatever the link does. -/
theorem exec_completedOrHung {i : Instr} {s t : State} (hs : s.Ready) (h : exec i s = .next t) :
    t.CompletedOrHung := by
  have hdef := operandRefusal_of_exec hs.1 h
  obtain ⟨ho, -, -, htc, -⟩ := hs
  cases i with
  | select | deselect | fillSpan _ _ =>
    obtain rfl := perform_answer ho h
    exact .inl rfl
  | sendCommand _ | sendData8 _ =>
    simp only [exec, execSendCommand, execSendData8] at h
    obtain rfl := perform_answer ho h
    exact lastWait_completedOrHung (.inl rfl) (sendUnit_op ..) (sendUnit_done ..)
  | sendData16 w =>
    simp only [exec, execSendData16] at h
    obtain rfl := perform_answer ho h
    exact highSent_completedOrHung (sendUnit_op ..) (sendUnit_done ..)
  | sendBlock a n r =>
    obtain rfl := Host.Outcome.next.inj ((execSendBlock_defined ho hdef).symm.trans h)
    rw [blockSetup_eq]
    exact runRepeats_completedOrHung _ n r.toNat rfl htc rfl

/-- Settles O29: an operation that has not completed is where one of its waits hangs. -/
theorem hangsOnlyOnAStuckLink : Obligations.HangsOnlyOnAStuckLink := by
  unfold Obligations.HangsOnlyOnAStuckLink
  intro i s t hs h hop
  obtain ⟨hbusy, hstuck, hhung, hdone⟩ := (exec_completedOrHung hs h).resolve_left hop
  exact ⟨hbusy, hstuck, hhung, hdone⟩

/-! ### A hang lasts for ever (R167) -/

/-- The end of an earlier pulse lifts no hang. -/
theorem State.Hung.endPulse {s : State} (hs : s.Hung) : (State.endPulse s).Hung := by
  obtain ⟨hop, hagent⟩ := hs
  obtain ⟨hlink, hengine, hchannel⟩ := State.agentStep_eq_none.1 hagent
  refine ⟨hop, State.agentStep_eq_none.2 ⟨?link, ?engine, ?channel⟩⟩
  case link => exact State.linkStep_eq_none.2 ((State.linkStep_eq_none (s := s)).1 hlink)
  case engine =>
    obtain ⟨⟨i, p⟩, ho⟩ := Option.isSome_iff_exists.1 hop
    rw [State.engineStep_at ho] at hengine
    rw [State.engineStep_at (s := State.endPulse s) ho, engineFrom_endPulse, hengine]
  case channel => exact State.channelStep_eq_none.2 ((State.channelStep_eq_none (s := s)).1 hchannel)

/-- The step of a hung block ends the pulse and nothing more. -/
theorem State.Hung.step_eq {s : State} (hs : s.Hung) : step s = .next (State.endPulse s) := by
  obtain ⟨-, hagent⟩ := hs.endPulse
  rw [step_busy hs.1, busyStep, hagent]

theorem State.Hung.run_eq {s : State} (hs : s.Hung) (k : Nat) :
    run (k + 1) s = .next (State.endPulse s) := by
  induction k generalizing s with
  | zero => exact run_succ 0 hs.step_eq
  | succ k ih => exact (run_succ (k + 1) hs.step_eq).trans (ih hs.endPulse)

/-- Settles O30: every step of a hung block is the same, and the ports follow from the operation in
progress. -/
theorem hungForEver : Obligations.HungForEver := by
  unfold Obligations.HungForEver
  intro k s hs
  obtain ⟨hready, -⟩ := hostWaitsWhileBusy (State.endPulse s) hs.1
  obtain ⟨hactive, -⟩ := statusBits (State.endPulse s)
  exact ⟨_, hs.run_eq k, rfl, hs.endPulse, hready, hactive.trans hs.1⟩

/-! ### What a step refuses (R163, R166) -/

/-- The `send_block` operands that are reserved, each with the reason under which they are refused. -/
abbrev BlockReserved (p : Params) (a n : Word) (r : Half) (why : Refusal) : Prop :=
  r ≠ 0 ∧ (n = 0 ∧ why = .zeroCount
    ∨ n ≠ 0 ∧ 2 ^ 32 < a.toNat + n.toNat ∧ why = .pastTop
    ∨ n ≠ 0 ∧ a.toNat + n.toNat ≤ 2 ^ 32 ∧ p.touchesDevice a.toNat n.toNat = true
      ∧ why = .notPlainMemory)

theorem blockRefusal_eq_some {p : Params} {a n : Word} {r : Half} {why : Refusal} :
    blockRefusal p a n r = some why ↔ BlockReserved p a n r why := by
  constructor
  · intro h
    unfold blockRefusal at h
    split_ifs at h with hr hn htop hdev <;> obtain rfl := Option.some.inj h
    · exact ⟨hr, .inl ⟨hn, rfl⟩⟩
    · exact ⟨hr, .inr (.inl ⟨hn, htop, rfl⟩)⟩
    · exact ⟨hr, .inr (.inr ⟨hn, Nat.not_lt.1 htop, hdev, rfl⟩)⟩
  · rintro ⟨hr, ⟨rfl, rfl⟩ | ⟨hn, htop, rfl⟩ | ⟨hn, hfit, hdev, rfl⟩⟩
    · exact blockRefusal_zeroCount hr
    · exact blockRefusal_pastTop hr hn htop
    · exact blockRefusal_notPlainMemory hr hn hfit hdev

/-- Only `send_block` has reserved operands (30_encoding.md R70). -/
theorem operandRefusal_eq_some {p : Params} {i : Instr} {why : Refusal} :
    operandRefusal p i = some why
      ↔ ∃ a n r, i = .sendBlock a n r ∧ BlockReserved p a n r why := by
  cases i with
  | sendBlock a n r =>
    refine blockRefusal_eq_some.trans ⟨fun h => ⟨a, n, r, rfl, h⟩, ?_⟩
    rintro ⟨_, _, _, ⟨⟩, h⟩
    exact h
  | select | deselect | sendCommand _ | sendData8 _ | sendData16 _ | fillSpan _ _ =>
    simp [operandRefusal]

/-- On a ready port an operation with defined operands is answered. -/
theorem exec_answers {i : Instr} {s : State} (ho : s.op = none)
    (hdef : operandRefusal s.params i = none) : ∃ t, exec i s = .next t := by
  cases i with
  | sendBlock a n r => exact ⟨_, execSendBlock_defined ho hdef⟩
  | select | deselect | sendCommand _ | sendData8 _ | sendData16 _ | fillSpan _ _ =>
    simp only [exec, execSelect, execDeselect, execSendCommand, execSendData8, execSendData16,
      execFillSpan, State.perform_ready _ _ ho, Host.Outcome.next.injEq, exists_eq']

/-- At either pace a ready port refuses an operation for its operands alone. -/
theorem runInstr_eq_refused {i : Instr} {s : State} {why : Refusal} (ho : s.op = none) :
    runInstr i s = .refused why ↔ operandRefusal s.params i = some why := by
  cases hr : operandRefusal s.params i with
  | none =>
    obtain ⟨t, ht⟩ : ∃ t, runInstr i s = .next t := by
      cases hpace : s.pace with
      | agent => exact ⟨_, runInstr_accepts hpace hr⟩
      | operation => exact (runInstr_operation i hpace).symm ▸ exec_answers ho hr
    simp [ht]
  | some why' =>
    have hrefused : runInstr i s = .refused why' := by
      cases hpace : s.pace with
      | agent => exact runInstr_refused hpace hr
      | operation => exact (runInstr_operation i hpace).trans (exec_refused ho hr)
    simp [hrefused]

/-- What a ready port refuses: a reserved word, or an operation with reserved operands. -/
theorem presentWord_eq_refused {w : OpWord} {s : State} {why : Refusal} (ho : s.op = none) :
    presentWord w s = .refused why
      ↔ decode w = none ∧ why = .reservedWord w
        ∨ ∃ a n r, decode w = some (.sendBlock a n r) ∧ BlockReserved s.params a n r why := by
  cases hw : decode w with
  | none => simp [presentWord, hw, eq_comm]
  | some i =>
    rw [presentWord_some hw, runInstr_eq_refused ho, operandRefusal_eq_some]
    simp

/-- A step refuses only as a ready port that is presented a word. -/
theorem step_eq_refused {s : State} {why : Refusal} :
    step s = .refused why ↔ s.op = none ∧ ∃ w rest, s.Presents w rest
      ∧ presentWord w { s with host := rest, done := false } = .refused why := by
  constructor
  · intro h
    have ho : s.op = none := by
      by_contra hbusy
      rw [step_busy (Option.isSome_iff_ne_none.2 hbusy)] at h
      cases h
    refine ⟨ho, ?_⟩
    cases hact : s.host with
    | nil =>
      rw [step_noAct ho hact] at h
      cases h
    | cons act rest =>
      rw [step_hostAct ho hact] at h
      cases act with
      | present w => exact ⟨w, rest, .inl hact, h⟩
      | presentKept v => exact ⟨_, rest, .inr ⟨v, hact, rfl⟩, h⟩
      | keepResult | store _ _ | load _ | settle _ => cases h
  · rintro ⟨ho, w, rest, hpresents, h⟩
    exact (step_presents ho hpresents).trans h

/-- Settles O31: no reason for a fault exists, and the port's refusals are named one by one. -/
theorem noFaultAndOnlyListedRefusals : Obligations.NoFaultAndOnlyListedRefusals := by
  unfold Obligations.NoFaultAndOnlyListedRefusals
  refine fun s => ⟨(nomatch ·), fun why => step_eq_refused.trans ?_⟩
  refine and_congr_right fun ho => exists₂_congr fun w rest => and_congr_right fun _ => ?_
  exact presentWord_eq_refused (s := { s with host := rest, done := false }) ho

/-! ### The order of two enabled agents (R171) -/

/-- In a well-placed block the Engine's step on a busy link is the one at the end of a repeat. -/
theorem engineStep_busy {s b : State} (hs : s.OpInv) (hbusy : s.link.busy = true)
    (h : State.engineStep s = some b) :
    ∃ i, s.op = some ⟨i, .waitTc⟩ ∧ s.ch.tc = true ∧ b = blockNext i (endRepeat s) := by
  cases ho : s.op with
  | none => simp [State.engineStep, ho] at h
  | some o =>
    obtain ⟨i, p⟩ := o
    rw [State.opInv_at ho] at hs
    rw [State.engineStep_at ho] at h
    cases p with
    | start =>
      obtain ⟨⟨hidle, -⟩, -⟩ := hs
      simp [hidle] at hbusy
    | waitTc =>
      obtain ⟨htc, rfl⟩ : s.ch.tc = true ∧ blockNext i (endRepeat s) = b := by
        simpa [engineFrom] using h
      exact ⟨i, rfl, htc, rfl⟩
    | highSent => cases i <;> simp [engineFrom, hbusy] at h
    | unitSent | drain => simp [engineFrom, hbusy] at h

/-- The loop's head and the Link's step, in either order: past the last repeat the head on a busy link
stops at the last wait, and the Engine completes once the Link has lifted it. -/
theorem blockNext_linkStep (i : Instr) {s a : State} (h : State.linkStep s = some a) :
    State.linkStep (blockNext i s) = some (blockNext i a)
      ∨ ∃ u, State.linkStep (blockNext i s) = some u
          ∧ State.engineStep u = some (blockNext i a) := by
  have hstart := startRepeat_linkBlind i s a h
  have hleave := leaveLoop_linkBlind i s a h
  obtain ⟨hbusy, q, -, rfl⟩ := State.linkStep_eq_some.1 h
  by_cases hrep : s.rep = 0
  · have hlast : blockNext i (State.linkFinish q s)
        = State.complete 0 (leaveLoop i (State.linkFinish q s)) := blockNext_done hrep
    rw [blockNext_done hrep, if_pos hbusy, hlast]
    exact .inr ⟨_, hleave, rfl⟩
  · have hmore : blockNext i (State.linkFinish q s) = startRepeat i (State.linkFinish q s) :=
      blockNext_more hrep
    rw [blockNext_more hrep, hmore]
    exact .inl hstart

/-- Settles O34: the Channel wants an idle link and the Link a busy one; and the Engine's step beside
the Link's is the end of a repeat, which the Link does not see. -/
theorem agentsCommute : Obligations.AgentsCommute := by
  unfold Obligations.AgentsCommute
  refine fun s => ⟨?exclusive, fun hs a b hlink hengine => ?commute⟩
  case exclusive =>
    cases hbusy : s.link.busy with
    | true => exact .inl (State.channelStep_eq_none.2 fun _ _ => hbusy)
    | false => exact .inr (State.linkStep_idle hbusy)
  case commute =>
    have hend := endRepeat_linkBlind s a hlink
    obtain ⟨hbusy, q, -, rfl⟩ := State.linkStep_eq_some.1 hlink
    obtain ⟨i, ho, htc, rfl⟩ := engineStep_busy hs hbusy hengine
    have hafter : State.engineStep (State.linkFinish q s)
        = some (blockNext i (endRepeat (State.linkFinish q s))) :=
      (State.engineStep_at (s := State.linkFinish q s) ho).trans (if_pos htc)
    exact ⟨_, hafter, blockNext_linkStep i hend⟩

end Sys2Proof.Machine
end

section
/-! PROOFS. The initialisation sequence (70_reset_and_hazards.md R188 to R191, R203): what the host's
actions, one after the other, make of the block's lines and channel, and of the receiver. -/

namespace Sys2Proof.Machine

/-! ### Host actions in a row -/

/-- The host's actions `acts`, taken on a machine ready to run where `P` holds, come to one ready to run
where `Q` holds, the rest of the host's program still to come. -/
def Takes (p : Params) (acts : List HostAct) (P Q : State → Prop) : Prop :=
  ∀ ⦃s rest⦄, s.CanRun → s.params = p → s.host = acts ++ rest → P s →
    ∃ t, run acts.length s = .next t ∧ t.CanRun ∧ t.params = p ∧ t.host = rest ∧ Q t

section
variable {p : Params} {acts acts' : List HostAct} {P P' Q Q' R : State → Prop}

theorem Takes.append (h : Takes p acts P Q) (h' : Takes p acts' Q R) :
    Takes p (acts ++ acts') P R := by
  intro s rest hs hp hact hP
  obtain ⟨u, hrun, hu, hpu, hhost, hQ⟩ := h hs hp (hact.trans (List.append_assoc ..)) hP
  obtain ⟨t, hrun', ht⟩ := h' hu hpu hhost hQ
  exact ⟨t, by rw [List.length_append, run_add hrun, hrun'], ht⟩

theorem Takes.nil (h : ∀ s, P s → Q s) : Takes p [] P Q := fun s _ hs hp hact hP =>
  ⟨s, rfl, hs, hp, hact, h s hP⟩

theorem Takes.weaken (h : Takes p acts P Q) (hP : ∀ s, P' s → P s) (hQ : ∀ s, Q s → Q' s) :
    Takes p acts P' Q' := fun s _ hs hp hact hs' =>
  let ⟨t, hrun, ht, hpt, hhost, hq⟩ := h hs hp hact (hP s hs')
  ⟨t, hrun, ht, hpt, hhost, hQ t hq⟩

/-- Actions in groups that each keep what holds. -/
theorem Takes.flatMap {α : Type} {f : α → List HostAct} {xs : List α}
    (h : ∀ x ∈ xs, Takes p (f x) P P) : Takes p (xs.flatMap f) P P := by
  induction xs with
  | nil => exact .nil fun _ hP => hP
  | cons x xs ih =>
    obtain ⟨hx, hxs⟩ := List.forall_mem_cons.1 h
    rw [List.flatMap_cons]
    exact hx.append (ih hxs)

/-- A step of the sequence behind the `select` that its bracket may put before it. -/
theorem Takes.opened (h : Takes p acts P Q) (b : Bracket) (hopen : Takes p [present .select] P P) :
    Takes p ((if b.opens then [present .select] else []) ++ acts) P Q := by
  refine Takes.append (Q := P) ?_ h
  split
  · exact hopen
  · exact .nil fun _ hP => hP

/-- A step of the sequence inside its bracket (70_reset_and_hazards.md R190; log 26). -/
theorem Takes.around (b : Bracket) (hopen : Takes p [present .select] P P) (h : Takes p acts P Q)
    (hclose : Takes p [present .deselect] Q Q) : Takes p (b.around acts) P Q := by
  refine (h.opened b hopen).append ?_
  split
  · exact hclose
  · exact .nil fun _ hQ => hQ

/-- A framing operation, by its events and the lines after it. -/
theorem takes_framing {i : Instr} (hi : IsFraming i)
    (h : ∀ s t rest, s.params = p → FramingTransmits 1 (framingEvents s.cs i) rest s t →
      t.lines = linesAfter s.lines i → P s → Q t) : Takes p [present i] P Q := by
  intro s rest hs hp hact hP
  obtain ⟨t, ht, hlines⟩ := step_framing_transmits hi hs hact
  exact ⟨t, ht.run, ht.canRun, ht.params.trans hp, ht.host, h s t rest hp ht hlines hP⟩

/-- The machine once a block that is not refused has gone out on a live link. -/
theorem takes_block {a n : Word} {r : Half} (hdef : blockRefusal p a n r = none)
    (h : ∀ s rest, s.params = p → P s → Q (blockSent a n r { s with host := rest, done := false })) :
    Takes p [present (.sendBlock a n r)] P Q := by
  intro s rest hs hp hact hP
  obtain ⟨hready, hlive, hpace⟩ := id hs
  have hstep := (step_presents_exec hs (.inl hact)).trans
    (exec_sendBlock_live (by exact hready) hlive (by exact hp ▸ hdef))
  exact ⟨_, run_succ 0 hstep, ⟨blockSent_ready a n r hready.1, hlive, hpace⟩, hp, rfl,
    h s rest hp hP⟩

/-- The machine once the host has left a settle marker. -/
def State.settled (k : Settle) (rest : List HostAct) (s : State) : State :=
  { s with host := rest, done := false, settles := s.settles ++ [(s.wire.length, k)] }

theorem takes_settle {k : Settle} (h : ∀ s rest, P s → Q (s.settled k rest)) :
    Takes p [.settle k] P Q := by
  intro s rest hs hp hact hP
  obtain ⟨hready, hlive, hpace⟩ := hs
  exact ⟨s.settled k rest, run_succ 0 (step_hostAct hready.1 hact), ⟨hready, hlive, hpace⟩, hp, rfl,
    h s rest hP⟩

end

/-! ### The steps of the sequence (R190) -/

/-- The eleven steps, each inside its bracket. -/
theorem initialisation_eq (p : Params) (d : InitData p) :
    initialisation p d
      = d.brackets[0].around [present (.sendCommand p.cmdSleepOut), .settle .sleepOut]
      ++ (d.brackets[1].around (commandsWith p.cmdPowerCtrl d.power)
      ++ (d.brackets[2].around (commandsWith p.cmdVcomCtrl d.vcom)
      ++ (d.brackets[3].around (commandWith p.cmdMemAccessCtrl [d.madctl])
      ++ (d.brackets[4].around (commandWith p.cmdPixelFormat [d.pixelFormat])
      ++ (d.brackets[5].around (commandWith p.cmdFrameRate d.frameRate.bytes)
      ++ (d.brackets[6].around (gammaStep p.cmdGammaPos d.gammaPos)
      ++ (d.brackets[7].around (gammaStep p.cmdGammaNeg d.gammaNeg)
      ++ (d.brackets[8].around [present (.sendCommand p.cmdInversionOff)]
      ++ (d.brackets[9].around [present (.sendCommand p.cmdNormalOn), .settle .on]
      ++ d.brackets[10].around [present (.sendCommand p.cmdDisplayOn), .settle .on]))))))))) := by
  obtain ⟨⟨⟨bs⟩, hlen⟩⟩ := d
  match bs, hlen with
  | [_, _, _, _, _, _, _, _, _, _, _], _ => simp [initialisation, initSteps]

/-! ### Lines and channel (R191) -/

section
variable {p : Params} {acts : List HostAct} {C : Channel → Prop}

/-- An action of the sequence that leaves the channel alone: a framing operation or a delay. -/
def SparesChannel (a : HostAct) : Prop :=
  (∃ i, IsFraming i ∧ a = present i) ∨ ∃ k, a = .settle k

@[simp] theorem sparesChannel_select : SparesChannel (present .select) :=
  .inl ⟨.select, by simp [IsFraming], rfl⟩

@[simp] theorem sparesChannel_deselect : SparesChannel (present .deselect) :=
  .inl ⟨.deselect, by simp [IsFraming], rfl⟩

@[simp] theorem sparesChannel_sendCommand (c : Byte) : SparesChannel (present (.sendCommand c)) :=
  .inl ⟨.sendCommand c, by simp [IsFraming], rfl⟩

@[simp] theorem sparesChannel_sendData8 (b : Byte) : SparesChannel (present (.sendData8 b)) :=
  .inl ⟨.sendData8 b, by simp [IsFraming], rfl⟩

@[simp] theorem sparesChannel_settle (k : Settle) : SparesChannel (.settle k) := .inr ⟨k, rfl⟩

theorem sparesChannel_commandWith (c : Byte) (ps : List Byte) :
    ∀ a ∈ commandWith c ps, SparesChannel a := by
  simp [commandWith]

theorem sparesChannel_commandsWith (cs : List Byte) (ps : Vector ParamBytes cs.length) :
    ∀ a ∈ commandsWith cs ps, SparesChannel a := by
  intro a ha
  obtain ⟨q, -, hq⟩ := List.mem_flatMap.1 ha
  exact sparesChannel_commandWith _ _ a hq

theorem takes_sparing (h : ∀ a ∈ acts, SparesChannel a) : Takes p acts (C ·.ch) (C ·.ch) := by
  rw [← List.flatMap_singleton' acts]
  refine Takes.flatMap fun a ha => ?_
  obtain ⟨i, hi, rfl⟩ | ⟨k, rfl⟩ := h a ha
  · exact takes_framing hi fun s t rest _ ht _ hC => by rwa [ht.ch]
  · exact takes_settle fun s rest hC => hC

theorem takes_sparing_around (b : Bracket) (h : ∀ a ∈ acts, SparesChannel a) :
    Takes p (b.around acts) (C ·.ch) (C ·.ch) :=
  .around b (takes_sparing (by simp)) (takes_sparing h) (takes_sparing (by simp))

/-- The channel was configured for the 16 bytes of a gamma table. -/
def Channel.SentTable (table : Word) (ch : Channel) : Prop := ch.src = table ∧ ch.cnt = 16

theorem takes_gammaStep_channel (b : Bracket) (c : Byte) {table : Word}
    (hdef : blockRefusal p table 16 1 = none) :
    Takes p (b.around (gammaStep c table)) (fun _ => True) (Channel.SentTable table ·.ch) := by
  have hcommand : Takes p [present (.sendCommand c)] (fun _ => True) (fun _ => True) :=
    takes_sparing (C := fun _ => True) (by simp)
  have hblock : Takes p [present (.sendBlock table 16 1)] (fun _ => True)
      (Channel.SentTable table ·.ch) := takes_block hdef fun _ _ _ _ => ⟨rfl, rfl⟩
  have hdelay : Takes p [.settle .gamma] (Channel.SentTable table ·.ch)
      (Channel.SentTable table ·.ch) := takes_sparing (by simp)
  exact .around b (takes_sparing (C := fun _ => True) (by simp))
    (hcommand.append (hblock.append hdelay)) (takes_sparing (by simp))

/-- The last step: its command drives the selector line to 0, and chip-select is active until a
`deselect` follows. -/
theorem takes_displayOn_lines (b : Bracket) (c : Byte) (k : Settle) :
    Takes p (b.around [present (.sendCommand c), .settle k]) (C ·.ch)
      (fun s => s.lines = (!b.closes, 0) ∧ C s.ch) := by
  have hcommand : Takes p [present (.sendCommand c)] (C ·.ch)
      (fun s => s.lines = (true, 0) ∧ C s.ch) :=
    takes_framing (by simp [IsFraming]) fun s t rest _ ht hlines hC => ⟨hlines, by rwa [ht.ch]⟩
  have hdelay : Takes p [.settle k] (fun s => s.lines = (true, 0) ∧ C s.ch)
      (fun s => s.lines = (true, 0) ∧ C s.ch) := takes_settle fun _ _ h => h
  have hclose : Takes p [present .deselect] (fun s => s.lines = (true, 0) ∧ C s.ch)
      (fun s => s.lines = (false, 0) ∧ C s.ch) :=
    takes_framing (by simp [IsFraming]) fun s t rest _ ht hlines ⟨hs, hC⟩ =>
      ⟨by rw [hlines, hs]; rfl, by rwa [ht.ch]⟩
  refine ((hcommand.append hdelay).opened b (takes_sparing (by simp))).append ?_
  cases b.closes with
  | false => exact .nil fun _ h => h
  | true => exact hclose

/-- What R191 says of the block: the channel as the second gamma table left it, the lines as the last
step does. -/
theorem takes_initialisation_block (d : InitData p) (hpos : blockRefusal p d.gammaPos 16 1 = none)
    (hneg : blockRefusal p d.gammaNeg 16 1 = none) :
    Takes p (initialisation p d) (fun _ => True)
      (fun s => s.lines = (!d.brackets[10].closes, 0) ∧ s.ch.SentTable d.gammaNeg) := by
  have hspares {acts : List HostAct} (b : Bracket) (h : ∀ a ∈ acts, SparesChannel a) :
      Takes p (b.around acts) (fun _ => True) (fun _ => True) :=
    takes_sparing_around (C := fun _ => True) b h
  rw [initialisation_eq]
  refine (hspares _ (by simp)).append ?_
  refine (hspares _ (sparesChannel_commandsWith _ _)).append ?_
  refine (hspares _ (sparesChannel_commandsWith _ _)).append ?_
  refine (hspares _ (sparesChannel_commandWith _ _)).append ?_
  refine (hspares _ (sparesChannel_commandWith _ _)).append ?_
  refine (hspares _ (sparesChannel_commandWith _ _)).append ?_
  refine ((takes_gammaStep_channel _ _ hpos).weaken (fun _ h => h) fun _ _ => trivial).append ?_
  refine (takes_gammaStep_channel _ _ hneg).append ?_
  refine (takes_sparing_around _ (by simp)).append ?_
  exact (takes_sparing_around _ (by simp)).append (takes_displayOn_lines _ _ _)

end
/-! ### The receiver along a trace with settle markers (R147, R159) -/

/-- A settle marker at the end of the trace lifts its delay there. -/
theorem rxFold_marker (p : Params) (ds : List (Nat × Settle)) (k : Settle) (es : List WireEvent)
    (i : Nat) {rx t : Rx} (h : rxFold p ds i rx es = .ok t) :
    rxFold p (ds ++ [(i + es.length, k)]) i rx es = .ok (rxSettle k t) := by
  induction es generalizing i rx with
  | nil =>
    obtain rfl : rxSettles ds i rx = t := Except.ok.inj h
    simp [rxFold, rxSettles]
  | cons e es ih =>
    have hhere : rxSettles (ds ++ [(i + (e :: es).length, k)]) i rx = rxSettles ds i rx := by
      simp [rxSettles]
    rw [rxFold] at h ⊢
    rw [hhere]
    split at h
    · rw [List.length_cons, Nat.add_comm es.length, ← Nat.add_assoc]
      exact ih (i + 1) h
    · cases h

/-- The receiver is at `rx`, and no settle marker stands further on than the trace does. -/
structure State.Hears (rx : Rx) (s : State) : Prop where
  placed : s.MarkersPlaced
  answer : s.rx = .ok rx

section
variable {p : Params} {s t : State} {rx r : Rx}

/-- Events that the receiver takes while no delay is owed before the first: the markers of the trace so
far stand before them. -/
theorem State.Hears.events (h : s.Hears rx) {es : List WireEvent} (howed : rx.owed = none)
    (hp : s.params = p) (hes : rxFold p [] 0 rx es = .ok r) (hwire : t.wire = s.wire ++ es)
    (hparams : t.params = s.params) (hsettles : t.settles = s.settles) : t.Hears r where
  placed := h.placed.mono hsettles ⟨es, hwire.symm⟩
  answer := by
    subst hp
    rw [State.rx, hwire, hparams, hsettles, rxFold_append _ _ _ es 0 h.answer, ← hes]
    cases es with
    | nil => exact congrArg Except.ok (rxSettles_of_none _ _ howed)
    | cons e es =>
      rw [rxFold, rxFold, rxSettles_of_none _ _ howed, rxSettles_nil]
      cases rxStep s.params rx e with
      | ok u =>
        exact rxFold_past_markers _ _ es _ _ u fun d hd => by
          have := h.placed d hd
          omega
      | error why => rfl

theorem State.Hears.settled (h : s.Hears rx) (k : Settle) (rest : List HostAct) :
    (s.settled k rest).Hears (rxSettle k rx) where
  placed := List.forall_mem_append.2 ⟨h.placed, by simp [State.settled]⟩
  answer := by
    rw [State.rx, State.settled, ← rxFold_marker _ _ k _ 0 h.answer, Nat.zero_add]

/-- `S?` before the events of an operation changes nothing. -/
theorem rxFold_selectMark (cs : Bool) (es : List WireEvent) (howed : rx.owed = none)
    (hes : rxFold p [] 0 rx es = .ok r) : rxFold p [] 0 rx (selectMark cs ++ es) = .ok r := by
  rw [rxFold_append p [] _ es 0 (receives_selectMark cs howed [] 0), ← hes]
  exact rxFold_past_markers p [] es _ 0 rx (by simp)

theorem rxFold_one {e : WireEvent} (h : rxStep p rx e = .ok r) :
    rxFold p [] 0 rx [e] = .ok r := by
  rw [rxFold, rxSettles_nil, h]
  rfl

end

/-! ### A command of the sequence and its parameters (R153, R190) -/

/-- The receiver after command `c` and its parameters `bs`, from `rx`. -/
def Rx.told (p : Params) (c : Byte) (bs : List Byte) (rx : Rx) : Rx :=
  { rx with mode := .idle, cmd := some c, params := bs, half := none,
            owed := p.settleAfter c bs.length, released := false }

/-- The same once no delay is owed, chip-select released since or not. -/
def Rx.finished (c : Byte) (bs : List Byte) (released : Bool) (rx : Rx) : Rx :=
  { rx with mode := .idle, cmd := some c, params := bs, half := none, owed := none,
            released := released }

/-- The receiver is somewhere where `A` holds. -/
def State.HearsSome (A : Rx → Prop) (s : State) : Prop := ∃ r, A r ∧ s.Hears r

/-- The receiver may take a command, and keeps for it what `rx` keeps. -/
structure Rx.Awaits (p : Params) (rx r : Rx) : Prop where
  clear : r.Clear
  told : ∀ c bs, r.told p c bs = rx.told p c bs

/-- The receiver has the parameters that its last command waits for, so that chip-select may be
released. -/
structure Rx.BetweenSteps (p : Params) (rx r : Rx) : Prop extends Rx.Awaits p rx r where
  whole : r.midItem p = false

/-- Command `c` and its parameters have arrived, and no delay is owed any more. -/
def Rx.Finished (c : Byte) (bs : List Byte) (rx r : Rx) : Prop := ∃ b, r = rx.finished c bs b

section
variable {p : Params} {rx r : Rx} {A : Rx → Prop} {c : Byte} {bs : List Byte}

theorem Rx.Finished.betweenSteps (h : rx.Finished c bs r) (hlen : p.leastParams c ≤ bs.length) :
    rx.BetweenSteps p r := by
  obtain ⟨b, rfl⟩ := h
  exact ⟨⟨⟨rfl, rfl⟩, fun _ _ => rfl⟩, decide_eq_false (Nat.not_lt.2 hlen)⟩

theorem takes_select (hA : ∀ r, A r → r.owed = none) :
    Takes p [present .select] (State.HearsSome A) (State.HearsSome A) :=
  takes_framing (by simp [IsFraming]) fun s t _ hp ht _ ⟨r, hr, hs⟩ => ⟨r, hr,
    hs.events (hA r hr) hp (receives_selectMark s.cs (hA r hr) [] 0) ht.wire ht.params ht.settles⟩

/-- A release of chip-select, if it is active, in the middle of nothing. -/
theorem takes_deselect
    (hA : ∀ r, A r → r.owed = none ∧ r.midItem p = false ∧ A { r with released := true }) :
    Takes p [present .deselect] (State.HearsSome A) (State.HearsSome A) := by
  refine takes_framing (by simp [IsFraming]) fun s t _ hp ht _ ⟨r, hr, hs⟩ => ?_
  obtain ⟨howed, hmid, hreleased⟩ := hA r hr
  have hwire : t.wire = s.wire ++ if s.cs then [.deselect] else [] := ht.wire
  split at hwire
  · exact ⟨_, hreleased,
      hs.events howed hp (receives_deselect howed hmid [] 0) hwire ht.params ht.settles⟩
  · exact ⟨r, hr, hs.events howed hp rfl hwire ht.params ht.settles⟩

theorem takes_sendCommand (hp : FrameCommandsApart p) (hc : c ∈ p.initCommands) :
    Takes p [present (.sendCommand c)] (State.HearsSome (rx.Awaits p)) (State.Hears (rx.told p c [])) := by
  refine takes_framing (by simp [IsFraming]) fun s t _ hps ht _ ⟨r, hr, hs⟩ => ?_
  have hstep : rxStep p r (.unit 0 c) = .ok (rx.told p c []) :=
    (rxStep_otherCommand hr.clear (ne_memoryWrite_of_mem hp hc)).trans
      (congrArg Except.ok (hr.told c []))
  exact hs.events hr.clear.2 hps (rxFold_selectMark s.cs _ hr.clear.2 (rxFold_one hstep)) ht.wire
    ht.params ht.settles

theorem rxStep_told (hp : FrameCommandsApart p) (hc : c ∈ p.initCommands)
    (hquiet : p.settleAfter c bs.length = none) (b : Byte) :
    rxStep p (rx.told p c bs) (.unit 1 b) = .ok (rx.told p c (bs ++ [b])) := by
  rw [rxStep_initParam hp hc hquiet rfl rfl rfl]
  simp [Rx.told]

/-- Data units in a row, no delay owed before the last. -/
theorem rxFold_told (hp : FrameCommandsApart p) (hc : c ∈ p.initCommands) (ps : List Byte) (i : Nat)
    (hquiet : ∀ n < bs.length + ps.length, p.settleAfter c n = none) :
    rxFold p [] i (rx.told p c bs) (ps.map (.unit 1)) = .ok (rx.told p c (bs ++ ps)) := by
  induction ps generalizing bs i with
  | nil => simp [rxFold, rxSettles_nil]
  | cons b ps ih =>
    have hstep := rxStep_told (rx := rx) hp hc (hquiet bs.length (by simp)) b
    have hrest := ih (bs := bs ++ [b]) (i + 1) fun n hn => hquiet n (by
      simp only [List.length_append, List.length_cons, List.length_nil] at hn ⊢
      omega)
    rw [List.map_cons, rxFold, rxSettles_nil, hstep]
    simpa using hrest

theorem takes_sendData8 (hp : FrameCommandsApart p) (hc : c ∈ p.initCommands)
    (hquiet : p.settleAfter c bs.length = none) (b : Byte) :
    Takes p [present (.sendData8 b)] (State.Hears (rx.told p c bs))
      (State.Hears (rx.told p c (bs ++ [b]))) :=
  takes_framing (by simp [IsFraming]) fun s t _ hps ht _ hs =>
    hs.events hquiet hps
      (rxFold_selectMark s.cs [_] hquiet (rxFold_one (rxStep_told hp hc hquiet b)))
      ht.wire ht.params ht.settles

/-- A command's parameters, each by `send_data8`. -/
theorem takes_parameters (hp : FrameCommandsApart p) (hc : c ∈ p.initCommands)
    (hquiet : ∀ n, p.settleAfter c n = none) (ps : List Byte) :
    Takes p (ps.map fun b => present (.sendData8 b)) (State.Hears (rx.told p c bs))
      (State.Hears (rx.told p c (bs ++ ps))) := by
  induction ps generalizing bs with
  | nil => simpa using Takes.nil fun _ h => h
  | cons b ps ih =>
    simpa using (takes_sendData8 hp hc (hquiet _) b).append (ih (bs := bs ++ [b]))

/-- The delay that the command, with its parameters, asks for. -/
theorem State.Hears.delayed {s : State} {k : Settle} (h : s.Hears (rx.told p c bs))
    (hdelay : p.settleAfter c bs.length = some k) (rest : List HostAct) :
    (s.settled k rest).HearsSome (rx.Finished c bs) :=
  ⟨_, ⟨false, if_pos hdelay⟩, h.settled k rest⟩

/-- A command with parameters that asks for no delay. -/
theorem State.Hears.undelayed {s : State} (h : s.Hears (rx.told p c bs))
    (hquiet : p.settleAfter c bs.length = none) : s.HearsSome (rx.Finished c bs) :=
  ⟨_, ⟨false, by simp [Rx.told, Rx.finished, hquiet]⟩, h⟩

end

/-- The bytes of a block. -/
def blockBytes (m : Memory) (a : Word) (n : Nat) : List Byte :=
  (List.range n).map fun i => Memory.read m (blockAddr a i)

theorem blockBytes_length (m : Memory) (a : Word) (n : Nat) : (blockBytes m a n).length = n := by
  simp [blockBytes]

theorem copies_one_blockUnits (m : Memory) (a : Word) (n : Nat) :
    copies 1 (blockUnits m a n) = (blockBytes m a n).map (.unit 1) := by
  simp [copies, blockUnits, blockBytes]

/-! ### The commands of the sequence (R190) -/

/-- The commands that R190 gives a parameter byte or "P". -/
def Params.parameterCommands (p : Params) : List Byte :=
  p.cmdPowerCtrl ++ p.cmdVcomCtrl ++ [p.cmdMemAccessCtrl, p.cmdPixelFormat, p.cmdFrameRate]

section
variable {p : Params} {c : Byte}

/-- No command of them is one of the others. -/
theorem parameterCommands_apart (h : p.allCommands.Nodup) (hc : c ∈ p.parameterCommands) :
    c ∉ [p.cmdSleepOut, p.cmdGammaPos, p.cmdGammaNeg, p.cmdInversionOff, p.cmdNormalOn,
      p.cmdDisplayOn] := by
  have hinit : p.initCommands.Nodup := h.sublist (List.sublist_append_right _ _)
  have hsplit : p.initCommands = [p.cmdSleepOut] ++ (p.parameterCommands
      ++ [p.cmdGammaPos, p.cmdGammaNeg, p.cmdInversionOff, p.cmdNormalOn, p.cmdDisplayOn]) := by
    simp [Params.initCommands, Params.parameterCommands]
  rw [hsplit, List.singleton_append, List.nodup_cons, List.nodup_append'] at hinit
  obtain ⟨hsleep, -, -, hdisjoint⟩ := hinit
  rw [List.mem_cons, not_or]
  exact ⟨fun e => hsleep (List.mem_append_left _ (e ▸ hc)), hdisjoint hc⟩

theorem mem_initCommands_of_parameter (hc : c ∈ p.parameterCommands) : c ∈ p.initCommands := by
  simp only [Params.parameterCommands, Params.initCommands, List.mem_append, List.mem_cons] at hc ⊢
  tauto

/-- Only five commands ask for a delay (R203). -/
theorem settleAfter_undelayed (hc : c ∉ [p.cmdSleepOut, p.cmdGammaPos, p.cmdGammaNeg, p.cmdNormalOn,
    p.cmdDisplayOn]) (n : Nat) : p.settleAfter c n = none := by
  simp only [List.mem_cons, not_or] at hc
  simp [Params.settleAfter, Params.isGamma, hc]

theorem settleAfter_parameter (h : p.allCommands.Nodup) (hc : c ∈ p.parameterCommands) (n : Nat) :
    p.settleAfter c n = none :=
  settleAfter_undelayed (mt (by simp only [List.mem_cons]; tauto) (parameterCommands_apart h hc)) n

theorem settleAfter_inversionOff (h : p.allCommands.Nodup) (n : Nat) :
    p.settleAfter p.cmdInversionOff n = none := by
  have hapart := delayCommands_nodup h
  simp only [List.nodup_cons, List.mem_cons, not_or] at hapart
  obtain ⟨⟨-, -, hsleep, -⟩, ⟨-, hpos, -⟩, ⟨hneg, -⟩, ⟨hnormal, hdisplay, -⟩, -⟩ := hapart
  exact settleAfter_undelayed
    (by simp [Ne.symm hsleep, Ne.symm hpos, Ne.symm hneg, hnormal, hdisplay]) n

theorem leastParams_of_notGamma (h : p.allCommands.Nodup) (hc : c ∈ p.initCommands)
    (hgamma : p.isGamma c = false) :
    p.leastParams c = if p.parameterCommands.contains c then 1 else 0 := by
  rw [Params.leastParams, isRange_eq_false_of_mem (frameCommandsApart h) hc, hgamma,
    if_neg Bool.false_ne_true, if_neg Bool.false_ne_true]
  rfl

theorem leastParams_parameter (h : p.allCommands.Nodup) (hc : c ∈ p.parameterCommands) :
    p.leastParams c = 1 := by
  have hapart := parameterCommands_apart h hc
  simp only [List.mem_cons, not_or] at hapart
  rw [leastParams_of_notGamma h (mem_initCommands_of_parameter hc)
    (by simp [Params.isGamma, hapart]), if_pos (List.contains_iff_mem.2 hc)]

/-- The commands that R190 gives neither a parameter nor a table. -/
def Params.bareCommands (p : Params) : List Byte :=
  [p.cmdSleepOut, p.cmdInversionOff, p.cmdNormalOn, p.cmdDisplayOn]

theorem mem_initCommands_of_bare (hc : c ∈ p.bareCommands) : c ∈ p.initCommands := by
  simp only [Params.bareCommands, Params.initCommands, List.mem_append, List.mem_cons] at hc ⊢
  tauto

theorem leastParams_bare (h : p.allCommands.Nodup) (hc : c ∈ p.bareCommands) :
    p.leastParams c = 0 := by
  have hapart : c ∉ p.parameterCommands := fun hparam => parameterCommands_apart h hparam (by
    simp only [Params.bareCommands, List.mem_cons] at hc ⊢
    tauto)
  have hgamma : p.isGamma c = false := by
    have hdistinct := delayCommands_nodup h
    simp only [List.nodup_cons, List.mem_cons] at hdistinct
    simp only [Params.bareCommands, List.mem_cons] at hc
    simp only [Params.isGamma]
    grind
  rw [leastParams_of_notGamma h (mem_initCommands_of_bare hc) hgamma,
    if_neg (mt List.contains_iff_mem.1 hapart)]

end

/-! ### The steps of the sequence (R190, R203) -/

section
variable {p : Params} {rx r : Rx} {c : Byte} {bs : List Byte}

/-- Between two steps the receiver may take a command. -/
theorem Takes.afterStep {acts : List HostAct} {Q : State → Prop}
    (h : Takes p acts (State.HearsSome (rx.Awaits p)) Q) :
    Takes p acts (State.HearsSome (rx.BetweenSteps p)) Q :=
  h.weaken (fun _ ⟨r, hr, hs⟩ => ⟨r, hr.toAwaits, hs⟩) fun _ hs => hs

theorem hearsSome_betweenSteps {s : State} (hs : s.HearsSome (rx.Finished c bs))
    (hlen : p.leastParams c ≤ bs.length) : s.HearsSome (rx.BetweenSteps p) :=
  let ⟨r, hr, hs⟩ := hs
  ⟨r, hr.betweenSteps hlen, hs⟩

/-- A command with its parameters, at least one. -/
theorem takes_commandWith (h : p.allCommands.Nodup) (hc : c ∈ p.parameterCommands)
    (hbs : 1 ≤ bs.length) :
    Takes p (commandWith c bs) (State.HearsSome (rx.BetweenSteps p))
      (State.HearsSome (rx.BetweenSteps p)) := by
  have hp := frameCommandsApart h
  have hinit := mem_initCommands_of_parameter hc
  have hquiet := settleAfter_parameter h hc
  have hlen : p.leastParams c ≤ bs.length := (leastParams_parameter h hc).trans_le hbs
  refine ((takes_sendCommand hp hinit).afterStep.append
    (takes_parameters hp hinit hquiet bs)).weaken (fun _ hs => hs) fun s hs => ?_
  exact hearsSome_betweenSteps (hs.undelayed (hquiet _)) hlen

/-- Each command of a step with its own parameters, be they none or many. -/
theorem takes_commandsWith (h : p.allCommands.Nodup) {cs : List Byte}
    (hcs : ∀ c ∈ cs, c ∈ p.parameterCommands) (ps : Vector ParamBytes cs.length) :
    Takes p (commandsWith cs ps) (State.HearsSome (rx.BetweenSteps p))
      (State.HearsSome (rx.BetweenSteps p)) :=
  Takes.flatMap fun q hq =>
    takes_commandWith h (hcs q.1 (List.of_mem_zip hq).1) (Nat.le_add_left ..)

/-- Inversion off, which has neither parameter nor delay. -/
theorem takes_inversionOff (h : p.allCommands.Nodup) :
    Takes p [present (.sendCommand p.cmdInversionOff)] (State.HearsSome (rx.BetweenSteps p))
      (State.HearsSome (rx.BetweenSteps p)) := by
  have hbare : p.leastParams p.cmdInversionOff = 0 := leastParams_bare h (by simp [Params.bareCommands])
  refine (takes_sendCommand (frameCommandsApart h) (by simp [Params.initCommands])).afterStep.weaken
    (fun _ hs => hs) fun s hs => ?_
  exact hearsSome_betweenSteps (hs.undelayed (settleAfter_inversionOff h 0)) hbare.le

/-- The block of a gamma table: its 16 bytes are the command's parameters. -/
theorem takes_gammaTable (hp : FrameCommandsApart p) (hc : c = p.cmdGammaPos ∨ c = p.cmdGammaNeg)
    {table : Word} (hdef : blockRefusal p table 16 1 = none) :
    Takes p [present (.sendBlock table 16 1)] (State.Hears (rx.told p c []))
      (fun s => ∃ bs : List Byte, bs.length = 16 ∧ s.Hears (rx.told p c bs)) := by
  refine takes_block hdef fun s rest hps hs => ?_
  have hquiet : ∀ n < 16, p.settleAfter c n = none := fun n hn => by
    rw [settleAfter_gamma hc, if_neg hn.ne]
  have hlen := blockBytes_length s.mem table 16
  have hfold := rxFold_told (rx := rx) (bs := []) hp (gamma_mem_initCommands hc)
    (blockBytes s.mem table 16) 0 (by simpa [hlen] using hquiet)
  rw [← copies_one_blockUnits] at hfold
  have hfirst : p.settleAfter c 0 = none := hquiet 0 (by decide)
  exact ⟨blockBytes s.mem table 16, hlen,
    hs.events hfirst hps (rxFold_selectMark s.cs _ hfirst hfold) (List.append_assoc ..) rfl rfl⟩

/-- A gamma command, its table and the delay after the 16th byte. -/
theorem takes_gammaStep (h : p.allCommands.Nodup) (hc : c = p.cmdGammaPos ∨ c = p.cmdGammaNeg)
    {table : Word} (hdef : blockRefusal p table 16 1 = none) :
    Takes p (gammaStep c table) (State.HearsSome (rx.BetweenSteps p))
      (State.HearsSome (rx.BetweenSteps p)) := by
  have hp := frameCommandsApart h
  refine (takes_sendCommand hp (gamma_mem_initCommands hc)).afterStep.append
    ((takes_gammaTable hp hc hdef).append (takes_settle fun s rest ⟨bs, hlen, hs⟩ => ?_))
  have hdelay : p.settleAfter c bs.length = some .gamma := by rw [settleAfter_gamma hc, if_pos hlen]
  exact hearsSome_betweenSteps (hs.delayed hdelay rest) (by rw [leastParams_gamma hp hc, hlen])

/-! ### The steps in their brackets -/

/-- A step after the first. -/
theorem takes_laterStep {acts : List HostAct} (b : Bracket)
    (h : Takes p acts (State.HearsSome (rx.BetweenSteps p)) (State.HearsSome (rx.BetweenSteps p))) :
    Takes p (b.around acts) (State.HearsSome (rx.BetweenSteps p))
      (State.HearsSome (rx.BetweenSteps p)) :=
  .around b (takes_select fun _ hr => hr.clear.2) h
    (takes_deselect fun _ hr => ⟨hr.clear.2, hr.whole, ⟨hr.clear, hr.told⟩, hr.whole⟩)

/-- A step that is a command without parameters, and the delay after it. -/
theorem takes_delayedStep (h : p.allCommands.Nodup) (b : Bracket)
    (hc : c ∈ p.bareCommands) {k : Settle} (hdelay : p.settleAfter c 0 = some k) :
    Takes p (b.around [present (.sendCommand c), .settle k]) (State.HearsSome (rx.Awaits p))
      (State.HearsSome (rx.Finished c [])) := by
  refine .around b (takes_select fun _ hr => hr.clear.2)
    ((takes_sendCommand (frameCommandsApart h) (mem_initCommands_of_bare hc)).append
      (takes_settle fun _ rest hs => hs.delayed hdelay rest)) (takes_deselect fun r hr => ?_)
  have hwhole := (hr.betweenSteps (leastParams_bare h hc).le).whole
  obtain ⟨released, rfl⟩ := hr
  exact ⟨rfl, hwhole, true, rfl⟩

end

/-- What the initialisation sequence makes of a receiver that stands between two items. -/
theorem takes_initialisation_receiver {p : Params} {rx : Rx} (h : p.allCommands.Nodup)
    (d : InitData p) (hpos : blockRefusal p d.gammaPos 16 1 = none)
    (hneg : blockRefusal p d.gammaNeg 16 1 = none) :
    Takes p (initialisation p d) (State.HearsSome (rx.Awaits p))
      (State.HearsSome (rx.Finished p.cmdDisplayOn [])) := by
  obtain ⟨hsleep, hnormal, hdisplay⟩ := settleAfter_zero h
  have hparameter : ∀ c ∈ p.cmdPowerCtrl ++ p.cmdVcomCtrl, c ∈ p.parameterCommands := fun c hc =>
    List.mem_append_left _ hc
  have hdelayed {c : Byte} (hc : c ∈ p.bareCommands) {k : Settle}
      (hdelay : p.settleAfter c 0 = some k) (b : Bracket) :
      Takes p (b.around [present (.sendCommand c), .settle k]) (State.HearsSome (rx.Awaits p))
        (State.HearsSome (rx.BetweenSteps p)) :=
    (takes_delayedStep h b hc hdelay).weaken (fun _ hs => hs) fun _ hs =>
      hearsSome_betweenSteps hs (leastParams_bare h hc).le
  rw [initialisation_eq]
  refine (hdelayed (by simp [Params.bareCommands]) hsleep _).append ?_
  refine (takes_laterStep _ (takes_commandsWith h
    (fun c hc => hparameter c (List.mem_append_left _ hc)) _)).append ?_
  refine (takes_laterStep _ (takes_commandsWith h
    (fun c hc => hparameter c (List.mem_append_right _ hc)) _)).append ?_
  refine (takes_laterStep _ (takes_commandWith h (by simp [Params.parameterCommands]) le_rfl)).append ?_
  refine (takes_laterStep _ (takes_commandWith h (by simp [Params.parameterCommands]) le_rfl)).append ?_
  refine (takes_laterStep _ (takes_commandWith h (by simp [Params.parameterCommands])
    (Nat.le_add_left ..))).append ?_
  refine (takes_laterStep _ (takes_gammaStep h (.inl rfl) hpos)).append ?_
  refine (takes_laterStep _ (takes_gammaStep h (.inr rfl) hneg)).append ?_
  refine (takes_laterStep _ (takes_inversionOff h)).append ?_
  refine (hdelayed (by simp [Params.bareCommands]) hnormal _).afterStep.append ?_
  exact (takes_delayedStep h _ (by simp [Params.bareCommands]) hdisplay).afterStep

/-- Settles O52: the run as the block takes it and as the receiver hears it, which is one run. -/
theorem initialisationEndState : Obligations.InitialisationEndState := by
  unfold Obligations.InitialisationEndState
  intro s d hs hpos hneg
  have hready : (s.program (initialisation s.params d)).CanRun := hs
  have hhost := (List.append_nil (initialisation s.params d)).symm
  obtain ⟨t, hrun, ht, hp, hover, hlines, hsrc, hcnt⟩ :=
    takes_initialisation_block d hpos hneg hready rfl hhost trivial
  obtain ⟨⟨hop, hidle, hdisabled, -⟩, -⟩ := ht
  refine ⟨t, hrun, ⟨hover, hop⟩, congrArg Prod.snd hlines, congrArg Prod.fst hlines, hidle,
    hdisabled, hsrc, hcnt, fun rx hdistinct hplaced hrx hclear => ?_⟩
  have hstart : (s.program (initialisation s.params d)).HearsSome (rx.Awaits s.params) :=
    ⟨rx, ⟨hclear, fun _ _ => rfl⟩, hplaced, hrx⟩
  obtain ⟨t', hrun', -, -, -, r, ⟨released, rfl⟩, hheard⟩ :=
    takes_initialisation_receiver hdistinct d hpos hneg hready rfl hhost hstart
  obtain rfl : t' = t := Host.Outcome.next.inj (hrun'.symm.trans hrun)
  exact ⟨_, hheard.answer, rfl, rfl, rfl, ⟨rfl, rfl⟩, rfl⟩

end Sys2Proof.Machine
end
